-- ==== Sys2Proof/Word.lean ====
section
/-! DEFINITION. The two word types of the engine (00_scope.md R8, R9). -/

namespace Sys2Proof

/-- A register, a command word or a SHA-256 word: 32 bits, bit 0 least significant (R8, R9). -/
abbrev Word := BitVec 32

/-- One byte of a buffer or of a byte string (R9). -/
abbrev Byte := BitVec 8

end Sys2Proof
end

