-- ==== Sys2Proof/Syntax.lean ====
section
/-! DEFINITION. The commands of 30_encoding.md R80: one constructor per row of the opcode table. -/

namespace Sys2Proof

/-- A command. `len` is the unsigned byte count L of R79; every other operand is a fixed buffer or a length
register. -/
inductive Instr where
  /-- NOP, 45_control.md R125. -/
  | nop
  /-- SHA_INIT, 40_sha256.md R95. -/
  | shaInit
  /-- SHA_UPDATE, 40_sha256.md R96: absorb `len` bytes of MSG_BUF. -/
  | shaUpdate (len : Nat)
  /-- SHA_FINAL, 40_sha256.md R97. -/
  | shaFinal
  /-- MGF1, 41_pss.md R101: a mask of `len` bytes. -/
  | mgf1 (len : Nat)
  /-- PSS_ENCODE, 41_pss.md R105. -/
  | pssEncode
  /-- PSS_VERIFY, 41_pss.md R108. -/
  | pssVerify
  /-- KEY_LOAD, 42_modexp.md R110. -/
  | keyLoad
  /-- MODEXP, 42_modexp.md R114. -/
  | modexp
  /-- CMP, 43_compare.md R117: compare `len` bytes. -/
  | cmp (len : Nat)
  /-- SIGN, 44_sequenced.md R119. -/
  | sign
  /-- VERIFY, 44_sequenced.md R120: a signature of `len` bytes. -/
  | verify (len : Nat)
  /-- ZEROIZE, 45_control.md R126. -/
  | zeroize
deriving DecidableEq, Repr

end Sys2Proof
end

