-- ==== Sys2Proof/WellFormed.lean ====
section
/-! DEFINITION. Which commands have an encoding: L is a 16-bit count, 0 to 65535 (30_encoding.md R79). -/

namespace Sys2Proof

/-- R79: "an unsigned byte count from 0 to 65535". -/
def lenFits (len : Nat) : Bool := decide (len < 65536)

/-- A command that some CMD word encodes (R78, R79). -/
def Instr.wf (i : Instr) : Bool :=
  match i with
  | .nop => true
  | .shaInit => true
  | .shaUpdate len => lenFits len
  | .shaFinal => true
  | .mgf1 len => lenFits len
  | .pssEncode => true
  | .pssVerify => true
  | .keyLoad => true
  | .modexp => true
  | .cmp len => lenFits len
  | .sign => true
  | .verify len => lenFits len
  | .zeroize => true

end Sys2Proof
end

