-- ==== Sys2Proof/Decode.lean ====
section
/-! DEFINITION. The decoder of 30_encoding.md R78 to R82, the opcode table it must agree with (R81), and the
encoder. Every 32-bit word is decoded or rejected by name; the engine reports each rejection as BAD_CMD. -/

namespace Sys2Proof

/-- Why a word is no command (R82: "Illegal words are"). All three end in BAD_CMD. -/
inductive DecodeError where
  /-- RSV, bits [15:8], is not 0. -/
  | reservedField
  /-- OPC is one of the 243 unassigned values. -/
  | unassignedOpcode
  /-- LEN16 is not 0 on a command that takes no length. -/
  | lengthNotAllowed
deriving DecidableEq, Repr

/-- OPC, bits [7:0] (R78). -/
def opcField (v : Word) : BitVec 8 := v.extractLsb' 0 8

/-- RSV, bits [15:8] (R78). -/
def rsvField (v : Word) : BitVec 8 := v.extractLsb' 8 8

/-- LEN16, bits [31:16] (R78). -/
def len16Field (v : Word) : BitVec 16 := v.extractLsb' 16 16

/-- A command that takes no length: LEN16 must be 0 (R80, R81). -/
def decodePlain (v : Word) (i : Instr) : Except DecodeError Instr :=
  if len16Field v = 0#16 then .ok i else .error .lengthNotAllowed

/-- R81's `decode`, with the reason of a rejection kept. -/
def decode (v : Word) : Except DecodeError Instr :=
  if rsvField v ≠ 0#8 then .error .reservedField
  else match (opcField v).toNat with
    | 0x00 => decodePlain v .nop
    | 0x01 => decodePlain v .shaInit
    | 0x02 => .ok (.shaUpdate (len16Field v).toNat)
    | 0x03 => decodePlain v .shaFinal
    | 0x10 => .ok (.mgf1 (len16Field v).toNat)
    | 0x11 => decodePlain v .pssEncode
    | 0x12 => decodePlain v .pssVerify
    | 0x20 => decodePlain v .keyLoad
    | 0x21 => decodePlain v .modexp
    | 0x30 => .ok (.cmp (len16Field v).toNat)
    | 0x40 => decodePlain v .sign
    | 0x41 => .ok (.verify (len16Field v).toNat)
    | 0x7F => decodePlain v .zeroize
    | _ => .error .unassignedOpcode

/-- The command word with the fields OPC, RSV = 0 and LEN16 (R78). -/
def cmdWord (opc : BitVec 8) (len : Nat) : Word := BitVec.ofNat 16 len ++ 0#8 ++ opc

/-- OPC of a command (R80). -/
def Instr.opcode (i : Instr) : BitVec 8 :=
  match i with
  | .nop => 0x00#8
  | .shaInit => 0x01#8
  | .shaUpdate _ => 0x02#8
  | .shaFinal => 0x03#8
  | .mgf1 _ => 0x10#8
  | .pssEncode => 0x11#8
  | .pssVerify => 0x12#8
  | .keyLoad => 0x20#8
  | .modexp => 0x21#8
  | .cmp _ => 0x30#8
  | .sign => 0x40#8
  | .verify _ => 0x41#8
  | .zeroize => 0x7F#8

/-- LEN16 of a command: L for the four commands of R79, 0 for the others. -/
def Instr.len16 (i : Instr) : Nat :=
  match i with
  | .nop => 0
  | .shaInit => 0
  | .shaUpdate len => len
  | .shaFinal => 0
  | .mgf1 len => len
  | .pssEncode => 0
  | .pssVerify => 0
  | .keyLoad => 0
  | .modexp => 0
  | .cmp len => len
  | .sign => 0
  | .verify len => len
  | .zeroize => 0

/-- The mnemonic of R80. -/
def Instr.mnemonic (i : Instr) : String :=
  match i with
  | .nop => "NOP"
  | .shaInit => "SHA_INIT"
  | .shaUpdate _ => "SHA_UPDATE"
  | .shaFinal => "SHA_FINAL"
  | .mgf1 _ => "MGF1"
  | .pssEncode => "PSS_ENCODE"
  | .pssVerify => "PSS_VERIFY"
  | .keyLoad => "KEY_LOAD"
  | .modexp => "MODEXP"
  | .cmp _ => "CMP"
  | .sign => "SIGN"
  | .verify _ => "VERIFY"
  | .zeroize => "ZEROIZE"

/-- The CMD word of a command (R78, R80). -/
def encode (i : Instr) : Word := cmdWord i.opcode i.len16

/-- One row of spec/opcode_table.json. -/
structure OpcodeRow where
  mnemonic : String
  pattern : Word
  mask : Word
deriving DecidableEq, Repr

/-- spec/opcode_table.json: each row's mnemonic, match and mask. -/
def opcodeTable : List OpcodeRow :=
  [⟨"NOP", 0x00000000#32, 0xFFFFFFFF#32⟩, ⟨"SHA_INIT", 0x00000001#32, 0xFFFFFFFF#32⟩,
   ⟨"SHA_UPDATE", 0x00000002#32, 0x0000FFFF#32⟩, ⟨"SHA_FINAL", 0x00000003#32, 0xFFFFFFFF#32⟩,
   ⟨"MGF1", 0x00000010#32, 0x0000FFFF#32⟩, ⟨"PSS_ENCODE", 0x00000011#32, 0xFFFFFFFF#32⟩,
   ⟨"PSS_VERIFY", 0x00000012#32, 0xFFFFFFFF#32⟩, ⟨"KEY_LOAD", 0x00000020#32, 0xFFFFFFFF#32⟩] ++
  [⟨"MODEXP", 0x00000021#32, 0xFFFFFFFF#32⟩, ⟨"CMP", 0x00000030#32, 0x0000FFFF#32⟩,
   ⟨"SIGN", 0x00000040#32, 0xFFFFFFFF#32⟩, ⟨"VERIFY", 0x00000041#32, 0x0000FFFF#32⟩,
   ⟨"ZEROIZE", 0x0000007F#32, 0xFFFFFFFF#32⟩]

/-- R81: "A word v selects the row with `(v & mask) == match`". -/
def OpcodeRow.selects (r : OpcodeRow) (v : Word) : Bool := v &&& r.mask == r.pattern

/-- The command word whose low `nbits` bits are `w` and whose other bits are 0. -/
def tableWord (nbits w : Nat) : Word := BitVec.ofNat 32 (w % 2 ^ nbits)

/-- The instruction the decoder reads from a table row's word; a command is one 32-bit word and has no other
length (R78, R83). -/
def decodeTableWord (nbits w : Nat) : Option Instr :=
  if nbits ≤ 32 then
    match decode (tableWord nbits w) with
    | .ok i => some i
    | .error _ => none
  else none

end Sys2Proof
end

