-- ==== Sys2Proof/Config.lean ====
section
/-! DEFINITION. The implementation parameters of 00_scope.md R7, and the values the spec leaves open.

The fixed parameters have the spec's values. An OPEN parameter, or a value the spec gives no meaning, is an
opaque constant: nothing can evaluate it and no claim can rest on what it is. BUS_PROTOCOL has no constant: the
model is at the level of transactions (log entry 10). CMD_LATENCY has none either: the agenda of State says
when the completion step comes (log entry 1). -/

namespace Sys2Proof.Config

/-- HLEN: the digest length in bytes. -/
def hLen : Nat := 32

/-- K_MAX: the largest modulus, in bytes. -/
def kMax : Nat := 512

/-- MSG_BUF_BYTES: the message staging buffer. -/
def msgBufBytes : Nat := 256

/-- SALT_BUF_BYTES. -/
def saltBufBytes : Nat := 512

/-- SLEN_RESET: the default salt length. -/
def slenReset : BitVec 16 := 32#16

/-- SHA_MAX_BYTES: the longest message the SHA unit accepts. -/
def shaMaxBytes : Nat := 2 ^ 61 - 1

/-- HW_ID, the ASCII bytes "RPSS" (R19). -/
def hwId : Word := 0x52505353#32

/-- HW_VERSION: MAJOR 1, MINOR 0 (R20). -/
def hwVersion : Word := 0x00010000#32

/-- PARAMS: MSG_BUF_BYTES in [31:16] and K_MAX in [15:0] (R46). -/
def params : Word := BitVec.ofNat 16 msgBufBytes ++ BitVec.ofNat 16 kMax

/-- The size of the window of byte offsets (R8, R57). -/
def windowBytes : Nat := 0x1000

/-- BASE_ADDR, OPEN: the platform address of offset 0x000 (R7, D2; log entry 9). -/
opaque baseAddr : Nat

/-- A FREE VALUE: word `i` of what `Hc` holds after the `n`-th SHA_FINAL, where R97 says it has no meaning
(I14; log entry 8). -/
opaque freeHashWord : Nat → Nat → Word

/-- A FREE VALUE: what `BLK` holds after the `n`-th SHA_FINAL, where R97 says it has no meaning (I14; log
entry 8). R53's bound of 63 bytes is kept where it is used. -/
opaque freeBlk : Nat → List Byte

end Sys2Proof.Config
end

