-- ==== Sys2Proof/Machine/State.lean ====
section
/-! DEFINITION. The state of the engine (10_state.md R15), as plain data, and its reset (70_reset_and_hazards.md
R149). The types of the host's transactions and of the order of events stand here too, since State holds them. -/

namespace Sys2Proof.Machine

/-- Why the machine stops with a fault. There is NO such reason: the engine "never stalls or hangs" (R130), takes
no trap (R138), and a BusError is an answer to the host that changes nothing and stops nothing (R63, R140). The
type is empty, so no step can raise one (safe: nothing is stopped that goes on). -/
inductive Fault : Type
deriving DecidableEq, Repr

/-- Why an instruction has no meaning in the model. -/
inductive Refusal where
  /-- Raised by exec alone, for an instruction not modelled yet. Safe. No arm raises it: every command of R80 has
  its meaning. -/
  | notModelled (mnemonic : String)
deriving DecidableEq, Repr

/-- SHA_STATE (R26). The value 3 is never produced, so it has no constructor (I13). -/
inductive ShaState where
  | idle
  | active
  | final
deriving DecidableEq, Repr

/-- ERR_CODE (R132). Codes 9 to 15 are never produced, so they have no constructor (I12). -/
inductive ErrCode where
  | none
  | param
  | invalidKey
  | misuse
  | malformedSig
  | badCmd
  | len
  | range
  | lenOvf
deriving DecidableEq, Repr

/-- Eight 32-bit words: the chaining words `Hc[0..7]`, or the working variables a to h of a compression (R53,
R91). -/
structure HashWords where
  h0 : Word
  h1 : Word
  h2 : Word
  h3 : Word
  h4 : Word
  h5 : Word
  h6 : Word
  h7 : Word
deriving DecidableEq, Repr

/-- The seven buffers of R49. -/
inductive Buf where
  | msg
  | digest
  | salt
  | n
  | exp
  | a
  | r
deriving DecidableEq, Repr

/-- The registers of R18. -/
inductive Reg where
  | id
  | version
  | ctrl
  | status
  | cmd
  | intStatus
  | intEn
  | slen
  | nLen
  | expLen
  | modBits
  | emLen
  | shaLenLo
  | shaLenHi
  | params
deriving DecidableEq, Repr

/-- Where a host transaction goes: an offset inside the engine's window (R8: a 12-bit byte offset), or a platform
address that the platform's decoder still has to place (R58, R63, R70). -/
inductive Target where
  | window (off : BitVec 12)
  | platform (addr : Nat)
deriving DecidableEq, Repr

/-- A host bus transaction: `width` in bits, and for a write its byte strobes and its value (R61, R63). -/
inductive Access where
  | read (t : Target) (width : Nat)
  | write (t : Target) (width : Nat) (strobes : BitVec 4) (v : Word)
deriving DecidableEq, Repr

/-- One event of the single total order of R72: a host access, a hardware reset (R150), or the engine taking its
completion step, if it is enabled (R130). -/
inductive Event where
  | bus (acc : Access)
  | hwReset
  | engine
deriving DecidableEq, Repr

/-- What the host got from its last transaction. -/
inductive Response where
  /-- No transaction yet. -/
  | noAccess
  /-- A write that the engine took, ignored or dropped: none of these is a bus error (R64, R67). -/
  | ack
  /-- A read's value. -/
  | data (v : Word)
  /-- BusError, with no value (R63). -/
  | busError
  /-- The address is outside the window: the platform answers, and the engine sees nothing (R63, I5). -/
  | notSelected
deriving DecidableEq, Repr

/-- The engine's state (R15), then the model's own fields `agenda`, `resp` and `free`. The seven buffers are one
list of cells keyed by byte offset in the window, in canonical form (Memory.wf in Machine/Ops.lean). -/
structure State where
  /-- SLEN[15:0], R34. -/
  slen : BitVec 16
  /-- N_LEN[15:0], R36. -/
  nLen : BitVec 16
  /-- EXP_LEN[15:0], R38. -/
  expLen : BitVec 16
  /-- MOD_BITS[12:0], R40. -/
  modBits : BitVec 13
  /-- STATUS.KEY_VALID, R24. -/
  keyValid : Bool
  /-- STATUS.RESULT, R23. -/
  result : Bool
  /-- STATUS.SHA_STATE, R26. -/
  shaState : ShaState
  /-- STATUS.ERR_CODE, R27. -/
  errCode : ErrCode
  /-- INT_STATUS[2:0]: OVR, ERR, DONE, R31. -/
  intStatus : BitVec 3
  /-- INT_EN[2:0], R32. -/
  intEn : BitVec 3
  /-- STATUS.BUSY, R22. -/
  busy : Bool
  /-- CMD_PEND, R55. -/
  cmdPend : Word
  /-- The buffers, R49. -/
  mem : List Host.Cell
  /-- Hc[0..7], R53. -/
  hc : HashWords
  /-- BLK, R53. -/
  blk : List Byte
  /-- TOTAL, R53. -/
  total : BitVec 61
  /-- The model's own: the events still to come, in their order (R72, R130; log entry 1). -/
  agenda : List Event
  /-- The model's own: the answer to the host's last transaction (log entry 6). -/
  resp : Response
  /-- The model's own: numbers the free values (log entry 8). -/
  free : Nat
deriving DecidableEq, Repr

/-- R149. CMD_PEND has no meaning there and is 0 (log entry 7); the last three fields are the model's own (log
entries 1, 6 and 8). -/
def State.reset : State where
  slen := Config.slenReset
  nLen := 0#16
  expLen := 0#16
  modBits := 0#13
  keyValid := false
  result := false
  shaState := .idle
  errCode := .none
  intStatus := 0#3
  intEn := 0#3
  busy := false
  cmdPend := 0#32
  mem := []
  hc := ⟨0#32, 0#32, 0#32, 0#32, 0#32, 0#32, 0#32, 0#32⟩
  blk := []
  total := 0#61
  agenda := []
  resp := .noAccess
  free := 0

end Sys2Proof.Machine
end

