-- ==== Sys2Proof/Machine/Flags.lean ====
section
/-! DEFINITION. The flags of 10_state.md R47: the STATUS word, the interrupt bits and the interrupt output. -/

namespace Sys2Proof.Machine

/-- INT_STATUS bit 0, DONE (R31). -/
def doneBit : BitVec 3 := 0b001#3

/-- INT_STATUS bit 1, ERR (R31). -/
def errBit : BitVec 3 := 0b010#3

/-- INT_STATUS bit 2, OVR (R31). -/
def ovrBit : BitVec 3 := 0b100#3

/-- R132's code numbers. -/
def errNumber (e : ErrCode) : BitVec 4 :=
  match e with
  | .none => 0#4
  | .param => 1#4
  | .invalidKey => 2#4
  | .misuse => 3#4
  | .malformedSig => 4#4
  | .badCmd => 5#4
  | .len => 6#4
  | .range => 7#4
  | .lenOvf => 8#4

/-- R26's encoding of SHA_STATE. -/
def shaNumber (x : ShaState) : BitVec 2 :=
  match x with
  | .idle => 0#2
  | .active => 1#2
  | .final => 2#2

/-- The STATUS word: [31:12] reserved, [11:8] ERR_CODE, [7:6] reserved, [5:4] SHA_STATE, 3 reserved, 2 KEY_VALID,
1 RESULT, 0 BUSY (R22 to R27). -/
def statusWord (s : State) : Word :=
  0#20 ++ errNumber s.errCode ++ 0#2 ++ shaNumber s.shaState ++ 0#1 ++ BitVec.ofBool s.keyValid ++
    BitVec.ofBool s.result ++ BitVec.ofBool s.busy

/-- R30: the level-sensitive interrupt output. -/
def irq (s : State) : Bool := s.intStatus &&& s.intEn != 0#3

/-- The bits a completion with code `e` sets: DONE always, ERR when `e` is an error (R130, R141). -/
def completionBits (e : ErrCode) : BitVec 3 :=
  match e with
  | .none => doneBit
  | _ => doneBit ||| errBit

/-- W1C: a 1 clears its bit, a 0 leaves it (R31). -/
def clearInts (st : BitVec 3) (v : Word) : BitVec 3 := st &&& ~~~(v.extractLsb' 0 3)

end Sys2Proof.Machine
end

