-- ==== Sys2Proof/Machine/Ops.lean ====
section
/-! DEFINITION. The shared operations: byte strings and integers (00_scope.md R9, R10), the buffer memory, taking
an error or completing (60_exceptions.md R130, the one shared operation that ends every command), a dropped write
(20_memory.md R67), acceptance (R129) and reset (70_reset_and_hazards.md R150). The engine has no return from an
error (R138, R142): the host's acknowledgement is `clearInts` in Flags.lean. -/

namespace Sys2Proof.Machine

/-! ### Byte strings and integers -/

/-- R10: a byte string read as a big-endian unsigned integer; the empty string is 0. -/
def os2ip (bs : List Byte) : Nat := bs.foldl (fun acc b => acc * 256 + b.toNat) 0

/-- R10: `x` as the `len`-byte big-endian string, for x below 256^len. -/
def i2osp (x len : Nat) : List Byte := (List.range len).map fun i => BitVec.ofNat 8 (x / 256 ^ (len - 1 - i))

/-- R9: `0x00*n`. -/
def zeroBytes (n : Nat) : List Byte := List.replicate n 0#8

/-- R9: byte-wise XOR of two byte strings of equal length. -/
def xorBytes (x y : List Byte) : List Byte := List.zipWith (· ^^^ ·) x y

/-- A 32-bit word as its four big-endian bytes (R59, R92). -/
def wordBytes (v : Word) : List Byte :=
  [v.extractLsb' 24 8, v.extractLsb' 16 8, v.extractLsb' 8 8, v.extractLsb' 0 8]

/-- Four big-endian bytes as a 32-bit word (R59, R91). -/
def bytesWord (bs : List Byte) : Word := BitVec.ofNat 32 (os2ip bs)

/-! ### Memory: the bytes of the buffers, keyed by window offset -/

/-- A list of cells, addresses strictly rising, no cell equal to what an unlisted address reads as. -/
abbrev Memory := List Host.Cell

/-- What an unlisted buffer byte reads as: R149, every byte resets to 0x00. -/
def unlistedByte : Byte := 0#8

/-- The canonical form: equal memories are equal lists. -/
abbrev Memory.wf (m : Memory) : Prop :=
  m.Pairwise (fun c d => c.1 < d.1) ∧ ∀ c ∈ m, c.2 ≠ unlistedByte

/-- One byte. -/
def Memory.read (m : Memory) (a : Nat) : Byte :=
  match m with
  | [] => unlistedByte
  | c :: rest => if c.1 = a then c.2 else Memory.read rest a

/-- Write one byte and keep the canonical form: writing the unlisted value removes the cell. -/
def Memory.write (m : Memory) (a : Nat) (v : Byte) : Memory :=
  match m with
  | [] => if v = unlistedByte then [] else [(a, v)]
  | c :: rest =>
    if c.1 < a then c :: Memory.write rest a v
    else if c.1 = a then (if v = unlistedByte then rest else (a, v) :: rest)
    else (if v = unlistedByte then c :: rest else (a, v) :: c :: rest)

/-- The `len` bytes from `a` up, first byte first. -/
def Memory.readBytes (m : Memory) (a len : Nat) : List Byte := (List.range len).map fun i => m.read (a + i)

/-- Write a byte string from `a` up, first byte at `a`. -/
def Memory.writeBytes (m : Memory) (a : Nat) (bs : List Byte) : Memory :=
  match bs with
  | [] => m
  | b :: rest => Memory.writeBytes (m.write a b) (a + 1) rest

/-- Set the `len` bytes from `a` up to 0x00. -/
def Memory.zero (m : Memory) (a len : Nat) : Memory := m.filter fun c => !(decide (a ≤ c.1) && decide (c.1 < a + len))

/-! ### Completion, errors, the busy protocol and reset -/

/-- R130, R131: `complete(E)` and `raise E`. The four updates that end every command: ERR_CODE, BUSY, DONE, and
ERR for an error. What the command wrote before stays. -/
def complete (e : ErrCode) (s : State) : State :=
  { s with errCode := e, busy := false, intStatus := s.intStatus ||| completionBits e }

/-- The outcome of a command that ends with code `e` (R130). -/
def finish (e : ErrCode) (s : State) : Host.Outcome State Fault Refusal := .next (complete e s)

/-- R129: the word is pending and the engine is busy; nothing else changes. -/
def accept (v : Word) (s : State) : State := { s with cmdPend := v, busy := true }

/-- R67: a write dropped because BUSY = 1 sets OVR and changes nothing else. -/
def dropWrite (s : State) : State := { s with intStatus := s.intStatus ||| ovrBit }

/-- R37, R51: KEY_VALID and MOD_BITS are cleared. -/
def dropKey (s : State) : State := { s with keyValid := false, modBits := 0#13 }

/-- R149, R150: every piece of the engine's state at its reset value. The fields that are the model's own (events
to come, the host's last answer, the count of free values) are not the engine's and stay (log entry 6). -/
def resetEngine (s : State) : State :=
  { State.reset with agenda := s.agenda, resp := s.resp, free := s.free }

end Sys2Proof.Machine
end

