-- ==== Sys2Proof/Machine/Operands.lean ====
section
/-! DEFINITION. Where operands live: the address map of the window (10_state.md R18, R49; 20_memory.md R63), the
buffers as byte strings, and the implicit operands of the commands (30_encoding.md R79). -/

namespace Sys2Proof.Machine

/-! ### The address map -/

/-- The first offset of a buffer (R49). -/
def Buf.base (b : Buf) : Nat :=
  match b with
  | .msg => 0x100
  | .digest => 0x200
  | .salt => 0x400
  | .n => 0x800
  | .exp => 0xA00
  | .a => 0xC00
  | .r => 0xE00

/-- The bytes of a buffer (R49). -/
def Buf.size (b : Buf) : Nat :=
  match b with
  | .msg => Config.msgBufBytes
  | .digest => Config.hLen
  | .salt => Config.saltBufBytes
  | .n => Config.kMax
  | .exp => Config.kMax
  | .a => Config.kMax
  | .r => Config.kMax

/-- The seven buffers, in address order. -/
def allBufs : List Buf := [.msg, .digest, .salt, .n, .exp, .a, .r]

/-- Is the offset one of the buffer's bytes? -/
def Buf.covers (b : Buf) (off : Nat) : Bool := decide (b.base ≤ off) && decide (off < b.base + b.size)

/-- The buffer that covers an offset; no two share a byte (R52). -/
def bufAt (off : Nat) : Option Buf := allBufs.find? fun b => b.covers off

/-- The register at a word offset (R18). -/
def regAt (off : Nat) : Option Reg :=
  match off with
  | 0x000 => some .id
  | 0x004 => some .version
  | 0x008 => some .ctrl
  | 0x00C => some .status
  | 0x010 => some .cmd
  | 0x014 => some .intStatus
  | 0x018 => some .intEn
  | 0x01C => some .slen
  | 0x020 => some .nLen
  | 0x024 => some .expLen
  | 0x028 => some .modBits
  | 0x02C => some .emLen
  | 0x030 => some .shaLenLo
  | 0x034 => some .shaLenHi
  | 0x038 => some .params
  | _ => none

/-- R63, condition 3: the offset is in a reserved range. -/
def reservedOffset (off : Nat) : Bool :=
  (decide (0x03C ≤ off) && decide (off ≤ 0x0FF)) || (decide (0x220 ≤ off) && decide (off ≤ 0x3FF)) ||
    (decide (0x600 ≤ off) && decide (off ≤ 0x7FF))

/-- The window offset of a transaction, or none where the platform's decoder does not select the engine: the
effective address is BASE_ADDR + offset (R58, R63, R70). -/
def windowOffset (t : Target) : Option Nat :=
  match t with
  | .window off => some off.toNat
  | .platform addr =>
    if Config.baseAddr ≤ addr ∧ addr < Config.baseAddr + Config.windowBytes then some (addr - Config.baseAddr)
    else none

/-! ### Buffers as byte strings -/

/-- `BUF[0..len)` (R11). -/
def bufBytes (s : State) (b : Buf) (len : Nat) : List Byte := Memory.readBytes s.mem b.base len

/-- `BUF[0..len(bs)) <- bs` (R11, R50: no other byte changes). -/
def putBuf (b : Buf) (bs : List Byte) (s : State) : State := { s with mem := Memory.writeBytes s.mem b.base bs }

/-- The 32-bit word of a buffer at window offset `off`, big-endian (R59). -/
def bufWord (s : State) (off : Nat) : Word := bytesWord (Memory.readBytes s.mem off 4)

/-- Write the 32-bit word of a buffer at window offset `off`, big-endian (R59). -/
def putWord (off : Nat) (v : Word) (s : State) : State :=
  { s with mem := Memory.writeBytes s.mem off (wordBytes v) }

/-! ### The implicit operands of the commands -/

/-- mHash = DIGEST_BUF[0..32) (R105, R119). -/
def mHash (s : State) : List Byte := bufBytes s .digest Config.hLen

/-- sLen (R34). -/
def sLen (s : State) : Nat := s.slen.toNat

/-- k, the modulus length in bytes (R13, R36). -/
def keyLen (s : State) : Nat := s.nLen.toNat

/-- n = OS2IP(N_BUF[0..k)) (R110, R114). -/
def modulus (s : State) : Nat := os2ip (bufBytes s .n (keyLen s))

/-- The exponent y = OS2IP(EXP_BUF[0..EXP_LEN)) (R111). -/
def exponent (s : State) : Nat := os2ip (bufBytes s .exp s.expLen.toNat)

/-- salt = SALT_BUF[0..SLEN) (R105, R119). -/
def saltBytes (s : State) : List Byte := bufBytes s .salt (sLen s)

/-- emBits = modBits - 1 (R102). -/
def emBits (modBits : Nat) : Nat := modBits - 1

/-- emLen = ceil(emBits / 8) (R42, R102). -/
def emLen (modBits : Nat) : Nat := (emBits modBits + 7) / 8

/-- zb = 8*emLen - emBits: the leftmost bits of EM's first byte that must be zero (R102). -/
def zeroBits (modBits : Nat) : Nat := 8 * emLen modBits - emBits modBits

/-- modBits of the loaded key (R40). -/
def keyBits (s : State) : Nat := s.modBits.toNat

/-- R103: the key is too small for the salt length. -/
def saltTooLong (modBits saltLen : Nat) : Bool := decide (emLen modBits < Config.hLen + saltLen + 2)

/-- R42: what EM_LEN reads. -/
def emLenReg (s : State) : Nat := if s.keyValid then emLen (keyBits s) else 0

end Sys2Proof.Machine
end

