-- ==== Sys2Proof/Machine/Bus.lean ====
section
/-! DEFINITION. The host's bus transactions (20_memory.md R57 to R69; 10_state.md R18 to R51). -/

namespace Sys2Proof.Machine

/-- R63: a read raises BusError when its offset is misaligned, its width is not 32 bits, or its offset is reserved. -/
def readFaults (off width : Nat) : Bool := decide (off % 4 ≠ 0) || decide (width ≠ 32) || reservedOffset off

/-- R63: as a read, and also when not all four byte strobes are set. -/
def writeFaults (off width : Nat) (strobes : BitVec 4) : Bool := readFaults off width || strobes != 0b1111#4

/-- What a register reads; reserved bits read 0, and CTRL and CMD read 0 (R18 to R46). -/
def readReg (s : State) (r : Reg) : Word :=
  match r with
  | .id => Config.hwId
  | .version => Config.hwVersion
  | .ctrl => 0#32
  | .status => statusWord s
  | .cmd => 0#32
  | .intStatus => s.intStatus.setWidth 32
  | .intEn => s.intEn.setWidth 32
  | .slen => s.slen.setWidth 32
  | .nLen => s.nLen.setWidth 32
  | .expLen => s.expLen.setWidth 32
  | .modBits => s.modBits.setWidth 32
  | .emLen => BitVec.ofNat 32 (emLenReg s)
  | .shaLenLo => s.total.extractLsb' 0 32
  | .shaLenHi => (s.total.extractLsb' 32 29).setWidth 32
  | .params => Config.params

/-- The value of a read without BusError: registers at any time, buffer words 0 while BUSY = 1 (R65, R68). -/
def readValue (s : State) (off : Nat) : Word :=
  match regAt off with
  | some r => readReg s r
  | none => if s.busy then 0#32 else bufWord s off

/-- A register write that takes effect. Read-only registers ignore it (R64); CTRL.SRST resets (R21); CMD accepts
(R129); INT_STATUS is W1C (R31); N_LEN drops the key (R37); reserved bits are not stored (R18). -/
def writeReg (r : Reg) (v : Word) (s : State) : State :=
  match r with
  | .id => s
  | .version => s
  | .ctrl => if v.getLsbD 0 then resetEngine s else s
  | .status => s
  | .cmd => accept v s
  | .intStatus => { s with intStatus := clearInts s.intStatus v }
  | .intEn => { s with intEn := v.extractLsb' 0 3 }
  | .slen => { s with slen := v.extractLsb' 0 16 }
  | .nLen => dropKey { s with nLen := v.extractLsb' 0 16 }
  | .expLen => { s with expLen := v.extractLsb' 0 16 }
  | .modBits => s
  | .emLen => s
  | .shaLenLo => s
  | .shaLenHi => s
  | .params => s

/-- A buffer write that takes effect; any word of N_BUF drops the key (R51, R59). -/
def writeBufWord (off : Nat) (v : Word) (s : State) : State :=
  if bufAt off = some .n then dropKey (putWord off v s) else putWord off v s

/-- R67: CTRL, INT_STATUS and INT_EN are never dropped. -/
def neverDropped (off : Nat) : Bool := off == 0x008 || off == 0x014 || off == 0x018

/-- The effect of a write without BusError (R64, R66, R67). -/
def writeEffect (off : Nat) (v : Word) (s : State) : State :=
  if s.busy && !neverDropped off then dropWrite s
  else match regAt off with
    | some r => writeReg r v s
    | none => writeBufWord off v s

/-- BusRead(off): no side effect (R65). -/
def busRead (off width : Nat) (s : State) : State :=
  { s with resp := if readFaults off width then .busError else .data (readValue s off) }

/-- BusWrite(off, v). -/
def busWrite (off width : Nat) (strobes : BitVec 4) (v : Word) (s : State) : State :=
  if writeFaults off width strobes then { s with resp := .busError }
  else { writeEffect off v s with resp := .ack }

/-- One host transaction. Outside the window the platform answers and the engine sees nothing (R63, I5). -/
def busAccess (acc : Access) (s : State) : State :=
  match acc with
  | .read t width =>
    match windowOffset t with
    | some off => busRead off width s
    | none => { s with resp := .notSelected }
  | .write t width strobes v =>
    match windowOffset t with
    | some off => busWrite off width strobes v s
    | none => { s with resp := .notSelected }

end Sys2Proof.Machine
end

