-- ==== Sys2Proof/Machine/Hash.lean ====
section
/-! DEFINITION. The SHA-256 function of 40_sha256.md R86 to R93. The host context (R95 to R97) and the internal
instance of 10_state.md R54 use the same functions (R93); the internal instance holds no state. -/

namespace Sys2Proof.Machine

/-- R87: the initial hash value H0. -/
def hashInit : HashWords :=
  ⟨0x6a09e667#32, 0xbb67ae85#32, 0x3c6ef372#32, 0xa54ff53a#32, 0x510e527f#32, 0x9b05688c#32, 0x1f83d9ab#32,
    0x5be0cd19#32⟩

/-- R88: the round constants K, one row of the rule's table a line. -/
def roundConstants : List Word :=
  [0x428a2f98#32, 0x71374491#32, 0xb5c0fbcf#32, 0xe9b5dba5#32, 0x3956c25b#32, 0x59f111f1#32, 0x923f82a4#32, 0xab1c5ed5#32] ++
  [0xd807aa98#32, 0x12835b01#32, 0x243185be#32, 0x550c7dc3#32, 0x72be5d74#32, 0x80deb1fe#32, 0x9bdc06a7#32, 0xc19bf174#32] ++
  [0xe49b69c1#32, 0xefbe4786#32, 0x0fc19dc6#32, 0x240ca1cc#32, 0x2de92c6f#32, 0x4a7484aa#32, 0x5cb0a9dc#32, 0x76f988da#32] ++
  [0x983e5152#32, 0xa831c66d#32, 0xb00327c8#32, 0xbf597fc7#32, 0xc6e00bf3#32, 0xd5a79147#32, 0x06ca6351#32, 0x14292967#32] ++
  [0x27b70a85#32, 0x2e1b2138#32, 0x4d2c6dfc#32, 0x53380d13#32, 0x650a7354#32, 0x766a0abb#32, 0x81c2c92e#32, 0x92722c85#32] ++
  [0xa2bfe8a1#32, 0xa81a664b#32, 0xc24b8b70#32, 0xc76c51a3#32, 0xd192e819#32, 0xd6990624#32, 0xf40e3585#32, 0x106aa070#32] ++
  [0x19a4c116#32, 0x1e376c08#32, 0x2748774c#32, 0x34b0bcb5#32, 0x391c0cb3#32, 0x4ed8aa4a#32, 0x5b9cca4f#32, 0x682e6ff3#32] ++
  [0x748f82ee#32, 0x78a5636f#32, 0x84c87814#32, 0x8cc70208#32, 0x90befffa#32, 0xa4506ceb#32, 0xbef9a3f7#32, 0xc67178f2#32]

/-! ### R89: the word functions -/

/-- ROTR_n, for n from 1 to 31. -/
def rotr (n : Nat) (x : Word) : Word := (x >>> n) ||| (x <<< (32 - n))

/-- Ch(x, y, z). -/
def chWord (x y z : Word) : Word := (x &&& y) ^^^ (~~~x &&& z)

/-- Maj(x, y, z). -/
def majWord (x y z : Word) : Word := (x &&& y) ^^^ (x &&& z) ^^^ (y &&& z)

/-- Sigma0. -/
def bigSigma0 (x : Word) : Word := rotr 2 x ^^^ rotr 13 x ^^^ rotr 22 x

/-- Sigma1. -/
def bigSigma1 (x : Word) : Word := rotr 6 x ^^^ rotr 11 x ^^^ rotr 25 x

/-- sigma0. -/
def smallSigma0 (x : Word) : Word := rotr 7 x ^^^ rotr 18 x ^^^ (x >>> 3)

/-- sigma1. -/
def smallSigma1 (x : Word) : Word := rotr 17 x ^^^ rotr 19 x ^^^ (x >>> 10)

/-! ### R91: the compression -/

/-- The first `n` big-endian words of a block: W[0..16) for n = 16. -/
def blockWords (n : Nat) (block : List Byte) : List Word :=
  match n with
  | 0 => []
  | n + 1 => bytesWord (block.take 4) :: blockWords n (block.drop 4)

/-- Extend the schedule by `n` words. `ws` is newest first, so W[t-2], W[t-7], W[t-15] and W[t-16] are its entries
1, 6, 14 and 15. -/
def extendSchedule (n : Nat) (ws : List Word) : List Word :=
  match n with
  | 0 => ws
  | n + 1 =>
    extendSchedule n
      ((smallSigma1 (ws.getD 1 0#32) + ws.getD 6 0#32 + smallSigma0 (ws.getD 14 0#32) + ws.getD 15 0#32) :: ws)

/-- W[0..64), oldest first. -/
def schedule (block : List Byte) : List Word := (extendSchedule 48 (blockWords 16 block).reverse).reverse

/-- One round: `kw` is (K[t], W[t]); h0 to h7 are a to h. -/
def shaRound (v : HashWords) (kw : Word × Word) : HashWords :=
  let t1 := v.h7 + bigSigma1 v.h4 + chWord v.h4 v.h5 v.h6 + kw.1 + kw.2
  let t2 := bigSigma0 v.h0 + majWord v.h0 v.h1 v.h2
  ⟨t1 + t2, v.h0, v.h1, v.h2, v.h3 + t1, v.h4, v.h5, v.h6⟩

/-- The word-wise sum modulo 2^32 that ends a compression. -/
def addHash (x y : HashWords) : HashWords :=
  ⟨x.h0 + y.h0, x.h1 + y.h1, x.h2 + y.h2, x.h3 + y.h3, x.h4 + y.h4, x.h5 + y.h5, x.h6 + y.h6, x.h7 + y.h7⟩

/-- `compress(Hin, B)`. -/
def compress (h : HashWords) (block : List Byte) : HashWords :=
  addHash h ((roundConstants.zip (schedule block)).foldl shaRound h)

/-! ### R90, R92: padding and digest -/

/-- R96's loop: compress whole 64-byte blocks from the front of `bs`, at most `fuel` of them; answer the chaining
words and the bytes left. -/
def absorbFuel (fuel : Nat) (h : HashWords) (bs : List Byte) : HashWords × List Byte :=
  match fuel with
  | 0 => (h, bs)
  | fuel + 1 => if 64 ≤ bs.length then absorbFuel fuel (compress h (bs.take 64)) (bs.drop 64) else (h, bs)

/-- R96's loop on all of `bs`: it leaves fewer than 64 bytes. -/
def absorb (h : HashWords) (bs : List Byte) : HashWords × List Byte := absorbFuel (bs.length / 64) h bs

/-- What padding adds to a message of `l` bytes: 0x80, then (55 - l) mod 64 zeros, then the length in bits (R90). -/
def padTail (l : Nat) : List Byte := 0x80#8 :: (zeroBytes ((119 - l % 64) % 64) ++ i2osp (8 * l) 8)

/-- pad(M). -/
def pad (m : List Byte) : List Byte := m ++ padTail m.length

/-- The eight words as 32 big-endian bytes (R92). -/
def hashBytes (h : HashWords) : List Byte :=
  wordBytes h.h0 ++ wordBytes h.h1 ++ wordBytes h.h2 ++ wordBytes h.h3 ++ wordBytes h.h4 ++ wordBytes h.h5 ++
    wordBytes h.h6 ++ wordBytes h.h7

/-- SHA256(M) (R92). -/
def sha256 (m : List Byte) : List Byte := hashBytes (absorb hashInit (pad m)).1

end Sys2Proof.Machine
end

