-- ==== Sys2Proof/Machine/PssCode.lean ====
section
/-! DEFINITION. The byte-string functions of the PSS unit and of the comparator: MGF1 (41_pss.md R100), PSS_ENC
(R104), PSS_CHECK (R106) and CT_EQ (43_compare.md R116). -/

namespace Sys2Proof.Machine

/-- R100: MGF1(seed, L), with a 4-byte big-endian counter from 0. -/
def mgf1 (seed : List Byte) (len : Nat) : List Byte :=
  ((List.range ((len + 31) / 32)).flatMap fun c => sha256 (seed ++ i2osp c 4)).take len

/-- R116: CT_EQ(x, y, L): OR of the XORs of all L byte pairs, then a test for zero. -/
def ctEq (x y : List Byte) (len : Nat) : Bool :=
  (xorBytes (x.take len) (y.take len)).foldl (· ||| ·) 0#8 == 0#8

/-- R102: 0xFF >> zb. -/
def topMask (zb : Nat) : Byte := 0xFF#8 >>> zb

/-- Clear the `zb` top bits of the first byte (R104 step 6, R106). -/
def clearTop (zb : Nat) (bs : List Byte) : List Byte :=
  match bs with
  | [] => []
  | b :: rest => (b &&& topMask zb) :: rest

/-- R104 step 2 and R106: M' = 0x00*8 || mHash || salt. -/
def mPrime (mHash salt : List Byte) : List Byte := zeroBytes 8 ++ mHash ++ salt

/-- R104 step 4: DB. -/
def pssDb (modBits : Nat) (salt : List Byte) : List Byte :=
  zeroBytes (emLen modBits - salt.length - Config.hLen - 2) ++ 0x01#8 :: salt

/-- R104: PSS_ENC(mHash, modBits, salt). -/
def pssEnc (mHash : List Byte) (modBits : Nat) (salt : List Byte) : List Byte :=
  let h := sha256 (mPrime mHash salt)
  let dbMask := mgf1 h (emLen modBits - Config.hLen - 1)
  clearTop (zeroBits modBits) (xorBytes (pssDb modBits salt) dbMask) ++ h ++ [0xBC#8]

/-- R104, R105: EM as the k-byte integer, `0x00*(k - emLen) || EM`. -/
def pssBlock (mHash : List Byte) (modBits : Nat) (salt : List Byte) (k : Nat) : List Byte :=
  zeroBytes (k - emLen modBits) ++ pssEnc mHash modBits salt

/-- All bytes are 0x00. -/
def allZero (bs : List Byte) : Bool := bs.all fun b => b == 0#8

/-- R106: PSS_CHECK(mHash, modBits, sLen, X) for the k-byte string X. After the length check, every check is
evaluated and all are combined with AND. -/
def pssCheck (mHash : List Byte) (modBits saltLen : Nat) (x : List Byte) : Bool :=
  if saltTooLong modBits saltLen then false
  else
    let eml := emLen modBits
    let zb := zeroBits modBits
    let lead := x.length - eml
    let em := x.drop lead
    let maskedDb := em.take (eml - Config.hLen - 1)
    let h := (em.drop (eml - Config.hLen - 1)).take Config.hLen
    let db := clearTop zb (xorBytes maskedDb (mgf1 h (eml - Config.hLen - 1)))
    let psLen := eml - Config.hLen - saltLen - 2
    let salt := (db.drop (psLen + 1)).take saltLen
    let h' := sha256 (mPrime mHash salt)
    allZero (x.take lead) &&
      (em.getD (eml - 1) 0#8 == 0xBC#8) &&
      (maskedDb.getD 0 0#8 &&& ~~~(topMask zb) == 0#8) &&
      allZero (db.take psLen) &&
      (db.getD psLen 0#8 == 0x01#8) &&
      ctEq h h' Config.hLen

end Sys2Proof.Machine
end

