-- ==== Sys2Proof/Machine/Pss.lean ====
section
/-! DEFINITION. The PSS family: MGF1, PSS_ENCODE and PSS_VERIFY (41_pss.md R101, R105, R108). -/

namespace Sys2Proof.Machine

/-- R101, MGF1: LEN, then R_BUF[0..L) <- MGF1(DIGEST_BUF[0..32), L). -/
def execMgf1 (len : Nat) (s : State) : Host.Outcome State Fault Refusal :=
  if len > Config.kMax then finish .len s
  else finish .none (putBuf .r (mgf1 (mHash s) len) s)

/-- R105 and R119: A_BUF[0..k) <- EM as a k-byte integer. -/
def putEncoded (s : State) : State := putBuf .a (pssBlock (mHash s) (keyBits s) (saltBytes s) (keyLen s)) s

/-- R105, PSS_ENCODE: INVALID_KEY, PARAM, then encode. -/
def execPssEncode (s : State) : Host.Outcome State Fault Refusal :=
  if s.keyValid = false then finish .invalidKey s
  else if saltTooLong (keyBits s) (sLen s) then finish .param s
  else finish .none (putEncoded s)

/-- PSS_CHECK of R_BUF[0..k) with the implicit operands (R108, R120). -/
def checkRecovered (s : State) : Bool := pssCheck (mHash s) (keyBits s) (sLen s) (bufBytes s .r (keyLen s))

/-- RESULT <- b (R23). -/
def setResult (b : Bool) (s : State) : State := { s with result := b }

/-- R108, PSS_VERIFY: RESULT <- 0, INVALID_KEY, then RESULT <- PSS_CHECK. A failed check is no error. -/
def execPssVerify (s : State) : Host.Outcome State Fault Refusal :=
  if s.keyValid = false then finish .invalidKey (setResult false s)
  else finish .none (setResult (checkRecovered s) s)

end Sys2Proof.Machine
end

