-- ==== Sys2Proof/Machine/Compare.lean ====
section
/-! DEFINITION. The comparator: CMP (43_compare.md R117). -/

namespace Sys2Proof.Machine

/-- R117, CMP: RESULT <- 0, LEN, then RESULT <- CT_EQ(A_BUF, R_BUF, L). Inequality is no error. -/
def execCmp (len : Nat) (s : State) : Host.Outcome State Fault Refusal :=
  if len > Config.kMax then finish .len (setResult false s)
  else finish .none (setResult (ctEq (bufBytes s .a len) (bufBytes s .r len) len) s)

end Sys2Proof.Machine
end

