-- ==== Sys2Proof/Machine/Control.lean ====
section
/-! DEFINITION. The control commands: NOP and ZEROIZE (45_control.md R125, R126). -/

namespace Sys2Proof.Machine

/-- R125, NOP. -/
def execNop (s : State) : Host.Outcome State Fault Refusal := finish .none s

/-- Every byte of every buffer set to 0x00 (R126). -/
def zeroBuffers (m : Memory) : Memory := allBufs.foldl (fun acc b => Memory.zero acc b.base b.size) m

/-- R126's assignments; SLEN, N_LEN, EXP_LEN, INT_EN and INT_STATUS are not among them. -/
def eraseAll (s : State) : State :=
  { s with
    mem := zeroBuffers s.mem
    hc := ⟨0#32, 0#32, 0#32, 0#32, 0#32, 0#32, 0#32, 0#32⟩
    blk := []
    total := 0#61
    shaState := .idle
    keyValid := false
    modBits := 0#13
    result := false }

/-- R126, ZEROIZE. -/
def execZeroize (s : State) : Host.Outcome State Fault Refusal := finish .none (eraseAll s)

end Sys2Proof.Machine
end

