-- ==== Sys2Proof/Machine/Modexp.lean ====
section
/-! DEFINITION. The exponentiation family: KEY_LOAD and MODEXP (42_modexp.md R110 to R114). -/

namespace Sys2Proof.Machine

/-- The bit length of n: the least b with n < 2^b (R13, R110). -/
def bitLength (n : Nat) : Nat := if n = 0 then 0 else Nat.log2 n + 1

/-- `a^y mod n` by squaring and multiplying, for an exponent of at most `bits` bits. R113 lets a model compute the
result of R112 by any algorithm (log entry 14). -/
def powMod (a n bits y : Nat) : Nat :=
  match bits with
  | 0 => 1 % n
  | bits + 1 =>
    let r := powMod a n bits (y / 2)
    r * r * (if y % 2 = 1 then a else 1) % n

/-- R112: MODEXP_F(a, y, n) = a^y mod n. Laws/Modexp.lean proves that equation. -/
def modexpF (a y n : Nat) : Nat := powMod a n (bitLength y) y

/-- R110's last two assignments: MOD_BITS and KEY_VALID. -/
def latchKey (s : State) : State :=
  { s with modBits := BitVec.ofNat 13 (bitLength (modulus s)), keyValid := true }

/-- R110, KEY_LOAD: KEY_VALID and MOD_BITS are cleared first; then LEN, INVALID_KEY (leading zero byte), INVALID_KEY
(n even or n = 1), then latched. -/
def execKeyLoad (s : State) : Host.Outcome State Fault Refusal :=
  if keyLen s = 0 ∨ keyLen s > Config.kMax then finish .len (dropKey s)
  else if Memory.read s.mem (Buf.base .n) = 0#8 then finish .invalidKey (dropKey s)
  else if modulus s % 2 = 0 ∨ modulus s = 1 then finish .invalidKey (dropKey s)
  else finish .none (latchKey s)

/-- R111's exponent checks, in order: LEN, then INVALID_KEY; none where the exponent can be used. -/
def exponentError (s : State) : Option ErrCode :=
  if s.expLen.toNat > Config.kMax then some .len
  else if s.keyValid = false ∨ s.expLen = 0#16 then some .invalidKey
  else none

/-- The base a = OS2IP(A_BUF[0..k)) (R114), the signature s (R120), or m (R119). -/
def baseOperand (s : State) : Nat := os2ip (bufBytes s .a (keyLen s))

/-- R_BUF[0..k) <- I2OSP(MODEXP_F(A_BUF[0..k), exponent, n), k) (R114, R119, R120). -/
def putPower (s : State) : State :=
  putBuf .r (i2osp (modexpF (baseOperand s) (exponent s) (modulus s)) (keyLen s)) s

/-- R114, MODEXP: LEN, INVALID_KEY, RANGE, then the power. -/
def execModexp (s : State) : Host.Outcome State Fault Refusal :=
  match exponentError s with
  | some e => finish e s
  | none => if baseOperand s ≥ modulus s then finish .range s else finish .none (putPower s)

end Sys2Proof.Machine
end

