-- ==== Sys2Proof/Machine/Sequenced.lean ====
section
/-! DEFINITION. The sequenced operations: SIGN and VERIFY (44_sequenced.md R119, R120). -/

namespace Sys2Proof.Machine

/-- R119, SIGN: LEN, INVALID_KEY, PARAM; then EM to A_BUF[0..k) and its power to R_BUF[0..k). -/
def execSign (s : State) : Host.Outcome State Fault Refusal :=
  match exponentError s with
  | some e => finish e s
  | none => if saltTooLong (keyBits s) (sLen s) then finish .param s else finish .none (putPower (putEncoded s))

/-- R120's public early outcomes that are false without an error, in order: L ≠ k, the salt-length check, s ≥ n. -/
def verifyEarlyFalse (len : Nat) (s : State) : Bool :=
  decide (len ≠ keyLen s) || saltTooLong (keyBits s) (sLen s) || decide (baseOperand s ≥ modulus s)

/-- R120's last assignments: the power to R_BUF[0..k), then RESULT <- PSS_CHECK of it. -/
def recoverAndCheck (s : State) : State := setResult (checkRecovered (putPower s)) (putPower s)

/-- R120, VERIFY: RESULT <- 0; LEN, INVALID_KEY, MALFORMED_SIG; the early false outcomes; then recover and check. -/
def execVerify (len : Nat) (s : State) : Host.Outcome State Fault Refusal :=
  match exponentError s with
  | some e => finish e (setResult false s)
  | none =>
    if len = 0 then finish .malformedSig (setResult false s)
    else if verifyEarlyFalse len s then finish .none (setResult false s)
    else finish .none (recoverAndCheck s)

end Sys2Proof.Machine
end

