-- ==== Sys2Proof/Machine/Sha.lean ====
section
/-! DEFINITION. The SHA-256 family: SHA_INIT, SHA_UPDATE and SHA_FINAL (40_sha256.md R95 to R97). -/

namespace Sys2Proof.Machine

/-- R95's assignments: a new host context. -/
def startContext (s : State) : State :=
  { s with hc := hashInit, blk := [], total := 0#61, shaState := .active }

/-- R95, SHA_INIT: legal in every SHA_STATE. -/
def execShaInit (s : State) : Host.Outcome State Fault Refusal := finish .none (startContext s)

/-- R96's assignments: `bs` is absorbed into the host context. -/
def absorbMessage (bs : List Byte) (s : State) : State :=
  let r := absorb s.hc (s.blk ++ bs)
  { s with hc := r.1, blk := r.2, total := s.total + BitVec.ofNat 61 bs.length }

/-- R96, SHA_UPDATE: LEN, MISUSE, LEN_OVF, then absorb MSG_BUF[0..L). -/
def execShaUpdate (len : Nat) (s : State) : Host.Outcome State Fault Refusal :=
  if len > Config.msgBufBytes then finish .len s
  else if s.shaState ≠ .active then finish .misuse s
  else if s.total.toNat + len > Config.shaMaxBytes then finish .lenOvf s
  else finish .none (absorbMessage (bufBytes s .msg len) s)

/-- R97's T: what is left of the message, padded for its whole length. -/
def finalBlocks (s : State) : List Byte := s.blk ++ padTail s.total.toNat

/-- R97's Hv after the last block, as the digest. -/
def finalDigest (s : State) : List Byte := hashBytes (absorb s.hc (finalBlocks s)).1

/-- FREE VALUE: the chaining words after the n-th SHA_FINAL (R97: "Hc and BLK have no meaning"; log entry 8). -/
def freeHash (n : Nat) : HashWords :=
  ⟨Config.freeHashWord n 0, Config.freeHashWord n 1, Config.freeHashWord n 2, Config.freeHashWord n 3,
    Config.freeHashWord n 4, Config.freeHashWord n 5, Config.freeHashWord n 6, Config.freeHashWord n 7⟩

/-- After SHA_FINAL, Hc and BLK hold free values, BLK within R53's 63 bytes; TOTAL keeps its value (R97). -/
def closeContext (s : State) : State :=
  { s with shaState := .final, hc := freeHash s.free, blk := (Config.freeBlk s.free).take 63, free := s.free + 1 }

/-- R97, SHA_FINAL: MISUSE outside ACTIVE, else the digest to DIGEST_BUF. -/
def execShaFinal (s : State) : Host.Outcome State Fault Refusal :=
  if s.shaState ≠ .active then finish .misuse s
  else finish .none (closeContext (putBuf .digest (finalDigest s) s))

end Sys2Proof.Machine
end

