-- ==== Sys2Proof/Machine/Dispatch.lean ====
section
/-! DEFINITION. The command's rule and its completion (60_exceptions.md R130): one arm per command of R80. -/

namespace Sys2Proof.Machine

def exec (i : Instr) (s : State) : Host.Outcome State Fault Refusal :=
  match i with
  | .nop => Sys2Proof.Machine.execNop s
  | .shaInit => Sys2Proof.Machine.execShaInit s
  | .shaUpdate len => Sys2Proof.Machine.execShaUpdate len s
  | .shaFinal => Sys2Proof.Machine.execShaFinal s
  | .mgf1 len => Sys2Proof.Machine.execMgf1 len s
  | .pssEncode => Sys2Proof.Machine.execPssEncode s
  | .pssVerify => Sys2Proof.Machine.execPssVerify s
  | .keyLoad => Sys2Proof.Machine.execKeyLoad s
  | .modexp => Sys2Proof.Machine.execModexp s
  | .cmp len => Sys2Proof.Machine.execCmp len s
  | .sign => Sys2Proof.Machine.execSign s
  | .verify len => Sys2Proof.Machine.execVerify len s
  | .zeroize => Sys2Proof.Machine.execZeroize s

end Sys2Proof.Machine
end

