-- ==== Sys2Proof/Machine/Engine.lean ====
section
/-! DEFINITION. The engine's completion step (60_exceptions.md R130) and the events of the total order of
20_memory.md R72. -/

namespace Sys2Proof.Machine

/-- R130, while BUSY = 1: a word that does not decode completes with BAD_CMD and does nothing else (R82); any other
runs its command. -/
def completionStep (s : State) : Host.Outcome State Fault Refusal :=
  match decode s.cmdPend with
  | .ok i => exec i s
  | .error _ => finish .badCmd s

/-- The engine's turn: its completion step while BUSY = 1, and no step while BUSY = 0 (R14; log entry 3). -/
def engineTurn (s : State) : Host.Outcome State Fault Refusal := if s.busy then completionStep s else .next s

/-- One event. -/
def runEvent (e : Event) (s : State) : Host.Outcome State Fault Refusal :=
  match e with
  | .bus acc => .next (busAccess acc s)
  | .hwReset => .next (resetEngine s)
  | .engine => engineTurn s

/-- Put a command word where the engine's very next turn runs it: pending, with BUSY = 1, and the engine's turn the
next event (log entry 4). -/
def placeCommand (v : Word) (s : State) : State :=
  { accept v s with agenda := .engine :: s.agenda }

end Sys2Proof.Machine
end

