-- ==== Sys2Proof/Machine/Step.lean ====
section
/-! DEFINITION. One step of the machine: the next event of the agenda; with an empty agenda, the engine's turn, so
that an accepted command always completes (R73, R130; log entries 1 and 2). -/

namespace Sys2Proof.Machine

/-- One step. -/
def step (s : State) : Host.Outcome State Fault Refusal :=
  match s.agenda with
  | [] => engineTurn s
  | e :: rest => runEvent e { s with agenda := rest }

/-- The command word of `nbits` bits that is `w`, placed where the very next step runs it (log entry 4). -/
def State.withFetchWord (s : State) (nbits w : Nat) : State := placeCommand (tableWord nbits w) s

end Sys2Proof.Machine
end

