-- ==== Sys2Proof/Machine/Script.lean ====
section
/-! DEFINITION. The host-script syntax of 30_encoding.md R84 and R85: a program is a list of lines, each a list of
events that a host issues from the state it finds, and what a run of the program reads. -/

namespace Sys2Proof.Machine

/-- One line of a host script (R84). -/
inductive ScriptLine where
  | wr (off : BitVec 12) (v : Word)
  | rd (off : BitVec 12)
  /-- `RD off -> val`: a read of which the rules give the value. -/
  | rdIs (off : BitVec 12) (v : Word)
  /-- `CMD MNEMONIC` or `CMD MNEMONIC, L`. -/
  | cmd (mnemonic : String) (len : Option Nat)
  /-- `POLL`, with the number of reads that come before the engine's turn, where a command is pending (log entry 13). -/
  | poll (busyReads : Nat)
  | wrBuf (b : Buf) (bs : List Byte)
  | rdBuf (b : Buf) (len : Nat)
  | srst
  | clrInt
deriving DecidableEq, Repr

/-- Where the transaction of a script line goes. DESIGN CHOICE (log entry 13): R84 bounds neither the bytes of WRBUF nor
those of RDBUF, so a long line runs past its buffer, and past 0xFFF it leaves the window, at the platform address
BASE_ADDR + offset (R58), where the engine sees nothing (R63, I5). -/
def scriptTarget (off : Nat) : Target :=
  if off < Config.windowBytes then .window (BitVec.ofNat 12 off) else .platform (Config.baseAddr + off)

/-- One BusRead of 32 bits at an offset of a script line (scriptTarget says what an offset past the window is). -/
def readEvent (off : Nat) : Event := .bus (.read (scriptTarget off) 32)

/-- One BusWrite of 32 bits with every strobe set, at an offset of a script line (scriptTarget says what an offset past
the window is). -/
def writeEvent (off : Nat) (v : Word) : Event := .bus (.write (scriptTarget off) 32 0b1111#4 v)

/-- The command a mnemonic and its L name, or none where R85 refuses the line. -/
def scriptInstr (mnemonic : String) (len : Option Nat) : Option Instr :=
  match mnemonic, len with
  | "NOP", none => some .nop
  | "SHA_INIT", none => some .shaInit
  | "SHA_UPDATE", l => some (.shaUpdate (l.getD 0))
  | "SHA_FINAL", none => some .shaFinal
  | "MGF1", l => some (.mgf1 (l.getD 0))
  | "PSS_ENCODE", none => some .pssEncode
  | "PSS_VERIFY", none => some .pssVerify
  | "KEY_LOAD", none => some .keyLoad
  | "MODEXP", none => some .modexp
  | "CMP", l => some (.cmp (l.getD 0))
  | "SIGN", none => some .sign
  | "VERIFY", l => some (.verify (l.getD 0))
  | "ZEROIZE", none => some .zeroize
  | _, _ => none

/-- The words `WRBUF` writes: four bytes each, missing bytes past the end taken as 0x00. -/
def scriptWords (n : Nat) (bs : List Byte) : List Word :=
  match n with
  | 0 => []
  | n + 1 => bytesWord ((bs ++ zeroBytes 3).take 4) :: scriptWords n (bs.drop 4)

/-- `POLL`: STATUS is read until bit 0 (BUSY) reads 0. While a command is pending, `busyReads` reads see BUSY = 1, then
the engine's step comes, and the next read sees 0; with none pending the first read sees 0 (R84; log entry 13). -/
def pollEvents (busyReads : Nat) (busy : Bool) : List Event :=
  if busy then List.replicate busyReads (readEvent 0x00C) ++ [.engine, readEvent 0x00C] else [readEvent 0x00C]

/-- The events a line expands to for a host that begins it at state `s` (R84), or none where the line is not valid (R85,
I16). -/
def expandLine (l : ScriptLine) (s : State) : Option (List Event) :=
  match l with
  | .wr off v => some [writeEvent off.toNat v]
  | .rd off => some [readEvent off.toNat]
  | .rdIs off _ => some [readEvent off.toNat]
  | .cmd mnemonic len =>
    match scriptInstr mnemonic len with
    | some i => if i.wf then some [writeEvent 0x010 (encode i)] else none
    | none => none
  | .poll busyReads => some (pollEvents busyReads s.busy)
  | .wrBuf b bs =>
    some ((scriptWords ((bs.length + 3) / 4) bs).zipIdx.map fun wi => writeEvent (b.base + 4 * wi.2) wi.1)
  | .rdBuf b len => some ((List.range ((len + 3) / 4)).map fun i => readEvent (b.base + 4 * i))
  | .srst => some [writeEvent 0x008 1#32]
  | .clrInt => some [writeEvent 0x014 7#32]

/-- A list of events, in order. -/
def runEvents (es : List Event) (s : State) : Host.Outcome State Fault Refusal :=
  match es with
  | [] => .next s
  | e :: rest =>
    match runEvent e s with
    | .next t => runEvents rest t
    | .fault f => .fault f
    | .refused r => .refused r

/-- Did the line, which left the state `t`, read what it says it reads? Only `RD off -> val` says so (R84). -/
def lineHolds (l : ScriptLine) (t : State) : Bool :=
  match l with
  | .rdIs _ v => t.resp == .data v
  | .wr _ _ | .rd _ | .cmd _ _ | .poll _ | .wrBuf _ _ | .rdBuf _ _ | .srst | .clrInt => true

/-- The end state of a program whose last operation left the state `t`: `t` where BUSY = 0, and none where a command has
not completed (R164). Its engine state is its items of R15; the model's own fields stand beside them. -/
def scriptEnd (t : State) : Option State := if t.busy then none else some t

/-- What a run of a program gives: the events it issued, its end state, none where its last command has not completed
(R164), and whether every `RD off -> val` read its `val`. -/
structure ScriptRun where
  events : List Event
  endState : Option State
  holds : Bool
deriving DecidableEq, Repr

/-- A program run from a state, line by line; none where a line is not valid. -/
def runScript (ls : List ScriptLine) (s : State) : Option ScriptRun :=
  match ls with
  | [] => some ⟨[], scriptEnd s, true⟩
  | l :: rest =>
    match expandLine l s with
    | none => none
    | some es =>
      match runEvents es s with
      | .next t => (runScript rest t).map fun r => ⟨es ++ r.events, r.endState, lineHolds l t && r.holds⟩
      | .fault _ => none
      | .refused _ => none

/-- The events of a program, in order: what the agenda holds for a host that runs it from state `s`. -/
def expandScript (ls : List ScriptLine) (s : State) : Option (List Event) := (runScript ls s).map fun r => r.events

end Sys2Proof.Machine
end

