-- ==== Sys2Proof/Safety.lean ====
section
/-! DEFINITION. What a legal state is, and the vocabulary of frames: what a step may change. -/

namespace Sys2Proof.Machine

/-! ### The invariant -/

/-- The buffer memory is canonical and lists no byte outside the buffers (R49: the buffers are all the memory there
is). -/
abbrev MemOk (s : State) : Prop := Memory.wf s.mem ∧ ∀ c ∈ s.mem, (bufAt c.1).isSome = true

/-- R24, R40, R41, R110: MOD_BITS is 0 without a valid key; a valid key has 1 ≤ k ≤ K_MAX, no leading zero byte, an
odd modulus other than 1, and MOD_BITS its bit length. -/
abbrev KeyOk (s : State) : Prop :=
  (s.keyValid = false → s.modBits = 0#13) ∧
  (s.keyValid = true →
    1 ≤ keyLen s ∧ keyLen s ≤ Config.kMax ∧ Memory.read s.mem (Buf.base .n) ≠ 0#8 ∧ modulus s % 2 = 1 ∧
      modulus s ≠ 1 ∧ keyBits s = bitLength (modulus s))

/-- R53: BLK has 0 to 63 bytes. In ACTIVE it holds what TOTAL leaves over whole blocks; in IDLE the context is as
after reset. -/
abbrev ShaOk (s : State) : Prop :=
  s.blk.length < 64 ∧
  (s.shaState = .active → s.blk.length = s.total.toNat % 64) ∧
  (s.shaState = .idle →
    s.hc = ⟨0#32, 0#32, 0#32, 0#32, 0#32, 0#32, 0#32, 0#32⟩ ∧ s.blk = [] ∧ s.total = 0#61)

/-- A legal state. -/
abbrev Inv (s : State) : Prop := MemOk s ∧ KeyOk s ∧ ShaOk s

/-! ### Frames -/

/-- The length registers and INT_EN are as before. -/
abbrev SameConfig (s t : State) : Prop :=
  t.slen = s.slen ∧ t.nLen = s.nLen ∧ t.expLen = s.expLen ∧ t.intEn = s.intEn

/-- KEY_VALID and MOD_BITS are as before. -/
abbrev SameKey (s t : State) : Prop := t.keyValid = s.keyValid ∧ t.modBits = s.modBits

/-- The host SHA context is as before. -/
abbrev SameContext (s t : State) : Prop :=
  t.shaState = s.shaState ∧ t.hc = s.hc ∧ t.blk = s.blk ∧ t.total = s.total

/-- The events still to come and the host's last answer are as before. -/
abbrev SameHost (s t : State) : Prop := t.agenda = s.agenda ∧ t.resp = s.resp

/-- Every byte of memory reads as before. -/
abbrev SameMemory (s t : State) : Prop := ∀ a, Memory.read t.mem a = Memory.read s.mem a

/-- Every byte of memory outside the `len` bytes from `a` up reads as before. -/
abbrev SameOutside (s t : State) (a len : Nat) : Prop :=
  ∀ b, b < a ∨ a + len ≤ b → Memory.read t.mem b = Memory.read s.mem b

/-- The four updates that end a command with code `e`, and OVR as before (R130, R31). -/
abbrev EndsWith (e : ErrCode) (s t : State) : Prop :=
  t.errCode = e ∧ t.busy = false ∧ t.intStatus.getLsbD 0 = true ∧
    t.intStatus.getLsbD 1 = (s.intStatus.getLsbD 1 || decide (e ≠ .none)) ∧
    t.intStatus.getLsbD 2 = s.intStatus.getLsbD 2

/-! ### The message a host context stands for -/

/-- The host context is ACTIVE and has absorbed exactly the message `m` since SHA_INIT (R94, R95, R96). -/
def Absorbed (m : List Byte) (s : State) : Prop :=
  s.shaState = .active ∧ absorb hashInit m = (s.hc, s.blk) ∧ s.total.toNat = m.length

/-- Feed a message in parts: the host puts each part in MSG_BUF and runs SHA_UPDATE with its length (R94). -/
def feedParts (parts : List (List Byte)) (s : State) : Host.Outcome State Fault Refusal :=
  match parts with
  | [] => .next s
  | p :: rest =>
    match exec (.shaUpdate p.length) (putBuf .msg p s) with
    | .next t => feedParts rest t
    | .fault f => .fault f
    | .refused r => .refused r

/-- One 32-bit BusRead at a window offset (R11). -/
def busRead32 (off : BitVec 12) : Event := .bus (.read (.window off) 32)

/-- One 32-bit BusWrite with every strobe set at a window offset (R11). -/
def busWrite32 (off : BitVec 12) (v : Word) : Event := .bus (.write (.window off) 32 0b1111#4 v)

/-- A 32-bit read of the window at `off` answers the value `w`, and nothing but the answer changes (R65). -/
abbrev Answers (s : State) (off : BitVec 12) (w : Word) : Prop :=
  ∀ rest, step { s with agenda := busRead32 off :: rest } = .next { s with agenda := rest, resp := .data w }

/-! ### The constants of SHA-256 -/

/-- The primes from 2 to 311, in order: the first 64 (R87, R88). -/
def firstPrimes : List Nat :=
  (List.range 312).filter fun p => decide (2 ≤ p) && (List.range p).all fun d => decide (d < 2) || p % d != 0

/-- `w` is the first 32 bits of the fractional part of the `e`-th root of `p`: with the root's integer part `c` above
it, it is the root times 2^32, rounded down (R87, R88). -/
abbrev RootBits (e p : Nat) (w : Word) : Prop :=
  ∃ c, (c * 2 ^ 32 + w.toNat) ^ e ≤ p * 2 ^ (32 * e) ∧ p * 2 ^ (32 * e) < (c * 2 ^ 32 + w.toNat + 1) ^ e

/-- The eight words, first word first. -/
def HashWords.toList (h : HashWords) : List Word := [h.h0, h.h1, h.h2, h.h3, h.h4, h.h5, h.h6, h.h7]

end Sys2Proof.Machine
end

