-- ==== Sys2Proof/Certificates/Slice0/Obligations.lean ====
section
/-! DEFINITION. The statements for the provers. Each docstring says which rule of spec/ it formalises. -/

open Sys2Proof Sys2Proof.Machine

/-! ### Encoding (30_encoding.md) -/

/-- R78 to R81: no bit of an encoding is dropped: decoding the word of a well-formed command gives it back. -/
def Obligations.DecodeOfEncode : Prop := ∀ i : Instr, i.wf = true → decode (encode i) = .ok i

/-- R78 to R81: every word that decodes is the word of its command, so each word has one meaning. -/
def Obligations.EncodeOfDecode : Prop :=
  ∀ (v : Word) (i : Instr), decode v = .ok i → i.wf = true ∧ encode i = v

/-- R81: the pseudocode of decode, its operands, the table's masks, and at most one row for a word. -/
def Obligations.DecodeSelectsOneTableRow : Prop :=
  (∀ r ∈ opcodeTable, r.mask =
    if r.pattern ∈ [0x02#32, 0x10#32, 0x30#32, 0x41#32] then 0x0000FFFF#32 else 0xFFFFFFFF#32) ∧
  (opcodeTable.map fun r => r.pattern.toNat) =
    [0x00, 0x01, 0x02, 0x03, 0x10, 0x11, 0x12, 0x20, 0x21, 0x30, 0x40, 0x41, 0x7F] ∧
  ∀ v : Word,
    (∀ r ∈ opcodeTable, ∀ r' ∈ opcodeTable, r.selects v = true → r'.selects v = true → r = r') ∧
    ((∃ i, decode v = .ok i) ↔
      (v.toNat / 256 % 256 = 0 ∧
        v.toNat % 256 ∈ [0x00, 0x01, 0x02, 0x03, 0x10, 0x11, 0x12, 0x20, 0x21, 0x30, 0x40, 0x41, 0x7F] ∧
        (v.toNat % 256 ∉ [0x02, 0x10, 0x30, 0x41] → v.toNat / 65536 = 0))) ∧
    ((∃ i, decode v = .ok i) ↔ ∃ r ∈ opcodeTable, r.selects v = true) ∧
    (∀ i, decode v = .ok i →
      i.opcode.toNat = v.toNat % 256 ∧ i.len16 = v.toNat / 65536 ∧
        ∃ r ∈ opcodeTable, r.selects v = true ∧ r.mnemonic = i.mnemonic)

/-- The words that the rules R95 to R126 write out decode to their commands. -/
def Obligations.WrittenOutWordsDecode : Prop :=
  decode 0x00000000#32 = .ok .nop ∧ decode 0x00000001#32 = .ok .shaInit ∧
  decode 0x00030002#32 = .ok (.shaUpdate 3) ∧ decode 0x00000003#32 = .ok .shaFinal ∧
  decode 0x00280010#32 = .ok (.mgf1 40) ∧ decode 0x00000011#32 = .ok .pssEncode ∧
  decode 0x00000012#32 = .ok .pssVerify ∧ decode 0x00000020#32 = .ok .keyLoad ∧
  decode 0x00000021#32 = .ok .modexp ∧ decode 0x00040030#32 = .ok (.cmp 4) ∧
  decode 0x00000040#32 = .ok .sign ∧ decode 0x00240041#32 = .ok (.verify 36) ∧
  decode 0x0000007F#32 = .ok .zeroize

/-! ### The step: acceptance, completion, reset (60_exceptions.md, 70_reset_and_hazards.md) -/

/-- R130: while BUSY = 1, the engine's turn is the pending command, whether it is the next event of the agenda or the
agenda is empty. That an empty agenda is the engine's turn is the model's choice (log entry 2). -/
def Obligations.StepRunsPendingCommand : Prop :=
  ∀ (s : State) (i : Instr), s.busy = true → decode s.cmdPend = .ok i →
    (s.agenda = [] → step s = exec i s) ∧
    (∀ rest, s.agenda = .engine :: rest → step s = exec i { s with agenda := rest })

/-- R129: an accepted CMD write makes the word pending and the engine busy and changes nothing else; while BUSY = 1 it
is dropped, sets OVR and changes nothing else. -/
def Obligations.CommandWriteIsAcceptedOrDropped : Prop :=
  ∀ (s : State) (v : Word) (rest : List Event), s.agenda = busWrite32 0x010#12 v :: rest →
    (s.busy = false →
      step s = .next { s with cmdPend := v, busy := true, agenda := rest, resp := .ack }) ∧
    (s.busy = true →
      step s = .next { s with intStatus := s.intStatus ||| 0b100#3, agenda := rest, resp := .ack })

/-- R129, R130: a well-formed command that the host writes to CMD while BUSY = 0 runs at the engine's next turn, on the
operands as they stood at the write. -/
def Obligations.AcceptedCommandRuns : Prop :=
  ∀ (s : State) (i : Instr) (rest : List Event), i.wf = true → s.busy = false →
    s.agenda = busWrite32 0x010#12 (encode i) :: .engine :: rest →
    ∃ t, step s = .next t ∧ t.busy = true ∧
      step t = exec i { s with cmdPend := encode i, busy := true, agenda := rest, resp := .ack }

/-- R130: the engine never stalls or hangs, so every state has a next state: no fault and no refusal. Three parts of it
are the model's choices and not the rule's: that an empty agenda, or an engine event while BUSY = 0, is a step that changes
nothing (log entries 2 and 3; R14 gives the engine no step then), and that a BusError is a next state (log entry 5). -/
def Obligations.EveryStepAnswersNext : Prop := ∀ s : State, ∃ t, step s = .next t

/-- R130: the engine's turn while BUSY = 1 ends the command: BUSY falls, DONE is set, ERR is set exactly when the code
is an error (and keeps its value otherwise), OVR keeps its value. That an empty agenda is the engine's turn is the
model's choice (log entry 2). -/
def Obligations.PendingCommandCompletes : Prop :=
  ∀ s : State, s.busy = true → (s.agenda = [] ∨ ∃ rest, s.agenda = .engine :: rest) →
    ∃ t, step s = .next t ∧ EndsWith t.errCode s t ∧ SameConfig s t ∧ t.resp = s.resp ∧
      t.agenda = s.agenda.tail

/-- R14: the engine has no step while BUSY = 0: its turn then changes nothing. That such a turn may stand in the agenda,
and that an empty agenda is one, are the model's choices (log entries 2 and 3). -/
def Obligations.IdleEngineHasNoStep : Prop :=
  ∀ s : State, s.busy = false →
    (s.agenda = [] → step s = .next s) ∧
    (∀ rest, s.agenda = .engine :: rest → step s = .next { s with agenda := rest })

/-- R82: the illegal words are those with a nonzero RSV, an unassigned OPC, or a nonzero LEN16 on a command that takes
no length. An accepted one sets BUSY, then completes with BAD_CMD and does nothing else. -/
def Obligations.UndecodableWordIsBadCmd : Prop :=
  ∀ (s : State) (v : Word) (rest : List Event),
    (v.toNat / 256 % 256 ≠ 0 ∨
      v.toNat % 256 ∉ [0x00, 0x01, 0x02, 0x03, 0x10, 0x11, 0x12, 0x20, 0x21, 0x30, 0x40, 0x41, 0x7F] ∨
      (v.toNat % 256 ∉ [0x02, 0x10, 0x30, 0x41] ∧ v.toNat / 65536 ≠ 0)) →
    s.busy = false → s.agenda = busWrite32 0x010#12 v :: .engine :: rest →
    ∃ t u, step s = .next t ∧ t.busy = true ∧ step t = .next u ∧ EndsWith .badCmd s u ∧ SameConfig s u ∧
      SameKey s u ∧ SameContext s u ∧ SameMemory s u ∧ u.result = s.result

/-- R21, R150: the hardware reset and a write of 1 to CTRL.SRST have the same effect at any time, whether BUSY is 0 or
1: every piece of the engine's state takes its reset value and a pending command is aborted (DONE is not set). A write
of 0 to SRST has no effect, and CTRL reads 0. The value of CMD_PEND is not stated: it has none (log entry 7). -/
def Obligations.ResetAtAnyTime : Prop :=
  ∀ (s : State) (v : Word) (rest : List Event),
    ((s.agenda = .hwReset :: rest ∨ (s.agenda = busWrite32 0x008#12 v :: rest ∧ v.getLsbD 0 = true)) →
      ∃ t, step s = .next t ∧ t.agenda = rest ∧
        (t.slen = 32#16 ∧ t.nLen = 0#16 ∧ t.expLen = 0#16 ∧ t.modBits = 0#13 ∧ t.keyValid = false ∧
          t.result = false ∧ t.shaState = .idle ∧ t.errCode = .none ∧ t.intStatus = 0#3 ∧ t.intEn = 0#3 ∧
          t.busy = false ∧ t.blk = [] ∧ t.total = 0#61 ∧
          t.hc = ⟨0#32, 0#32, 0#32, 0#32, 0#32, 0#32, 0#32, 0#32⟩) ∧
        ∀ a, Memory.read t.mem a = 0#8) ∧
    (s.agenda = busWrite32 0x008#12 v :: rest → v.getLsbD 0 = false →
      step s = .next { s with agenda := rest, resp := .ack }) ∧
    (s.agenda = busRead32 0x008#12 :: rest → step s = .next { s with agenda := rest, resp := .data 0#32 })

/-- R149: what reset leaves, through the reads of the window and the hidden state. CMD_PEND has no value (log entry 7). -/
def Obligations.ResetValues : Prop :=
  readValue State.reset 0x000 = 0x52505353#32 ∧ readValue State.reset 0x004 = 0x00010000#32 ∧
  readValue State.reset 0x008 = 0#32 ∧ readValue State.reset 0x00C = 0#32 ∧ readValue State.reset 0x010 = 0#32 ∧
  readValue State.reset 0x014 = 0#32 ∧ readValue State.reset 0x018 = 0#32 ∧ readValue State.reset 0x01C = 0x20#32 ∧
  readValue State.reset 0x020 = 0#32 ∧ readValue State.reset 0x024 = 0#32 ∧ readValue State.reset 0x028 = 0#32 ∧
  readValue State.reset 0x02C = 0#32 ∧ readValue State.reset 0x030 = 0#32 ∧ readValue State.reset 0x034 = 0#32 ∧
  readValue State.reset 0x038 = 0x01000200#32 ∧ (∀ a, Memory.read State.reset.mem a = 0#8) ∧
  State.reset.hc = ⟨0#32, 0#32, 0#32, 0#32, 0#32, 0#32, 0#32, 0#32⟩ ∧ State.reset.blk = [] ∧
  State.reset.total = 0#61 ∧ State.reset.shaState = .idle ∧ State.reset.busy = false ∧ irq State.reset = false

/-! ### The bus (20_memory.md, 10_state.md) -/

/-- R63: a transaction whose offset is misaligned, whose width is not 32 bits, whose write strobes are not all set or
whose offset is reserved answers BusError and has no effect, whether BUSY is 0 or 1; any other transaction in the window
does not answer BusError; and the engine sees no transaction outside its window. -/
def Obligations.BusErrorHasNoEffect : Prop :=
  ∀ (s : State) (off : BitVec 12) (width : Nat) (strobes : BitVec 4) (v : Word) (rest : List Event),
    let bad : Prop := off.toNat % 4 ≠ 0 ∨ width ≠ 32 ∨ (0x03C ≤ off.toNat ∧ off.toNat ≤ 0x0FF) ∨
      (0x220 ≤ off.toNat ∧ off.toNat ≤ 0x3FF) ∨ (0x600 ≤ off.toNat ∧ off.toNat ≤ 0x7FF)
    (s.agenda = .bus (.read (.window off) width) :: rest →
      (bad → step s = .next { s with agenda := rest, resp := .busError }) ∧
      (¬bad → ∃ t x, step s = .next t ∧ t.resp = .data x)) ∧
    (s.agenda = .bus (.write (.window off) width strobes v) :: rest →
      (bad ∨ strobes ≠ 0b1111#4 → step s = .next { s with agenda := rest, resp := .busError }) ∧
      (¬(bad ∨ strobes ≠ 0b1111#4) → ∃ t, step s = .next t ∧ t.resp = .ack)) ∧
    (∀ addr, (addr < Config.baseAddr ∨ Config.baseAddr + 0x1000 ≤ addr) →
      (s.agenda = .bus (.read (.platform addr) width) :: rest ∨
        s.agenda = .bus (.write (.platform addr) width strobes v) :: rest) →
      ∃ x, step s = .next { s with agenda := rest, resp := x })

/-- R58, R70: the effective address is BASE_ADDR + offset: a transaction at that platform address is the transaction at
that window offset. -/
def Obligations.EffectiveAddressIsBasePlusOffset : Prop :=
  ∀ (s : State) (off : BitVec 12) (width : Nat) (strobes : BitVec 4) (v : Word),
    busAccess (.read (.platform (Config.baseAddr + off.toNat)) width) s = busAccess (.read (.window off) width) s ∧
    busAccess (.write (.platform (Config.baseAddr + off.toNat)) width strobes v) s =
      busAccess (.write (.window off) width strobes v) s

/-- R65: no read has a side effect on the engine, and two reads with nothing between them answer the same. -/
def Obligations.ReadsHaveNoSideEffect : Prop :=
  ∀ (s : State) (t : Target) (width : Nat) (rest : List Event),
    s.agenda = .bus (.read t width) :: .bus (.read t width) :: rest →
    ∃ x, step s = .next { s with agenda := .bus (.read t width) :: rest, resp := x } ∧
      step { s with agenda := .bus (.read t width) :: rest, resp := x } =
        .next { s with agenda := rest, resp := x }

/-- R64: a write to a read-only register is no BusError: it is ignored while BUSY = 0, and dropped while BUSY = 1. A
read of CMD gives 0. Reserved bits inside a register read 0 and ignore writes. -/
def Obligations.ReadOnlyRegistersIgnoreWrites : Prop :=
  ∀ (s : State) (off : BitVec 12) (v : Word) (rest : List Event),
    (off ∈ [0x000#12, 0x004#12, 0x00C#12, 0x028#12, 0x02C#12, 0x030#12, 0x034#12, 0x038#12] →
      s.agenda = busWrite32 off v :: rest →
      (s.busy = false → step s = .next { s with agenda := rest, resp := .ack }) ∧
      (s.busy = true →
        step s = .next { s with intStatus := s.intStatus ||| 0b100#3, agenda := rest, resp := .ack })) ∧
    readValue s 0x010 = 0#32 ∧
    (readValue s 0x008 &&& 0xFFFFFFFE#32 = 0#32 ∧ readValue s 0x00C &&& 0xFFFFF0C8#32 = 0#32 ∧
      readValue s 0x014 &&& 0xFFFFFFF8#32 = 0#32 ∧ readValue s 0x018 &&& 0xFFFFFFF8#32 = 0#32 ∧
      readValue s 0x01C &&& 0xFFFF0000#32 = 0#32 ∧ readValue s 0x020 &&& 0xFFFF0000#32 = 0#32 ∧
      readValue s 0x024 &&& 0xFFFF0000#32 = 0#32 ∧ readValue s 0x028 &&& 0xFFFFE000#32 = 0#32 ∧
      readValue s 0x02C &&& 0xFFFFE000#32 = 0#32 ∧ readValue s 0x034 &&& 0xE0000000#32 = 0#32) ∧
    (writeReg .ctrl (v &&& 0xFFFFFFFE#32) s = s ∧ writeReg .intStatus (v &&& 0xFFFFFFF8#32) s = s ∧
      writeReg .intEn v s = writeReg .intEn (v &&& 7#32) s ∧ writeReg .slen v s = writeReg .slen (v &&& 0xFFFF#32) s ∧
      writeReg .nLen v s = writeReg .nLen (v &&& 0xFFFF#32) s ∧
      writeReg .expLen v s = writeReg .expLen (v &&& 0xFFFF#32) s)

/-- R67: while BUSY = 1 a write to any mapped offset other than CTRL, INT_STATUS and INT_EN is dropped and sets OVR;
writes to those three take effect as R21, R31 and R32 say, a write of 1 to SRST giving the reset state of R149. The value
of CMD_PEND after it is not stated (log entry 7). That the model's own fields agenda, resp and free stay over a reset is
the model's choice (log entry 6). -/
def Obligations.BusyDropsWrites : Prop :=
  ∀ (s : State) (off : BitVec 12) (v : Word) (rest : List Event), s.busy = true →
    s.agenda = busWrite32 off v :: rest →
    (off.toNat % 4 = 0 → off ∉ [0x008#12, 0x014#12, 0x018#12] → reservedOffset off.toNat = false →
      step s = .next { s with intStatus := s.intStatus ||| 0b100#3, agenda := rest, resp := .ack }) ∧
    (off = 0x014#12 →
      step s = .next { s with intStatus := s.intStatus &&& ~~~(v.extractLsb' 0 3), agenda := rest, resp := .ack }) ∧
    (off = 0x018#12 → step s = .next { s with intEn := v.extractLsb' 0 3, agenda := rest, resp := .ack }) ∧
    (off = 0x008#12 → v.getLsbD 0 = false → step s = .next { s with agenda := rest, resp := .ack }) ∧
    (off = 0x008#12 → v.getLsbD 0 = true →
      ∃ c, step s = .next { State.reset with cmdPend := c, agenda := rest, resp := .ack, free := s.free })

/-- R68: while BUSY = 1 a read of any buffer word gives 0 and has no effect, and a register reads its current value. -/
def Obligations.BusyReads : Prop :=
  ∀ (s : State) (off : BitVec 12) (rest : List Event), s.busy = true → s.agenda = busRead32 off :: rest →
    off.toNat % 4 = 0 →
    (0x100 ≤ off.toNat → reservedOffset off.toNat = false →
      step s = .next { s with agenda := rest, resp := .data 0#32 }) ∧
    (off.toNat ≤ 0x038 → ∃ r, regAt off.toNat = some r ∧
      step s = .next { s with agenda := rest, resp := .data (readReg s r) })

/-- R22 to R27: a read of STATUS (offset 0x00C), whether BUSY is 0 or 1, answers a word with these fields. -/
def Obligations.StatusWordFields : Prop :=
  ∀ s : State, ∃ w, Answers s 0x00C#12 w ∧ readReg s .status = w ∧
    w.getLsbD 0 = s.busy ∧ w.getLsbD 1 = s.result ∧ w.getLsbD 2 = s.keyValid ∧ w.getLsbD 3 = false ∧
      w.toNat / 16 % 4 = (match s.shaState with | .idle => 0 | .active => 1 | .final => 2) ∧
      w.toNat / 64 % 4 = 0 ∧
      w.toNat / 256 % 16 = (match s.errCode with
        | .none => 0 | .param => 1 | .invalidKey => 2 | .misuse => 3 | .malformedSig => 4 | .badCmd => 5
        | .len => 6 | .range => 7 | .lenOvf => 8) ∧
      w.toNat / 4096 = 0

/-- R19, R20, R34 to R46: what a read of each other register answers, at every state, whether BUSY is 0 or 1; and every
aligned read at 0x000 to 0x038 answers readValue, the function the other statements about registers use. -/
def Obligations.RegisterReads : Prop :=
  ∀ s : State,
    Answers s 0x000#12 0x52505353#32 ∧ Answers s 0x004#12 0x00010000#32 ∧ Answers s 0x008#12 0#32 ∧
    Answers s 0x010#12 0#32 ∧ Answers s 0x038#12 0x01000200#32 ∧
    (∃ w, Answers s 0x014#12 w ∧ w.toNat = s.intStatus.toNat) ∧
    (∃ w, Answers s 0x018#12 w ∧ w.toNat = s.intEn.toNat) ∧
    (∃ w, Answers s 0x01C#12 w ∧ w.toNat = s.slen.toNat) ∧
    (∃ w, Answers s 0x020#12 w ∧ w.toNat = s.nLen.toNat) ∧
    (∃ w, Answers s 0x024#12 w ∧ w.toNat = s.expLen.toNat) ∧
    (∃ w, Answers s 0x028#12 w ∧ w.toNat = s.modBits.toNat) ∧
    (∃ w, Answers s 0x02C#12 w ∧ w.toNat = emLenReg s) ∧
    (∃ lo hi, Answers s 0x030#12 lo ∧ Answers s 0x034#12 hi ∧ lo.toNat + 2 ^ 32 * hi.toNat = s.total.toNat) ∧
    ∀ off : BitVec 12, off.toNat % 4 = 0 → off.toNat ≤ 0x038 → Answers s off (readValue s off.toNat)

/-- R42: EM_LEN reads ceil((MOD_BITS - 1) / 8) when KEY_VALID = 1 and 0 when KEY_VALID = 0; its bits [31:13] read 0. -/
def Obligations.EmLenRegisterReads : Prop :=
  ∀ s : State,
    (s.keyValid = true → 1 ≤ s.modBits.toNat →
      8 * (readValue s 0x02C).toNat < (s.modBits.toNat - 1) + 8 ∧
        s.modBits.toNat - 1 ≤ 8 * (readValue s 0x02C).toNat) ∧
    (s.keyValid = false → readValue s 0x02C = 0#32) ∧ (readValue s 0x02C).toNat < 2 ^ 13

/-- R41, R43: with a valid key, 8(k - 1) < MOD_BITS ≤ 8k, and EM_LEN is k - 1 exactly when MOD_BITS mod 8 = 1, and k
otherwise. -/
def Obligations.KeySizeBounds : Prop :=
  ∀ s : State, KeyOk s → s.keyValid = true →
    8 * (keyLen s - 1) < s.modBits.toNat ∧ s.modBits.toNat ≤ 8 * keyLen s ∧
    (s.modBits.toNat % 8 = 1 ↔ emLenReg s = keyLen s - 1) ∧
    (s.modBits.toNat % 8 ≠ 1 → emLenReg s = keyLen s)

/-- R30: irq is 1 exactly when some enabled interrupt bit is set. -/
def Obligations.IrqIsLevelOfEnabledBits : Prop :=
  ∀ s : State, irq s = true ↔ ∃ i, i < 3 ∧ s.intStatus.getLsbD i = true ∧ s.intEn.getLsbD i = true

/-- R31, R32: a write to INT_STATUS clears exactly the bits written 1 and nothing else; a write to INT_EN stores its low
three bits and nothing else; both whether BUSY is 0 or 1. -/
def Obligations.InterruptRegisterWrites : Prop :=
  ∀ (s : State) (v : Word) (rest : List Event),
    (s.agenda = busWrite32 0x014#12 v :: rest →
      ∃ x, step s = .next { s with intStatus := x, agenda := rest, resp := .ack } ∧
        ∀ i, i < 3 → x.getLsbD i = (s.intStatus.getLsbD i && !v.getLsbD i)) ∧
    (s.agenda = busWrite32 0x018#12 v :: rest →
      ∃ x, step s = .next { s with intEn := x, agenda := rest, resp := .ack } ∧
        ∀ i, i < 3 → x.getLsbD i = v.getLsbD i)

/-- R34, R36, R38: an accepted write to a length register stores bits [15:0] as written, whatever they are, and changes
nothing else, but that a write to N_LEN also drops the key (R37). -/
def Obligations.LengthRegisterWrites : Prop :=
  ∀ (s : State) (v : Word) (rest : List Event), s.busy = false →
    (s.agenda = busWrite32 0x01C#12 v :: rest →
      step s = .next { s with slen := BitVec.ofNat 16 v.toNat, agenda := rest, resp := .ack }) ∧
    (s.agenda = busWrite32 0x024#12 v :: rest →
      step s = .next { s with expLen := BitVec.ofNat 16 v.toNat, agenda := rest, resp := .ack }) ∧
    (s.agenda = busWrite32 0x020#12 v :: rest →
      step s = .next { s with
        nLen := BitVec.ofNat 16 v.toNat, keyValid := false, modBits := 0#13, agenda := rest, resp := .ack })

/-- R37, R51: any accepted host write to N_LEN or to any word of N_BUF, whatever the value, clears KEY_VALID and
MOD_BITS. -/
def Obligations.KeyWritesDropTheKey : Prop :=
  ∀ (s : State) (off : BitVec 12) (v : Word) (rest : List Event), s.busy = false →
    s.agenda = busWrite32 off v :: rest →
    (off = 0x020#12 ∨ (0x800 ≤ off.toNat ∧ off.toNat ≤ 0x9FF ∧ off.toNat % 4 = 0)) →
    ∃ t, step s = .next t ∧ t.resp = .ack ∧ t.keyValid = false ∧ t.modBits = 0#13

/-- R49: the seven buffers lie at these offsets with these sizes, and `BUF[0..len)` is the bytes from there up, in order.
R59: while BUSY = 0, a read of word i of a buffer answers bytes 4i to 4i+3 with the first most significant, whatever
wrote them. An accepted write of v to the word stores v[31:24] to v[7:0] in those bytes, leaves every other byte of memory
and every register but KEY_VALID and MOD_BITS of an N_BUF write, and a read of the word then gives v. -/
def Obligations.BufferWordsAreBigEndian : Prop :=
  ((Buf.base .msg = 0x100 ∧ Buf.size .msg = 256) ∧ (Buf.base .digest = 0x200 ∧ Buf.size .digest = 32) ∧
    (Buf.base .salt = 0x400 ∧ Buf.size .salt = 512) ∧ (Buf.base .n = 0x800 ∧ Buf.size .n = 512) ∧
    (Buf.base .exp = 0xA00 ∧ Buf.size .exp = 512) ∧ (Buf.base .a = 0xC00 ∧ Buf.size .a = 512) ∧
    (Buf.base .r = 0xE00 ∧ Buf.size .r = 512)) ∧
  (∀ (s : State) (b : Buf) (len : Nat), (bufBytes s b len).length = len ∧
    ∀ j, j < len → (bufBytes s b len).getD j 0#8 = Memory.read s.mem (b.base + j)) ∧
  ∀ (s : State) (b : Buf) (i : Nat), s.busy = false → 4 * i + 4 ≤ b.size →
    (∃ w, Answers s (BitVec.ofNat 12 (b.base + 4 * i)) w ∧
      w.toNat = (Memory.read s.mem (b.base + 4 * i)).toNat * 2 ^ 24 +
        (Memory.read s.mem (b.base + 4 * i + 1)).toNat * 2 ^ 16 +
        (Memory.read s.mem (b.base + 4 * i + 2)).toNat * 2 ^ 8 + (Memory.read s.mem (b.base + 4 * i + 3)).toNat) ∧
    ∀ (v : Word) (rest : List Event), Memory.wf s.mem →
      s.agenda = busWrite32 (BitVec.ofNat 12 (b.base + 4 * i)) v ::
        busRead32 (BitVec.ofNat 12 (b.base + 4 * i)) :: rest →
      ∃ t u, step s = .next t ∧ step t = .next u ∧ t.resp = .ack ∧ u.resp = .data v ∧
        (Memory.read t.mem (b.base + 4 * i)).toNat = v.toNat / 2 ^ 24 ∧
        (Memory.read t.mem (b.base + 4 * i + 1)).toNat = v.toNat / 2 ^ 16 % 256 ∧
        (Memory.read t.mem (b.base + 4 * i + 2)).toNat = v.toNat / 2 ^ 8 % 256 ∧
        (Memory.read t.mem (b.base + 4 * i + 3)).toNat = v.toNat % 256 ∧
        SameOutside s t (b.base + 4 * i) 4 ∧ SameConfig s t ∧ SameContext s t ∧
        t.intStatus = s.intStatus ∧ t.result = s.result ∧ t.errCode = s.errCode ∧ t.busy = false ∧
        (b ≠ .n → SameKey s t)

/-- R28: while BUSY = 1, no event but the engine's turn or a reset changes RESULT, KEY_VALID, SHA_STATE, ERR_CODE or
BUSY, nor anything a command reads (R76): the lengths, the buffers and the SHA context. -/
def Obligations.BusyHoldsStatusAndOperands : Prop :=
  ∀ (s : State) (acc : Access) (rest : List Event), s.busy = true → s.agenda = .bus acc :: rest →
    ∃ t, step s = .next t ∧
      ((t.busy = true ∧ t.cmdPend = s.cmdPend ∧ t.result = s.result ∧ t.errCode = s.errCode ∧ SameKey s t ∧
          SameContext s t ∧ t.mem = s.mem ∧ t.slen = s.slen ∧ t.nLen = s.nLen ∧ t.expLen = s.expLen) ∨
        ∃ tgt v, acc = .write tgt 32 0b1111#4 v ∧ windowOffset tgt = some 0x008 ∧ v.getLsbD 0 = true)

/-! ### The SHA-256 unit (40_sha256.md) -/

/-- The SHA-256 function, part by part, in the words of the rules.
R87, R88: H0 and K are the first 32 bits of the fractional parts of the square roots of the first 8 and the cube roots of
the first 64 primes.
R90: pad(M) is M, 0x80, z zero bytes with z the least such that (l + 1 + z) mod 64 = 56, and 8 bytes that hold 8l; its
length is a multiple of 64.
R89, R91: one round is the rule's assignments, and compress is 64 rounds on K and a schedule whose first 16 words are the
block's and whose later words obey the recurrence, with the word-wise sum at the end.
R92: the digest is the big-endian words left by compressing the blocks of pad(M) in order, from H0. -/
def Obligations.Sha256FollowsItsRules : Prop :=
  (hashInit.toList.length = 8 ∧ ∀ i, i < 8 → RootBits 2 (firstPrimes.getD i 0) (hashInit.toList.getD i 0#32)) ∧
  (roundConstants.length = 64 ∧ ∀ t, t < 64 → RootBits 3 (firstPrimes.getD t 0) (roundConstants.getD t 0#32)) ∧
  (∀ m : List Byte, m.length ≤ Config.shaMaxBytes →
    ∃ z tail, pad m = m ++ 0x80#8 :: (List.replicate z 0#8 ++ tail) ∧ tail.length = 8 ∧
      os2ip tail = 8 * m.length ∧ (m.length + 1 + z) % 64 = 56 ∧
      (∀ y, (m.length + 1 + y) % 64 = 56 → z ≤ y) ∧ (pad m).length % 64 = 0) ∧
  (∀ (v : HashWords) (k w : Word),
    let t1 := v.h7 + (v.h4.rotateRight 6 ^^^ v.h4.rotateRight 11 ^^^ v.h4.rotateRight 25) +
      ((v.h4 &&& v.h5) ^^^ (~~~v.h4 &&& v.h6)) + k + w
    let t2 := (v.h0.rotateRight 2 ^^^ v.h0.rotateRight 13 ^^^ v.h0.rotateRight 22) +
      ((v.h0 &&& v.h1) ^^^ (v.h0 &&& v.h2) ^^^ (v.h1 &&& v.h2))
    shaRound v (k, w) = ⟨t1 + t2, v.h0, v.h1, v.h2, v.h3 + t1, v.h4, v.h5, v.h6⟩) ∧
  (∀ (h : HashWords) (b : List Byte), b.length = 64 → ∃ (w : Nat → Word) (v : Nat → HashWords),
    (∀ t, t < 16 → (w t).toNat = os2ip ((b.drop (4 * t)).take 4)) ∧
    (∀ t, 16 ≤ t → t < 64 →
      w t = ((w (t - 2)).rotateRight 17 ^^^ (w (t - 2)).rotateRight 19 ^^^ (w (t - 2)) >>> 10) + w (t - 7) +
        ((w (t - 15)).rotateRight 7 ^^^ (w (t - 15)).rotateRight 18 ^^^ (w (t - 15)) >>> 3) + w (t - 16)) ∧
    v 0 = h ∧ (∀ t, t < 64 → v (t + 1) = shaRound (v t) (roundConstants.getD t 0#32, w t)) ∧
    compress h b = ⟨h.h0 + (v 64).h0, h.h1 + (v 64).h1, h.h2 + (v 64).h2, h.h3 + (v 64).h3, h.h4 + (v 64).h4,
      h.h5 + (v 64).h5, h.h6 + (v 64).h6, h.h7 + (v 64).h7⟩) ∧
  (∀ m : List Byte, ∃ hv : Nat → HashWords, hv 0 = hashInit ∧
    (∀ j, j < (pad m).length / 64 → hv (j + 1) = compress (hv j) (((pad m).drop (64 * j)).take 64)) ∧
    sha256 m = (hv ((pad m).length / 64)).toList.flatMap fun x => i2osp x.toNat 4)

/-- R95: SHA_INIT completes in every state: the context stands for the empty message, SHA_LEN reads 0, and nothing else
changes. -/
def Obligations.ShaInitStartsContext : Prop :=
  ∀ s : State, ∃ t, exec .shaInit s = .next t ∧ EndsWith .none s t ∧ Absorbed [] t ∧
    t.hc = ⟨0x6a09e667#32, 0xbb67ae85#32, 0x3c6ef372#32, 0xa54ff53a#32, 0x510e527f#32, 0x9b05688c#32,
      0x1f83d9ab#32, 0x5be0cd19#32⟩ ∧ t.blk = [] ∧
    t.total = 0#61 ∧ SameConfig s t ∧ SameKey s t ∧ SameHost s t ∧ SameMemory s t ∧ t.result = s.result

/-- R96: SHA_UPDATE with L ≤ 256 in ACTIVE, within the length limit, completes: the context stands for the message with
MSG_BUF[0..L) at its end, TOTAL grows by L, and nothing else changes. -/
def Obligations.ShaUpdateAbsorbs : Prop :=
  ∀ (s : State) (len : Nat), len ≤ 256 → s.shaState = .active → s.total.toNat + len ≤ 2 ^ 61 - 1 →
    ∃ t, exec (.shaUpdate len) s = .next t ∧ EndsWith .none s t ∧
      (t.hc, t.blk) = absorb s.hc (s.blk ++ bufBytes s .msg len) ∧ t.blk.length < 64 ∧
      t.total.toNat = s.total.toNat + len ∧ t.shaState = .active ∧
      (∀ m, Absorbed m s → Absorbed (m ++ bufBytes s .msg len) t) ∧
      SameConfig s t ∧ SameKey s t ∧ SameHost s t ∧ SameMemory s t ∧ t.result = s.result

/-- R97: SHA_FINAL in ACTIVE completes: DIGEST_BUF holds the digest of the message absorbed, SHA_STATE is FINAL, TOTAL
keeps its value, and nothing else changes but Hc and BLK, which have no meaning afterwards. -/
def Obligations.ShaFinalWritesDigest : Prop :=
  ∀ s : State, Memory.wf s.mem → s.shaState = .active →
    ∃ t, exec .shaFinal s = .next t ∧ EndsWith .none s t ∧ t.shaState = .final ∧ t.total = s.total ∧
      (∀ m, Absorbed m s → bufBytes t .digest 32 = sha256 m) ∧
      SameOutside s t 0x200 32 ∧ SameConfig s t ∧ SameKey s t ∧ SameHost s t ∧ t.result = s.result

/-- R94: for any split of a message into parts, possibly empty, that MSG_BUF can hold, SHA_INIT, SHA_UPDATE with each
part in order and SHA_FINAL write SHA256 of the whole message to DIGEST_BUF. -/
def Obligations.IncrementalDigest : Prop :=
  ∀ (s : State) (parts : List (List Byte)), Memory.wf s.mem → (∀ p ∈ parts, p.length ≤ 256) →
    parts.flatten.length ≤ 2 ^ 61 - 1 →
    ∃ s1 s2 t, exec .shaInit s = .next s1 ∧ feedParts parts s1 = .next s2 ∧ exec .shaFinal s2 = .next t ∧
      t.errCode = .none ∧ bufBytes t .digest 32 = sha256 parts.flatten

/-! ### The PSS unit (41_pss.md) -/

/-- R100: byte j of MGF1(seed, L) is byte j mod 32 of SHA256(seed || I2OSP(j / 32, 4)), and there are L of them. -/
def Obligations.MaskIsHashOfCounter : Prop :=
  ∀ (seed : List Byte) (len : Nat), len ≤ 512 →
    (mgf1 seed len).length = len ∧
    ∀ j, j < len → (mgf1 seed len)[j]? = (sha256 (seed ++ i2osp (j / 32) 4))[j % 32]?

/-- R101: MGF1 with L ≤ 512 completes: R_BUF[0..L) is the mask of DIGEST_BUF[0..32), and nothing else changes. -/
def Obligations.Mgf1WritesMask : Prop :=
  ∀ (s : State) (len : Nat), Memory.wf s.mem → len ≤ 512 →
    ∃ t, exec (.mgf1 len) s = .next t ∧ EndsWith .none s t ∧
      bufBytes t .r len = mgf1 (bufBytes s .digest 32) len ∧ SameOutside s t 0xE00 len ∧
      SameConfig s t ∧ SameKey s t ∧ SameContext s t ∧ SameHost s t ∧ t.result = s.result

/-- R105: PSS_ENCODE with a valid key large enough for the salt completes: A_BUF[0..k) is EM as a k-byte integer below
n, and nothing else changes. -/
def Obligations.PssEncodeWritesEm : Prop :=
  ∀ s : State, Memory.wf s.mem → KeyOk s → s.keyValid = true → emLen s.modBits.toNat ≥ 34 + s.slen.toNat →
    ∃ t, exec .pssEncode s = .next t ∧ EndsWith .none s t ∧
      bufBytes t .a (keyLen s) = List.replicate (keyLen s - emLen s.modBits.toNat) 0#8 ++
        pssEnc (bufBytes s .digest 32) s.modBits.toNat (bufBytes s .salt s.slen.toNat) ∧
      (pssEnc (bufBytes s .digest 32) s.modBits.toNat (bufBytes s .salt s.slen.toNat)).length =
        emLen s.modBits.toNat ∧
      os2ip (bufBytes t .a (keyLen s)) < modulus s ∧
      SameOutside s t 0xC00 (keyLen s) ∧ SameConfig s t ∧ SameKey s t ∧ SameContext s t ∧ SameHost s t ∧
      t.result = s.result

/-- R108: PSS_VERIFY with a valid key completes without error: RESULT is PSS_CHECK of R_BUF[0..k), and nothing else
changes; no buffer is written. -/
def Obligations.PssVerifyGivesResult : Prop :=
  ∀ s : State, s.keyValid = true →
    ∃ t, exec .pssVerify s = .next t ∧ EndsWith .none s t ∧
      t.result = pssCheck (bufBytes s .digest 32) s.modBits.toNat s.slen.toNat (bufBytes s .r (keyLen s)) ∧
      (emLen s.modBits.toNat < 34 + s.slen.toNat → t.result = false) ∧
      SameMemory s t ∧ SameConfig s t ∧ SameKey s t ∧ SameContext s t ∧ SameHost s t

/-- R102: emLen = ceil((modBits - 1) / 8).
R104: PSS_ENC in the words of the rule: maskedDB || H || 0xBC, with H the hash of eight zero bytes, mHash and the salt, and
each byte of maskedDB that of DB XOR MGF1(H, emLen - 33), the zb top bits of the first one cleared.
R106: of the k-byte strings, PSS_CHECK accepts exactly the encodings: X passes when and only when some salt of the right
length has X = 0x00*(k - emLen) || PSS_ENC(mHash, modBits, salt). -/
def Obligations.PssCheckAcceptsExactlyEncodings : Prop :=
  (∀ modBits, modBits - 1 ≤ 8 * emLen modBits ∧ 8 * emLen modBits < modBits - 1 + 8) ∧
  (∀ (mHash salt : List Byte) (modBits : Nat), emLen modBits ≥ 34 + salt.length →
    ∃ maskedDb h, pssEnc mHash modBits salt = maskedDb ++ h ++ [0xBC#8] ∧
      h = sha256 (List.replicate 8 0#8 ++ mHash ++ salt) ∧ maskedDb.length = emLen modBits - 33 ∧
      let db := List.replicate (emLen modBits - salt.length - 34) 0#8 ++ 0x01#8 :: salt
      let zb := 8 * emLen modBits - (modBits - 1)
      db.length = emLen modBits - 33 ∧
        ∀ j, j < emLen modBits - 33 → maskedDb.getD j 0#8 =
          (db.getD j 0#8 ^^^ (mgf1 h (emLen modBits - 33)).getD j 0#8) &&& (if j = 0 then 0xFF#8 >>> zb else 0xFF#8)) ∧
  ∀ (mHash x : List Byte) (modBits saltLen : Nat), emLen modBits ≥ 34 + saltLen → emLen modBits ≤ x.length →
    (pssCheck mHash modBits saltLen x = true ↔
      ∃ salt : List Byte, salt.length = saltLen ∧
        x = List.replicate (x.length - emLen modBits) 0#8 ++ pssEnc mHash modBits salt)

/-- R109: PSS_ENCODE, then A_BUF[0..k) copied to R_BUF by the host, then PSS_VERIFY with the same digest, salt length
and key gives RESULT = 1. -/
def Obligations.PssEncodeThenVerify : Prop :=
  ∀ s : State, Memory.wf s.mem → KeyOk s → s.keyValid = true → emLen s.modBits.toNat ≥ 34 + s.slen.toNat →
    ∃ t u, exec .pssEncode s = .next t ∧
      exec .pssVerify (putBuf .r (bufBytes t .a (keyLen s)) t) = .next u ∧
      u.errCode = .none ∧ u.result = true

/-! ### The exponentiation unit (42_modexp.md) -/

/-- R110: k is N_LEN and n is OS2IP(N_BUF[0..k)). KEY_LOAD of an odd modulus other than 1, with 1 ≤ k ≤ 512 and no leading zero byte, completes: KEY_VALID = 1,
MOD_BITS is the least b with n < 2^b, and nothing else changes. -/
def Obligations.KeyLoadLatchesModulus : Prop :=
  (∀ s : State, keyLen s = s.nLen.toNat ∧ modulus s = os2ip (bufBytes s .n s.nLen.toNat)) ∧
  ∀ s : State, 1 ≤ keyLen s → keyLen s ≤ 512 → Memory.read s.mem 0x800 ≠ 0#8 → modulus s % 2 = 1 → modulus s ≠ 1 →
    ∃ t, exec .keyLoad s = .next t ∧ EndsWith .none s t ∧ t.keyValid = true ∧
      modulus s < 2 ^ t.modBits.toNat ∧ (∀ b, modulus s < 2 ^ b → t.modBits.toNat ≤ b) ∧
      2 ≤ t.modBits.toNat ∧ t.modBits.toNat ≤ 4096 ∧ KeyOk t ∧
      SameMemory s t ∧ SameConfig s t ∧ SameContext s t ∧ SameHost s t ∧ t.result = s.result

/-- R10: OS2IP is big-endian, and I2OSP gives the string of the length asked for that OS2IP reads back.
R112, R114: MODEXP with a valid key, 1 ≤ EXP_LEN ≤ 512 and a base below n completes: R_BUF[0..k) is the k-byte
big-endian string of a^y mod n, and nothing else changes. -/
def Obligations.ModexpIsExact : Prop :=
  (os2ip [] = 0 ∧ (∀ (b : Byte) (bs : List Byte), os2ip (b :: bs) = b.toNat * 256 ^ bs.length + os2ip bs) ∧
    ∀ x len, x < 256 ^ len → (i2osp x len).length = len ∧ os2ip (i2osp x len) = x) ∧
  ∀ s : State, Memory.wf s.mem → s.keyValid = true → 1 ≤ s.expLen.toNat → s.expLen.toNat ≤ 512 →
    os2ip (bufBytes s .a (keyLen s)) < modulus s →
    ∃ t, exec .modexp s = .next t ∧ EndsWith .none s t ∧
      os2ip (bufBytes t .r (keyLen s)) =
        os2ip (bufBytes s .a (keyLen s)) ^ os2ip (bufBytes s .exp s.expLen.toNat) % modulus s ∧
      SameOutside s t 0xE00 (keyLen s) ∧ SameConfig s t ∧ SameKey s t ∧ SameContext s t ∧ SameHost s t ∧
      t.result = s.result

/-! ### The comparator (43_compare.md) -/

/-- R116, R118: CT_EQ is true exactly when the first L bytes agree; it is symmetric, and false for L implies false for
every larger L. -/
def Obligations.CtEqIsEquality : Prop :=
  ∀ (x y : List Byte) (len : Nat), len ≤ x.length → len ≤ y.length →
    (ctEq x y len = true ↔ x.take len = y.take len) ∧ ctEq x y len = ctEq y x len ∧
    (ctEq x y len = false → ∀ longer, len ≤ longer → longer ≤ x.length → longer ≤ y.length →
      ctEq x y longer = false)

/-- R117: CMP with L ≤ 512 completes: RESULT = 1 exactly when A_BUF[0..L) and R_BUF[0..L) agree byte by byte, which is
no error, and nothing else changes. -/
def Obligations.CmpComparesBuffers : Prop :=
  ∀ (s : State) (len : Nat), len ≤ 512 →
    ∃ t, exec (.cmp len) s = .next t ∧ EndsWith .none s t ∧
      (t.result = true ↔ ∀ j, j < len → Memory.read s.mem (0xC00 + j) = Memory.read s.mem (0xE00 + j)) ∧
      SameMemory s t ∧ SameConfig s t ∧ SameKey s t ∧ SameContext s t ∧ SameHost s t

/-! ### The sequenced operations (44_sequenced.md) -/

/-- R119: SIGN with a valid key large enough for the salt and 1 ≤ EXP_LEN ≤ 512 completes: A_BUF[0..k) is the padded EM,
R_BUF[0..k) is its d-th power mod n, and nothing else changes. -/
def Obligations.SignWritesSignature : Prop :=
  ∀ s : State, Memory.wf s.mem → KeyOk s → s.keyValid = true → 1 ≤ s.expLen.toNat → s.expLen.toNat ≤ 512 →
    emLen s.modBits.toNat ≥ 34 + s.slen.toNat →
    ∃ t, exec .sign s = .next t ∧ EndsWith .none s t ∧
      bufBytes t .a (keyLen s) = List.replicate (keyLen s - emLen s.modBits.toNat) 0#8 ++
        pssEnc (bufBytes s .digest 32) s.modBits.toNat (bufBytes s .salt s.slen.toNat) ∧
      os2ip (bufBytes t .r (keyLen s)) =
        os2ip (bufBytes t .a (keyLen s)) ^ os2ip (bufBytes s .exp s.expLen.toNat) % modulus s ∧
      (∀ a, (a < 0xC00 ∨ 0xC00 + keyLen s ≤ a) → (a < 0xE00 ∨ 0xE00 + keyLen s ≤ a) →
        Memory.read t.mem a = Memory.read s.mem a) ∧
      SameConfig s t ∧ SameKey s t ∧ SameContext s t ∧ SameHost s t ∧ t.result = s.result

/-- R119: SIGN is the same as PSS_ENCODE followed by MODEXP. -/
def Obligations.SignIsEncodeThenModexp : Prop :=
  ∀ s : State, Memory.wf s.mem → KeyOk s → s.keyValid = true → 1 ≤ s.expLen.toNat → s.expLen.toNat ≤ 512 →
    emLen s.modBits.toNat ≥ 34 + s.slen.toNat →
    ∃ t u, exec .pssEncode s = .next t ∧ exec .modexp t = .next u ∧ exec .sign s = .next u

/-- R120: VERIFY with a valid key, 1 ≤ EXP_LEN ≤ 512 and L ≠ 0 completes without error. RESULT is 1 exactly when L = k,
the key is large enough for the salt, the signature is below n, and PSS_CHECK passes on its e-th power mod n. R_BUF[0..k)
takes that power when the exponentiation runs; otherwise no byte changes. Nothing else changes. -/
def Obligations.VerifyGivesResult : Prop :=
  ∀ (s : State) (len : Nat), Memory.wf s.mem → s.keyValid = true → 1 ≤ s.expLen.toNat → s.expLen.toNat ≤ 512 →
    len ≠ 0 →
    let sig := os2ip (bufBytes s .a (keyLen s))
    let runs : Prop := len = keyLen s ∧ emLen s.modBits.toNat ≥ 34 + s.slen.toNat ∧ sig < modulus s
    let power := i2osp (sig ^ os2ip (bufBytes s .exp s.expLen.toNat) % modulus s) (keyLen s)
    ∃ t, exec (.verify len) s = .next t ∧ EndsWith .none s t ∧
      (runs → bufBytes t .r (keyLen s) = power ∧ SameOutside s t 0xE00 (keyLen s) ∧
        t.result = pssCheck (bufBytes s .digest 32) s.modBits.toNat s.slen.toNat power) ∧
      (¬runs → t.result = false ∧ SameMemory s t) ∧
      SameConfig s t ∧ SameKey s t ∧ SameContext s t ∧ SameHost s t

/-- R121: for an exponent pair that undoes itself modulo n (R115), SIGN with d, the signature copied to A_BUF and e
loaded by the host, then VERIFY with L = k and the same digest, salt length and key gives RESULT = 1. The premise on the
exponents stands for R115's key pairs, wider than they are (log entry 18). -/
def Obligations.SignThenVerify : Prop :=
  ∀ (s : State) (e : List Byte), Memory.wf s.mem → KeyOk s → s.keyValid = true →
    1 ≤ s.expLen.toNat → s.expLen.toNat ≤ 512 → 1 ≤ e.length → e.length ≤ 512 →
    emLen s.modBits.toNat ≥ 34 + s.slen.toNat →
    (∀ m, m < modulus s → (m ^ os2ip (bufBytes s .exp s.expLen.toNat)) ^ os2ip e % modulus s = m) →
    ∃ t u, exec .sign s = .next t ∧
      exec (.verify (keyLen s))
        { putBuf .exp e (putBuf .a (bufBytes t .r (keyLen s)) t) with expLen := BitVec.ofNat 16 e.length } = .next u ∧
      u.errCode = .none ∧ u.result = true

/-- R134: after VERIFY or PSS_VERIFY the host reads one of three outcomes: valid, invalid, or could not attempt; an
error never comes with RESULT = 1. -/
def Obligations.VerifyOutcomesAreDistinct : Prop :=
  ∀ (s t : State) (i : Instr), (i = .pssVerify ∨ ∃ len, i = .verify len) → exec i s = .next t →
    (t.errCode = .none ∧ t.result = true) ∨ (t.errCode = .none ∧ t.result = false) ∨
      (t.errCode ≠ .none ∧ t.result = false)

/-! ### The control commands (45_control.md) -/

/-- R125: NOP completes in every state with ERR_CODE = 0 and changes nothing else. -/
def Obligations.NopOnlyCompletes : Prop :=
  ∀ s : State, ∃ t, exec .nop s = .next t ∧ EndsWith .none s t ∧ SameConfig s t ∧ SameKey s t ∧ SameContext s t ∧
    SameHost s t ∧ SameMemory s t ∧ t.result = s.result

/-- R126, R152: ZEROIZE completes in every state: every buffer byte is 0x00, the context is as after reset, KEY_VALID,
MOD_BITS and RESULT are 0; SLEN, N_LEN, EXP_LEN and INT_EN keep their values, and INT_STATUS changes only by the
completion. -/
def Obligations.ZeroizeErases : Prop :=
  ∀ s : State, ∃ t, exec .zeroize s = .next t ∧ EndsWith .none s t ∧
    (∀ b i, i < Buf.size b → Memory.read t.mem (b.base + i) = 0#8) ∧
    t.hc = State.reset.hc ∧ t.blk = State.reset.blk ∧ t.total = State.reset.total ∧
    t.shaState = State.reset.shaState ∧ t.keyValid = State.reset.keyValid ∧ t.modBits = State.reset.modBits ∧
    t.result = State.reset.result ∧ SameConfig s t ∧ SameHost s t

/-! ### Rules about every command -/

/-- R136: the code each command reports: the first check of its row that fails. -/
def Obligations.FirstFailingCheckIsReported : Prop :=
  ∀ (s : State) (i : Instr), ∃ t, exec i s = .next t ∧ t.errCode =
    match i with
    | .nop | .shaInit | .zeroize => .none
    | .shaUpdate len =>
      if len > 256 then .len else if s.shaState ≠ .active then .misuse
      else if s.total.toNat + len > 2 ^ 61 - 1 then .lenOvf else .none
    | .shaFinal => if s.shaState ≠ .active then .misuse else .none
    | .mgf1 len | .cmp len => if len > 512 then .len else .none
    | .pssEncode =>
      if s.keyValid = false then .invalidKey
      else if emLen s.modBits.toNat < 34 + s.slen.toNat then .param else .none
    | .pssVerify => if s.keyValid = false then .invalidKey else .none
    | .keyLoad =>
      if s.nLen.toNat = 0 ∨ s.nLen.toNat > 512 then .len
      else if Memory.read s.mem 0x800 = 0#8 then .invalidKey
      else if modulus s % 2 = 0 ∨ modulus s = 1 then .invalidKey else .none
    | .modexp =>
      if s.expLen.toNat > 512 then .len else if s.keyValid = false ∨ s.expLen.toNat = 0 then .invalidKey
      else if os2ip (bufBytes s .a (keyLen s)) ≥ modulus s then .range else .none
    | .sign =>
      if s.expLen.toNat > 512 then .len else if s.keyValid = false ∨ s.expLen.toNat = 0 then .invalidKey
      else if emLen s.modBits.toNat < 34 + s.slen.toNat then .param else .none
    | .verify len =>
      if s.expLen.toNat > 512 then .len else if s.keyValid = false ∨ s.expLen.toNat = 0 then .invalidKey
      else if len = 0 then .malformedSig else .none

/-- R135: a command that ends in an error changes only ERR_CODE, BUSY, DONE and ERR, plus what its rule sets before its
first check: RESULT <- 0 for CMP, PSS_VERIFY and VERIFY; KEY_VALID and MOD_BITS <- 0 for KEY_LOAD. A BAD_CMD changes
nothing but the four completion updates. -/
def Obligations.ErrorsLeaveTheRest : Prop :=
  (∀ (s t : State) (i : Instr), exec i s = .next t → t.errCode ≠ .none →
    EndsWith t.errCode s t ∧ SameMemory s t ∧ SameContext s t ∧ SameConfig s t ∧ SameHost s t ∧
    (((∃ len, i = .cmp len ∨ i = .verify len) ∨ i = .pssVerify) → t.result = false) ∧
    (¬((∃ len, i = .cmp len ∨ i = .verify len) ∨ i = .pssVerify) → t.result = s.result) ∧
    (i = .keyLoad → t.keyValid = false ∧ t.modBits = 0#13) ∧ (i ≠ .keyLoad → SameKey s t)) ∧
  (∀ (s : State) (x : DecodeError) (rest : List Event), s.busy = true → s.agenda = .engine :: rest →
    decode s.cmdPend = .error x →
    ∃ t, step s = .next t ∧ EndsWith .badCmd s t ∧ SameMemory s t ∧ SameContext s t ∧ SameConfig s t ∧ SameKey s t ∧
      t.resp = s.resp ∧ t.agenda = rest ∧ t.result = s.result)

/-- R23, R24, R47: only CMP, PSS_VERIFY, VERIFY and ZEROIZE write RESULT; only KEY_LOAD sets KEY_VALID, only KEY_LOAD
and ZEROIZE clear it; only SHA_INIT, SHA_FINAL and ZEROIZE write SHA_STATE. -/
def Obligations.FlagWriters : Prop :=
  ∀ (s t : State) (i : Instr), exec i s = .next t →
    (t.result ≠ s.result → (∃ len, i = .cmp len ∨ i = .verify len) ∨ i = .pssVerify ∨ i = .zeroize) ∧
    (t.keyValid = true → s.keyValid = false → i = .keyLoad ∧ t.errCode = .none) ∧
    (t.keyValid = false → s.keyValid = true → i = .keyLoad ∨ i = .zeroize) ∧
    (t.shaState ≠ s.shaState → i = .shaInit ∨ i = .shaFinal ∨ i = .zeroize)

/-- R33: INT_STATUS and INT_EN do not gate anything: a command runs and completes the same way whatever they hold. -/
def Obligations.InterruptsDoNotGateCommands : Prop :=
  ∀ (s t : State) (i : Instr) (st en : BitVec 3), exec i s = .next t →
    ∃ x, exec i { s with intStatus := st, intEn := en } = .next { t with intStatus := x, intEn := en } ∧
      x.getLsbD 0 = true ∧ x.getLsbD 1 = (st.getLsbD 1 || decide (t.errCode ≠ .none)) ∧
      x.getLsbD 2 = st.getLsbD 2

/-- R54: MGF1, PSS_ENCODE, PSS_VERIFY, SIGN and VERIFY never read or change the host SHA context: from any other context
they do the same and leave that context. -/
def Obligations.InternalHashingLeavesHostContext : Prop :=
  ∀ (s t : State) (i : Instr) (hc : HashWords) (blk : List Byte) (total : BitVec 61) (x : ShaState),
    ((∃ len, i = .mgf1 len ∨ i = .verify len) ∨ i = .pssEncode ∨ i = .pssVerify ∨ i = .sign) →
    exec i s = .next t →
    SameContext s t ∧
      exec i { s with hc := hc, blk := blk, total := total, shaState := x } =
        .next { t with hc := hc, blk := blk, total := total, shaState := x }

/-! ### Rules about every step -/

/-- R55, R149: no rule reads CMD_PEND while BUSY = 0: from any other value of it the step is the same, but for CMD_PEND
itself. -/
def Obligations.IdleCmdPendIsNotRead : Prop :=
  ∀ (s t : State) (v : Word), s.busy = false → step s = .next t →
    ∃ w, step { s with cmdPend := v } = .next { t with cmdPend := w } ∧ (t.busy = true → w = t.cmdPend)

/-- R97 with I14: outside ACTIVE nothing reads Hc and BLK: from any other values of them the step is the same, but for Hc
and BLK themselves, and not even those once the context is ACTIVE again. So no claim can rest on the free values that
SHA_FINAL leaves. -/
def Obligations.ClosedContextIsNotRead : Prop :=
  ∀ (s t : State) (hc : HashWords) (blk : List Byte), s.shaState ≠ .active → step s = .next t →
    ∃ hc' blk', step { s with hc := hc, blk := blk } = .next { t with hc := hc', blk := blk' } ∧
      (t.shaState = .active → hc' = t.hc ∧ blk' = t.blk)

/-- R49, R110, R53: the reset state is legal. -/
def Obligations.ResetIsLegal : Prop := Inv State.reset

/-- R24, R40, R49, R53, R110: every step keeps a legal state legal: the memory stays canonical and inside the buffers,
the key registers stay consistent with N_BUF, and the SHA context stays consistent with its count. -/
def Obligations.StepKeepsLegalStates : Prop := ∀ s t : State, Inv s → step s = .next t → Inv t
end

