-- ==== Sys2Proof/Laws/Bytes.lean ====
section
/-! SUPPORT. The laws of byte strings and integers (00_scope.md R10): lengths, bounds, and that OS2IP and I2OSP undo
each other. -/

namespace Sys2Proof.Machine

@[simp] theorem i2osp_length (x len : Nat) : (i2osp x len).length = len := by simp [i2osp]

@[simp] theorem zeroBytes_length (n : Nat) : (zeroBytes n).length = n := by simp [zeroBytes]

@[simp] theorem xorBytes_length (x y : List Byte) : (xorBytes x y).length = min x.length y.length := by
  simp [xorBytes]

@[simp] theorem wordBytes_length (v : Word) : (wordBytes v).length = 4 := rfl

@[simp] theorem os2ip_nil : os2ip [] = 0 := rfl

/-- OS2IP of a string with one more byte at its end. -/
theorem os2ip_snoc (bs : List Byte) (b : Byte) : os2ip (bs ++ [b]) = os2ip bs * 256 + b.toNat := by simp [os2ip]

/-- OS2IP of two strings joined. -/
theorem os2ip_append (xs ys : List Byte) : os2ip (xs ++ ys) = os2ip xs * 256 ^ ys.length + os2ip ys := by
  induction ys using List.reverseRecOn with
  | nil => simp
  | append_singleton ys b ih =>
    rw [← List.append_assoc, os2ip_snoc, os2ip_snoc, ih, List.length_append, List.length_singleton, pow_succ]
    ring

/-- The integer of a byte string fits its length. -/
theorem os2ip_lt (bs : List Byte) : os2ip bs < 256 ^ bs.length := by
  induction bs using List.reverseRecOn with
  | nil => simp
  | append_singleton bs b ih =>
    have := b.isLt
    rw [os2ip_snoc, List.length_append, List.length_singleton, pow_succ]
    omega

/-- Leading zero bytes do not change the integer. -/
@[simp] theorem os2ip_zeroBytes_append (n : Nat) (bs : List Byte) : os2ip (zeroBytes n ++ bs) = os2ip bs := by
  have h : os2ip (zeroBytes n) = 0 := by
    induction n with
    | zero => rfl
    | succ n ih =>
      rw [zeroBytes, List.replicate_succ', os2ip_snoc]
      simp only [zeroBytes] at ih
      simp [ih]
  rw [os2ip_append, h]
  simp

/-- I2OSP with one more byte: the low byte comes last. -/
theorem i2osp_succ (x len : Nat) : i2osp x (len + 1) = i2osp (x / 256) len ++ [BitVec.ofNat 8 x] := by
  rw [i2osp, List.range_succ, List.map_append, i2osp]
  congr 1
  · apply List.map_congr_left
    intro i hi
    have hi := List.mem_range.mp hi
    rw [Nat.div_div_eq_div_mul, ← pow_succ', show len - 1 - i + 1 = len + 1 - 1 - i by omega]
  · simp

/-- OS2IP undoes I2OSP on an integer that fits. -/
theorem os2ip_i2osp {x len : Nat} (h : x < 256 ^ len) : os2ip (i2osp x len) = x := by
  induction len generalizing x with
  | zero => simp at h; simp [h, i2osp]
  | succ len ih =>
    rw [i2osp_succ, os2ip_snoc, ih (by rw [pow_succ] at h; omega)]
    simp only [BitVec.toNat_ofNat]
    omega

/-- I2OSP undoes OS2IP at the string's own length. -/
theorem i2osp_os2ip (bs : List Byte) : i2osp (os2ip bs) bs.length = bs := by
  induction bs using List.reverseRecOn with
  | nil => rfl
  | append_singleton bs b ih =>
    have hb := b.isLt
    rw [List.length_append, List.length_singleton, i2osp_succ, os2ip_snoc,
      show (os2ip bs * 256 + b.toNat) / 256 = os2ip bs by omega, ih]
    congr 2
    apply BitVec.eq_of_toNat_eq
    simp only [BitVec.toNat_ofNat]
    omega

/-- A word is the big-endian integer of its four bytes. -/
theorem bytesWord_wordBytes (v : Word) : bytesWord (wordBytes v) = v := by
  apply BitVec.eq_of_toNat_eq
  have := v.isLt
  simp [bytesWord, wordBytes, os2ip, Nat.shiftRight_eq_div_pow]
  omega

/-- XOR with the same string twice, where it is as long, gives the first string back. -/
theorem xorBytes_xorBytes {x k : List Byte} (h : x.length = k.length) : xorBytes (xorBytes x k) k = x := by
  apply List.ext_getElem
  · simp [h]
  · intro i h1 h2
    simp [xorBytes]

end Sys2Proof.Machine
end

