-- ==== Sys2Proof/Laws/Hash.lean ====
section
/-! SUPPORT. The laws of the hash (40_sha256.md) and of the masks built on it (41_pss.md): lengths, and that absorbing
is incremental. -/

namespace Sys2Proof.Machine

/-! ### Absorbing -/

/-- Short input is left as it is. -/
theorem absorb_short {h : HashWords} {bs : List Byte} (hl : bs.length < 64) : absorb h bs = (h, bs) := by
  rw [absorb, show bs.length / 64 = 0 by omega, absorbFuel]

/-- One block is compressed and absorbing goes on. -/
theorem absorb_long {h : HashWords} {bs : List Byte} (hl : 64 ≤ bs.length) :
    absorb h bs = absorb (compress h (bs.take 64)) (bs.drop 64) := by
  rw [absorb, absorb, show bs.length / 64 = (bs.drop 64).length / 64 + 1 by simp only [List.length_drop]; omega,
    absorbFuel, if_pos hl]

/-- What is left over is the length modulo 64, so fewer than 64 bytes. -/
theorem absorb_rest_length (h : HashWords) (bs : List Byte) : (absorb h bs).2.length = bs.length % 64 := by
  induction hn : bs.length using Nat.strong_induction_on generalizing h bs with
  | _ n ih =>
    by_cases hl : bs.length < 64
    · rw [absorb_short hl]; simp only; omega
    · rw [absorb_long (by omega), ih (bs.length - 64) (by omega) _ _ (by simp)]
      omega

/-- R94: absorbing two strings joined is absorbing the first, then what it left with the second. -/
theorem absorb_append (h : HashWords) (xs ys : List Byte) :
    absorb h (xs ++ ys) = absorb (absorb h xs).1 ((absorb h xs).2 ++ ys) := by
  induction hn : xs.length using Nat.strong_induction_on generalizing h xs with
  | _ n ih =>
    by_cases hl : xs.length < 64
    · rw [absorb_short hl]
    · have hl : 64 ≤ xs.length := by omega
      rw [absorb_long (bs := xs ++ ys) (by simp; omega), absorb_long hl,
        List.take_append_of_le_length hl, List.drop_append_of_le_length hl,
        ih (xs.length - 64) (by omega) _ _ (by simp)]

/-! ### The schedule -/

/-- R89: ROTR is the rotation of bit vectors. -/
theorem rotr_eq_rotateRight {n : Nat} (x : Word) (h : n < 32) : rotr n x = x.rotateRight n := by
  rw [BitVec.rotateRight_def, Nat.mod_eq_of_lt h]
  rfl

theorem blockWords_length (n : Nat) (b : List Byte) : (blockWords n b).length = n := by
  induction n generalizing b with
  | zero => rfl
  | succ n ih => simp [blockWords, ih]

/-- R91: word `t` of a block is its bytes 4t to 4t+3. -/
theorem blockWords_getD {n t : Nat} (b : List Byte) (h : t < n) :
    (blockWords n b).getD t 0#32 = bytesWord ((b.drop (4 * t)).take 4) := by
  induction n generalizing b t with
  | zero => omega
  | succ n ih =>
    cases t with
    | zero => simp [blockWords]
    | succ t =>
      rw [blockWords, List.getD_cons_succ, ih (b.drop 4) (by omega), List.drop_drop,
        show 4 + 4 * t = 4 * (t + 1) by omega]

/-- What extending the schedule by `n` words gives, newest first: `n` words more, the old words behind them, and R91's
recurrence in each new one. -/
theorem extendSchedule_spec (n : Nat) {ws : List Word} (hws : 16 ≤ ws.length) :
    (extendSchedule n ws).length = ws.length + n ∧
    (∀ i, (extendSchedule n ws).getD (n + i) 0#32 = ws.getD i 0#32) ∧
    ∀ j, j < n → (extendSchedule n ws).getD j 0#32 =
      smallSigma1 ((extendSchedule n ws).getD (j + 2) 0#32) + (extendSchedule n ws).getD (j + 7) 0#32 +
        smallSigma0 ((extendSchedule n ws).getD (j + 15) 0#32) + (extendSchedule n ws).getD (j + 16) 0#32 := by
  induction n generalizing ws with
  | zero => simp [extendSchedule]
  | succ n ih =>
    simp only [extendSchedule]
    generalize hx : smallSigma1 (ws.getD 1 0#32) + ws.getD 6 0#32 + smallSigma0 (ws.getD 14 0#32) +
      ws.getD 15 0#32 = x
    obtain ⟨hl, hold, hnew⟩ := ih (ws := x :: ws) (by simp; omega)
    refine ⟨by rw [hl]; simp; omega, fun i => ?_, fun j hj => ?_⟩
    · rw [show n + 1 + i = n + (i + 1) by omega, hold, List.getD_cons_succ]
    · by_cases hjn : j < n
      · exact hnew j hjn
      · obtain rfl : j = n := by omega
        have h0 := hold 0
        rw [Nat.add_zero] at h0
        rw [h0, hold 2, hold 7, hold 15, hold 16, ← hx]
        simp

/-! ### Lengths -/

@[simp] theorem hashBytes_length (h : HashWords) : (hashBytes h).length = 32 := by simp [hashBytes]

@[simp] theorem sha256_length (m : List Byte) : (sha256 m).length = 32 := hashBytes_length _

/-- R90: what padding adds. -/
theorem padTail_length (l : Nat) : (padTail l).length = 9 + (119 - l % 64) % 64 := by
  simp [padTail]; omega

/-- A mask before its truncation: whole digests. -/
theorem mgf1_blocks_length (seed : List Byte) (n : Nat) :
    ((List.range n).flatMap fun c => sha256 (seed ++ i2osp c 4)).length = n * 32 := by
  rw [List.length_flatMap]; simp

/-- R100: a mask has the length asked for. -/
@[simp] theorem mgf1_length (seed : List Byte) (len : Nat) : (mgf1 seed len).length = len := by
  rw [mgf1, List.length_take, mgf1_blocks_length]; omega

@[simp] theorem clearTop_length (zb : Nat) (bs : List Byte) : (clearTop zb bs).length = bs.length := by
  cases bs <;> rfl

/-- R104: the length check leaves room for DB, H and the trailer. -/
theorem emLen_of_saltFits {modBits saltLen : Nat} (h : saltTooLong modBits saltLen = false) :
    saltLen + 34 ≤ emLen modBits := by
  have h := of_decide_eq_false h
  simp only [Config.hLen] at h
  omega

theorem pssDb_length {modBits : Nat} {salt : List Byte} (h : saltTooLong modBits salt.length = false) :
    (pssDb modBits salt).length = emLen modBits - 33 := by
  have := emLen_of_saltFits h
  simp [pssDb, Config.hLen]; omega

/-- R104: PSS_ENC gives emLen bytes. -/
theorem pssEnc_length {mHash : List Byte} {modBits : Nat} {salt : List Byte}
    (h : saltTooLong modBits salt.length = false) : (pssEnc mHash modBits salt).length = emLen modBits := by
  have := emLen_of_saltFits h
  simp only [pssEnc, List.length_append, clearTop_length, xorBytes_length, pssDb_length h, mgf1_length, sha256_length,
    List.length_singleton, Config.hLen]
  omega

/-- R105: the padded EM has k bytes. -/
theorem pssBlock_length {mHash : List Byte} {modBits k : Nat} {salt : List Byte}
    (h : saltTooLong modBits salt.length = false) (hk : emLen modBits ≤ k) :
    (pssBlock mHash modBits salt k).length = k := by
  rw [pssBlock, List.length_append, pssEnc_length h, zeroBytes_length]; omega

end Sys2Proof.Machine
end

