-- ==== Sys2Proof/Laws/Memory.lean ====
section
/-! SUPPORT. The laws of the buffer memory: what a byte reads as after a write, and that every memory operation keeps
the canonical form and adds no cell outside what it writes. -/

namespace Sys2Proof.Machine

/-! ### One byte -/

@[simp] theorem Memory.read_nil (a : Nat) : Memory.read [] a = unlistedByte := rfl

theorem Memory.read_cons (c : Host.Cell) (m : Memory) (a : Nat) :
    Memory.read (c :: m) a = if c.1 = a then c.2 else Memory.read m a := rfl

/-- An address no cell has reads as unlisted. -/
theorem Memory.read_of_absent {m : Memory} {a : Nat} (h : ∀ c ∈ m, c.1 ≠ a) : Memory.read m a = unlistedByte := by
  induction m with
  | nil => rfl
  | cons c m ih =>
    rw [Memory.read_cons, if_neg (h c (by simp))]
    exact ih fun d hd => h d (by simp [hd])

/-- A write leaves every other byte. -/
theorem Memory.read_write_other {m : Memory} {a b : Nat} (v : Byte) (h : b ≠ a) :
    Memory.read (Memory.write m a v) b = Memory.read m b := by
  induction m with
  | nil => by_cases hv : v = unlistedByte <;> simp [Memory.write, Memory.read, hv, Ne.symm h]
  | cons c m ih =>
    rw [Memory.write]
    split
    · rw [Memory.read_cons, Memory.read_cons, ih]
    · split
      · next hc =>
        have : c.1 ≠ b := fun e => h (by omega)
        split <;> simp [Memory.read_cons, this, Ne.symm h]
      · split <;> simp [Memory.read_cons, Ne.symm h]

/-- A read after a write to the same place gives the value written. -/
theorem Memory.read_write_same {m : Memory} (a : Nat) (v : Byte) (hm : Memory.wf m) :
    Memory.read (Memory.write m a v) a = v := by
  induction m with
  | nil => by_cases hv : v = unlistedByte <;> simp [Memory.write, Memory.read, hv]
  | cons c m ih =>
    obtain ⟨hs, hz⟩ := hm
    have hs' := List.pairwise_cons.mp hs
    have hm' : Memory.wf m := ⟨hs'.2, fun d hd => hz d (by simp [hd])⟩
    rw [Memory.write]
    split
    · next hc => rw [Memory.read_cons, if_neg (by omega), ih hm']
    · next hc =>
      split
      · next he =>
        split
        · next hv => rw [hv]; exact Memory.read_of_absent fun d hd => by have := hs'.1 d hd; omega
        · simp [Memory.read_cons]
      · next hne =>
        split
        · next hv =>
          rw [hv, Memory.read_cons, if_neg hne]
          exact Memory.read_of_absent fun d hd => by have := hs'.1 d hd; omega
        · simp [Memory.read_cons]

/-! ### The canonical form -/

/-- A cell after a write is an old cell or the one written. -/
theorem Memory.mem_write {m : Memory} {a : Nat} {v : Byte} {c : Host.Cell} (h : c ∈ Memory.write m a v) :
    c ∈ m ∨ (c = (a, v) ∧ v ≠ unlistedByte) := by
  induction m with
  | nil =>
    rw [Memory.write] at h
    split at h
    · simp at h
    · next hv => simp at h; exact .inr ⟨h, hv⟩
  | cons d m ih =>
    rw [Memory.write] at h
    split at h
    · rcases List.mem_cons.mp h with h | h
      · exact .inl (by simp [h])
      · rcases ih h with h | h
        · exact .inl (by simp [h])
        · exact .inr h
    · split at h
      · split at h
        · exact .inl (by simp [h])
        · next hv =>
          rcases List.mem_cons.mp h with h | h
          · exact .inr ⟨h, hv⟩
          · exact .inl (by simp [h])
      · split at h
        · exact .inl h
        · next hv =>
          rcases List.mem_cons.mp h with h | h
          · exact .inr ⟨h, hv⟩
          · exact .inl h

/-- A write keeps the canonical form. -/
theorem Memory.wf_write {m : Memory} (a : Nat) (v : Byte) (hm : Memory.wf m) : Memory.wf (Memory.write m a v) := by
  refine ⟨?_, fun c hc => ?_⟩
  · induction m with
    | nil => rw [Memory.write]; split <;> simp
    | cons c m ih =>
      obtain ⟨hs, hz⟩ := hm
      have hs' := List.pairwise_cons.mp hs
      have hm' : Memory.wf m := ⟨hs'.2, fun d hd => hz d (by simp [hd])⟩
      rw [Memory.write]
      split
      · next hc =>
        refine List.pairwise_cons.mpr ⟨fun d hd => ?_, ih hm'⟩
        rcases Memory.mem_write hd with hd | ⟨rfl, -⟩
        · exact hs'.1 d hd
        · exact hc
      · next hc =>
        split
        · next he =>
          split
          · exact hs'.2
          · exact List.pairwise_cons.mpr ⟨fun d hd => by have := hs'.1 d hd; simp only; omega, hs'.2⟩
        · next hne =>
          split
          · exact hs
          · refine List.pairwise_cons.mpr ⟨fun d hd => ?_, hs⟩
            rcases List.mem_cons.mp hd with rfl | hd
            · simp only; omega
            · have := hs'.1 d hd; simp only; omega
  · rcases Memory.mem_write hc with hc | ⟨rfl, hv⟩
    · exact hm.2 c hc
    · exact hv

/-! ### Byte strings -/

@[simp] theorem Memory.readBytes_length (m : Memory) (a len : Nat) : (Memory.readBytes m a len).length = len := by
  simp [Memory.readBytes]

/-- Byte `i` of a byte string read from memory. -/
theorem Memory.readBytes_getElem {m : Memory} {a len i : Nat} (h : i < (Memory.readBytes m a len).length) :
    (Memory.readBytes m a len)[i] = Memory.read m (a + i) := by
  simp [Memory.readBytes]

/-- Two memories that agree on the bytes read give the same byte string. -/
theorem Memory.readBytes_congr {m m' : Memory} {a len : Nat}
    (h : ∀ i, i < len → Memory.read m (a + i) = Memory.read m' (a + i)) :
    Memory.readBytes m a len = Memory.readBytes m' a len := by
  apply List.map_congr_left
  intro i hi
  exact h i (List.mem_range.mp hi)

theorem Memory.wf_writeBytes {m : Memory} (a : Nat) (bs : List Byte) (hm : Memory.wf m) :
    Memory.wf (Memory.writeBytes m a bs) := by
  induction bs generalizing m a with
  | nil => exact hm
  | cons b bs ih => exact ih (a + 1) (Memory.wf_write a b hm)

/-- Writing a byte string leaves every byte outside it. -/
theorem Memory.read_writeBytes_outside {m : Memory} {a b : Nat} (bs : List Byte) (h : b < a ∨ a + bs.length ≤ b) :
    Memory.read (Memory.writeBytes m a bs) b = Memory.read m b := by
  induction bs generalizing m a with
  | nil => rfl
  | cons x bs ih =>
    simp only [List.length_cons] at h
    rw [Memory.writeBytes, ih (by omega), Memory.read_write_other _ (by omega)]

/-- Byte `i` of a byte string just written. -/
theorem Memory.read_writeBytes_inside {m : Memory} {a i : Nat} {bs : List Byte} (hm : Memory.wf m)
    (h : i < bs.length) : Memory.read (Memory.writeBytes m a bs) (a + i) = bs[i] := by
  induction bs generalizing m a i with
  | nil => simp at h
  | cons x bs ih =>
    rw [Memory.writeBytes]
    cases i with
    | zero =>
      rw [Memory.read_writeBytes_outside bs (by omega), Nat.add_zero, Memory.read_write_same a x hm]; rfl
    | succ i =>
      have := ih (m := Memory.write m a x) (a := a + 1) (i := i) (Memory.wf_write a x hm) (by simpa using h)
      rw [show a + (i + 1) = a + 1 + i by omega, this]; rfl

/-- A byte string reads back as it was written. -/
theorem Memory.readBytes_writeBytes {m : Memory} (a : Nat) (bs : List Byte) (hm : Memory.wf m) :
    Memory.readBytes (Memory.writeBytes m a bs) a bs.length = bs := by
  apply List.ext_getElem
  · simp
  · intro i h1 h2
    rw [Memory.readBytes_getElem, Memory.read_writeBytes_inside hm h2]

/-- A byte string apart from the one written reads as before. -/
theorem Memory.readBytes_writeBytes_apart {m : Memory} {a b len : Nat} (bs : List Byte)
    (h : b + len ≤ a ∨ a + bs.length ≤ b) :
    Memory.readBytes (Memory.writeBytes m a bs) b len = Memory.readBytes m b len :=
  Memory.readBytes_congr fun i hi => Memory.read_writeBytes_outside bs (by omega)

/-- A cell after writing a byte string is an old cell or lies inside the string. -/
theorem Memory.mem_writeBytes {m : Memory} {a : Nat} {bs : List Byte} {c : Host.Cell}
    (h : c ∈ Memory.writeBytes m a bs) : c ∈ m ∨ (a ≤ c.1 ∧ c.1 < a + bs.length) := by
  induction bs generalizing m a with
  | nil => exact .inl h
  | cons b bs ih =>
    rcases ih h with h | h
    · rcases Memory.mem_write h with h | ⟨rfl, -⟩
      · exact .inl h
      · exact .inr (by simp)
    · exact .inr (by simp only [List.length_cons]; omega)

/-! ### Zeroing -/

theorem Memory.wf_zero {m : Memory} (a len : Nat) (hm : Memory.wf m) : Memory.wf (Memory.zero m a len) :=
  ⟨hm.1.filter _, fun c hc => hm.2 c (List.mem_filter.mp hc).1⟩

theorem Memory.mem_zero {m : Memory} {a len : Nat} {c : Host.Cell} :
    c ∈ Memory.zero m a len ↔ c ∈ m ∧ ¬(a ≤ c.1 ∧ c.1 < a + len) := by
  simp only [Memory.zero, List.mem_filter, Bool.not_eq_true', Bool.and_eq_false_iff, decide_eq_false_iff_not]
  exact and_congr_right fun _ => by omega

/-- Zeroing leaves every byte outside its range. -/
theorem Memory.read_zero_outside {m : Memory} {a len b : Nat} (h : b < a ∨ a + len ≤ b) :
    Memory.read (Memory.zero m a len) b = Memory.read m b := by
  induction m with
  | nil => rfl
  | cons c m ih =>
    rw [Memory.zero, List.filter_cons]
    split
    · rw [Memory.read_cons, Memory.read_cons, ← ih]; rfl
    · next hc =>
      have : c.1 ≠ b := by rintro rfl; simp at hc; omega
      rw [Memory.read_cons, if_neg this, ← ih]; rfl

/-- Zeroed bytes read 0x00. -/
theorem Memory.read_zero_inside {m : Memory} {a len b : Nat} (h : a ≤ b ∧ b < a + len) :
    Memory.read (Memory.zero m a len) b = unlistedByte :=
  Memory.read_of_absent fun _ hc e => (Memory.mem_zero.mp hc).2 (e ▸ h)

end Sys2Proof.Machine
end

