-- ==== Sys2Proof/Laws/State.lean ====
section
/-! SUPPORT. One lemma per field per update of State, true by rfl, so that no later proof unfolds a record update. -/

namespace Sys2Proof.Machine

/-! ### complete (R130) -/

@[simp] theorem complete_slen (e : ErrCode) (s : State) : (complete e s).slen = s.slen := rfl
@[simp] theorem complete_nLen (e : ErrCode) (s : State) : (complete e s).nLen = s.nLen := rfl
@[simp] theorem complete_expLen (e : ErrCode) (s : State) : (complete e s).expLen = s.expLen := rfl
@[simp] theorem complete_modBits (e : ErrCode) (s : State) : (complete e s).modBits = s.modBits := rfl
@[simp] theorem complete_keyValid (e : ErrCode) (s : State) : (complete e s).keyValid = s.keyValid := rfl
@[simp] theorem complete_result (e : ErrCode) (s : State) : (complete e s).result = s.result := rfl
@[simp] theorem complete_shaState (e : ErrCode) (s : State) : (complete e s).shaState = s.shaState := rfl
@[simp] theorem complete_errCode (e : ErrCode) (s : State) : (complete e s).errCode = e := rfl
@[simp] theorem complete_intStatus (e : ErrCode) (s : State) :
    (complete e s).intStatus = s.intStatus ||| completionBits e := rfl
@[simp] theorem complete_intEn (e : ErrCode) (s : State) : (complete e s).intEn = s.intEn := rfl
@[simp] theorem complete_busy (e : ErrCode) (s : State) : (complete e s).busy = false := rfl
@[simp] theorem complete_cmdPend (e : ErrCode) (s : State) : (complete e s).cmdPend = s.cmdPend := rfl
@[simp] theorem complete_mem (e : ErrCode) (s : State) : (complete e s).mem = s.mem := rfl
@[simp] theorem complete_hc (e : ErrCode) (s : State) : (complete e s).hc = s.hc := rfl
@[simp] theorem complete_blk (e : ErrCode) (s : State) : (complete e s).blk = s.blk := rfl
@[simp] theorem complete_total (e : ErrCode) (s : State) : (complete e s).total = s.total := rfl
@[simp] theorem complete_agenda (e : ErrCode) (s : State) : (complete e s).agenda = s.agenda := rfl
@[simp] theorem complete_resp (e : ErrCode) (s : State) : (complete e s).resp = s.resp := rfl
@[simp] theorem complete_free (e : ErrCode) (s : State) : (complete e s).free = s.free := rfl

/-! ### accept (R129) -/

@[simp] theorem accept_slen (v : Word) (s : State) : (accept v s).slen = s.slen := rfl
@[simp] theorem accept_nLen (v : Word) (s : State) : (accept v s).nLen = s.nLen := rfl
@[simp] theorem accept_expLen (v : Word) (s : State) : (accept v s).expLen = s.expLen := rfl
@[simp] theorem accept_modBits (v : Word) (s : State) : (accept v s).modBits = s.modBits := rfl
@[simp] theorem accept_keyValid (v : Word) (s : State) : (accept v s).keyValid = s.keyValid := rfl
@[simp] theorem accept_result (v : Word) (s : State) : (accept v s).result = s.result := rfl
@[simp] theorem accept_shaState (v : Word) (s : State) : (accept v s).shaState = s.shaState := rfl
@[simp] theorem accept_errCode (v : Word) (s : State) : (accept v s).errCode = s.errCode := rfl
@[simp] theorem accept_intStatus (v : Word) (s : State) : (accept v s).intStatus = s.intStatus := rfl
@[simp] theorem accept_intEn (v : Word) (s : State) : (accept v s).intEn = s.intEn := rfl
@[simp] theorem accept_busy (v : Word) (s : State) : (accept v s).busy = true := rfl
@[simp] theorem accept_cmdPend (v : Word) (s : State) : (accept v s).cmdPend = v := rfl
@[simp] theorem accept_mem (v : Word) (s : State) : (accept v s).mem = s.mem := rfl
@[simp] theorem accept_hc (v : Word) (s : State) : (accept v s).hc = s.hc := rfl
@[simp] theorem accept_blk (v : Word) (s : State) : (accept v s).blk = s.blk := rfl
@[simp] theorem accept_total (v : Word) (s : State) : (accept v s).total = s.total := rfl
@[simp] theorem accept_agenda (v : Word) (s : State) : (accept v s).agenda = s.agenda := rfl
@[simp] theorem accept_resp (v : Word) (s : State) : (accept v s).resp = s.resp := rfl
@[simp] theorem accept_free (v : Word) (s : State) : (accept v s).free = s.free := rfl

/-! ### dropWrite (R67) -/

@[simp] theorem dropWrite_slen (s : State) : (dropWrite s).slen = s.slen := rfl
@[simp] theorem dropWrite_nLen (s : State) : (dropWrite s).nLen = s.nLen := rfl
@[simp] theorem dropWrite_expLen (s : State) : (dropWrite s).expLen = s.expLen := rfl
@[simp] theorem dropWrite_modBits (s : State) : (dropWrite s).modBits = s.modBits := rfl
@[simp] theorem dropWrite_keyValid (s : State) : (dropWrite s).keyValid = s.keyValid := rfl
@[simp] theorem dropWrite_result (s : State) : (dropWrite s).result = s.result := rfl
@[simp] theorem dropWrite_shaState (s : State) : (dropWrite s).shaState = s.shaState := rfl
@[simp] theorem dropWrite_errCode (s : State) : (dropWrite s).errCode = s.errCode := rfl
@[simp] theorem dropWrite_intStatus (s : State) : (dropWrite s).intStatus = s.intStatus ||| ovrBit := rfl
@[simp] theorem dropWrite_intEn (s : State) : (dropWrite s).intEn = s.intEn := rfl
@[simp] theorem dropWrite_busy (s : State) : (dropWrite s).busy = s.busy := rfl
@[simp] theorem dropWrite_cmdPend (s : State) : (dropWrite s).cmdPend = s.cmdPend := rfl
@[simp] theorem dropWrite_mem (s : State) : (dropWrite s).mem = s.mem := rfl
@[simp] theorem dropWrite_hc (s : State) : (dropWrite s).hc = s.hc := rfl
@[simp] theorem dropWrite_blk (s : State) : (dropWrite s).blk = s.blk := rfl
@[simp] theorem dropWrite_total (s : State) : (dropWrite s).total = s.total := rfl
@[simp] theorem dropWrite_agenda (s : State) : (dropWrite s).agenda = s.agenda := rfl
@[simp] theorem dropWrite_resp (s : State) : (dropWrite s).resp = s.resp := rfl
@[simp] theorem dropWrite_free (s : State) : (dropWrite s).free = s.free := rfl

/-! ### dropKey (R37, R51) -/

@[simp] theorem dropKey_slen (s : State) : (dropKey s).slen = s.slen := rfl
@[simp] theorem dropKey_nLen (s : State) : (dropKey s).nLen = s.nLen := rfl
@[simp] theorem dropKey_expLen (s : State) : (dropKey s).expLen = s.expLen := rfl
@[simp] theorem dropKey_modBits (s : State) : (dropKey s).modBits = 0#13 := rfl
@[simp] theorem dropKey_keyValid (s : State) : (dropKey s).keyValid = false := rfl
@[simp] theorem dropKey_result (s : State) : (dropKey s).result = s.result := rfl
@[simp] theorem dropKey_shaState (s : State) : (dropKey s).shaState = s.shaState := rfl
@[simp] theorem dropKey_errCode (s : State) : (dropKey s).errCode = s.errCode := rfl
@[simp] theorem dropKey_intStatus (s : State) : (dropKey s).intStatus = s.intStatus := rfl
@[simp] theorem dropKey_intEn (s : State) : (dropKey s).intEn = s.intEn := rfl
@[simp] theorem dropKey_busy (s : State) : (dropKey s).busy = s.busy := rfl
@[simp] theorem dropKey_cmdPend (s : State) : (dropKey s).cmdPend = s.cmdPend := rfl
@[simp] theorem dropKey_mem (s : State) : (dropKey s).mem = s.mem := rfl
@[simp] theorem dropKey_hc (s : State) : (dropKey s).hc = s.hc := rfl
@[simp] theorem dropKey_blk (s : State) : (dropKey s).blk = s.blk := rfl
@[simp] theorem dropKey_total (s : State) : (dropKey s).total = s.total := rfl
@[simp] theorem dropKey_agenda (s : State) : (dropKey s).agenda = s.agenda := rfl
@[simp] theorem dropKey_resp (s : State) : (dropKey s).resp = s.resp := rfl
@[simp] theorem dropKey_free (s : State) : (dropKey s).free = s.free := rfl

/-! ### putBuf (R11, R50) -/

@[simp] theorem putBuf_slen (b : Buf) (bs : List Byte) (s : State) : (putBuf b bs s).slen = s.slen := rfl
@[simp] theorem putBuf_nLen (b : Buf) (bs : List Byte) (s : State) : (putBuf b bs s).nLen = s.nLen := rfl
@[simp] theorem putBuf_expLen (b : Buf) (bs : List Byte) (s : State) : (putBuf b bs s).expLen = s.expLen := rfl
@[simp] theorem putBuf_modBits (b : Buf) (bs : List Byte) (s : State) : (putBuf b bs s).modBits = s.modBits := rfl
@[simp] theorem putBuf_keyValid (b : Buf) (bs : List Byte) (s : State) : (putBuf b bs s).keyValid = s.keyValid := rfl
@[simp] theorem putBuf_result (b : Buf) (bs : List Byte) (s : State) : (putBuf b bs s).result = s.result := rfl
@[simp] theorem putBuf_shaState (b : Buf) (bs : List Byte) (s : State) : (putBuf b bs s).shaState = s.shaState := rfl
@[simp] theorem putBuf_errCode (b : Buf) (bs : List Byte) (s : State) : (putBuf b bs s).errCode = s.errCode := rfl
@[simp] theorem putBuf_intStatus (b : Buf) (bs : List Byte) (s : State) : (putBuf b bs s).intStatus = s.intStatus :=
  rfl
@[simp] theorem putBuf_intEn (b : Buf) (bs : List Byte) (s : State) : (putBuf b bs s).intEn = s.intEn := rfl
@[simp] theorem putBuf_busy (b : Buf) (bs : List Byte) (s : State) : (putBuf b bs s).busy = s.busy := rfl
@[simp] theorem putBuf_cmdPend (b : Buf) (bs : List Byte) (s : State) : (putBuf b bs s).cmdPend = s.cmdPend := rfl
@[simp] theorem putBuf_mem (b : Buf) (bs : List Byte) (s : State) :
    (putBuf b bs s).mem = Memory.writeBytes s.mem b.base bs := rfl
@[simp] theorem putBuf_hc (b : Buf) (bs : List Byte) (s : State) : (putBuf b bs s).hc = s.hc := rfl
@[simp] theorem putBuf_blk (b : Buf) (bs : List Byte) (s : State) : (putBuf b bs s).blk = s.blk := rfl
@[simp] theorem putBuf_total (b : Buf) (bs : List Byte) (s : State) : (putBuf b bs s).total = s.total := rfl
@[simp] theorem putBuf_agenda (b : Buf) (bs : List Byte) (s : State) : (putBuf b bs s).agenda = s.agenda := rfl
@[simp] theorem putBuf_resp (b : Buf) (bs : List Byte) (s : State) : (putBuf b bs s).resp = s.resp := rfl
@[simp] theorem putBuf_free (b : Buf) (bs : List Byte) (s : State) : (putBuf b bs s).free = s.free := rfl

/-! ### putWord (R59) -/

@[simp] theorem putWord_slen (off : Nat) (v : Word) (s : State) : (putWord off v s).slen = s.slen := rfl
@[simp] theorem putWord_nLen (off : Nat) (v : Word) (s : State) : (putWord off v s).nLen = s.nLen := rfl
@[simp] theorem putWord_expLen (off : Nat) (v : Word) (s : State) : (putWord off v s).expLen = s.expLen := rfl
@[simp] theorem putWord_modBits (off : Nat) (v : Word) (s : State) : (putWord off v s).modBits = s.modBits := rfl
@[simp] theorem putWord_keyValid (off : Nat) (v : Word) (s : State) : (putWord off v s).keyValid = s.keyValid := rfl
@[simp] theorem putWord_result (off : Nat) (v : Word) (s : State) : (putWord off v s).result = s.result := rfl
@[simp] theorem putWord_shaState (off : Nat) (v : Word) (s : State) : (putWord off v s).shaState = s.shaState := rfl
@[simp] theorem putWord_errCode (off : Nat) (v : Word) (s : State) : (putWord off v s).errCode = s.errCode := rfl
@[simp] theorem putWord_intStatus (off : Nat) (v : Word) (s : State) : (putWord off v s).intStatus = s.intStatus :=
  rfl
@[simp] theorem putWord_intEn (off : Nat) (v : Word) (s : State) : (putWord off v s).intEn = s.intEn := rfl
@[simp] theorem putWord_busy (off : Nat) (v : Word) (s : State) : (putWord off v s).busy = s.busy := rfl
@[simp] theorem putWord_cmdPend (off : Nat) (v : Word) (s : State) : (putWord off v s).cmdPend = s.cmdPend := rfl
@[simp] theorem putWord_mem (off : Nat) (v : Word) (s : State) :
    (putWord off v s).mem = Memory.writeBytes s.mem off (wordBytes v) := rfl
@[simp] theorem putWord_hc (off : Nat) (v : Word) (s : State) : (putWord off v s).hc = s.hc := rfl
@[simp] theorem putWord_blk (off : Nat) (v : Word) (s : State) : (putWord off v s).blk = s.blk := rfl
@[simp] theorem putWord_total (off : Nat) (v : Word) (s : State) : (putWord off v s).total = s.total := rfl
@[simp] theorem putWord_agenda (off : Nat) (v : Word) (s : State) : (putWord off v s).agenda = s.agenda := rfl
@[simp] theorem putWord_resp (off : Nat) (v : Word) (s : State) : (putWord off v s).resp = s.resp := rfl
@[simp] theorem putWord_free (off : Nat) (v : Word) (s : State) : (putWord off v s).free = s.free := rfl

/-! ### setResult (R23) -/

@[simp] theorem setResult_slen (r : Bool) (s : State) : (setResult r s).slen = s.slen := rfl
@[simp] theorem setResult_nLen (r : Bool) (s : State) : (setResult r s).nLen = s.nLen := rfl
@[simp] theorem setResult_expLen (r : Bool) (s : State) : (setResult r s).expLen = s.expLen := rfl
@[simp] theorem setResult_modBits (r : Bool) (s : State) : (setResult r s).modBits = s.modBits := rfl
@[simp] theorem setResult_keyValid (r : Bool) (s : State) : (setResult r s).keyValid = s.keyValid := rfl
@[simp] theorem setResult_result (r : Bool) (s : State) : (setResult r s).result = r := rfl
@[simp] theorem setResult_shaState (r : Bool) (s : State) : (setResult r s).shaState = s.shaState := rfl
@[simp] theorem setResult_errCode (r : Bool) (s : State) : (setResult r s).errCode = s.errCode := rfl
@[simp] theorem setResult_intStatus (r : Bool) (s : State) : (setResult r s).intStatus = s.intStatus := rfl
@[simp] theorem setResult_intEn (r : Bool) (s : State) : (setResult r s).intEn = s.intEn := rfl
@[simp] theorem setResult_busy (r : Bool) (s : State) : (setResult r s).busy = s.busy := rfl
@[simp] theorem setResult_cmdPend (r : Bool) (s : State) : (setResult r s).cmdPend = s.cmdPend := rfl
@[simp] theorem setResult_mem (r : Bool) (s : State) : (setResult r s).mem = s.mem := rfl
@[simp] theorem setResult_hc (r : Bool) (s : State) : (setResult r s).hc = s.hc := rfl
@[simp] theorem setResult_blk (r : Bool) (s : State) : (setResult r s).blk = s.blk := rfl
@[simp] theorem setResult_total (r : Bool) (s : State) : (setResult r s).total = s.total := rfl
@[simp] theorem setResult_agenda (r : Bool) (s : State) : (setResult r s).agenda = s.agenda := rfl
@[simp] theorem setResult_resp (r : Bool) (s : State) : (setResult r s).resp = s.resp := rfl
@[simp] theorem setResult_free (r : Bool) (s : State) : (setResult r s).free = s.free := rfl

/-! ### startContext (R95) -/

@[simp] theorem startContext_slen (s : State) : (startContext s).slen = s.slen := rfl
@[simp] theorem startContext_nLen (s : State) : (startContext s).nLen = s.nLen := rfl
@[simp] theorem startContext_expLen (s : State) : (startContext s).expLen = s.expLen := rfl
@[simp] theorem startContext_modBits (s : State) : (startContext s).modBits = s.modBits := rfl
@[simp] theorem startContext_keyValid (s : State) : (startContext s).keyValid = s.keyValid := rfl
@[simp] theorem startContext_result (s : State) : (startContext s).result = s.result := rfl
@[simp] theorem startContext_shaState (s : State) : (startContext s).shaState = ShaState.active := rfl
@[simp] theorem startContext_errCode (s : State) : (startContext s).errCode = s.errCode := rfl
@[simp] theorem startContext_intStatus (s : State) : (startContext s).intStatus = s.intStatus := rfl
@[simp] theorem startContext_intEn (s : State) : (startContext s).intEn = s.intEn := rfl
@[simp] theorem startContext_busy (s : State) : (startContext s).busy = s.busy := rfl
@[simp] theorem startContext_cmdPend (s : State) : (startContext s).cmdPend = s.cmdPend := rfl
@[simp] theorem startContext_mem (s : State) : (startContext s).mem = s.mem := rfl
@[simp] theorem startContext_hc (s : State) : (startContext s).hc = hashInit := rfl
@[simp] theorem startContext_blk (s : State) : (startContext s).blk = [] := rfl
@[simp] theorem startContext_total (s : State) : (startContext s).total = 0#61 := rfl
@[simp] theorem startContext_agenda (s : State) : (startContext s).agenda = s.agenda := rfl
@[simp] theorem startContext_resp (s : State) : (startContext s).resp = s.resp := rfl
@[simp] theorem startContext_free (s : State) : (startContext s).free = s.free := rfl

/-! ### absorbMessage (R96) -/

@[simp] theorem absorbMessage_slen (bs : List Byte) (s : State) : (absorbMessage bs s).slen = s.slen := rfl
@[simp] theorem absorbMessage_nLen (bs : List Byte) (s : State) : (absorbMessage bs s).nLen = s.nLen := rfl
@[simp] theorem absorbMessage_expLen (bs : List Byte) (s : State) : (absorbMessage bs s).expLen = s.expLen := rfl
@[simp] theorem absorbMessage_modBits (bs : List Byte) (s : State) : (absorbMessage bs s).modBits = s.modBits := rfl
@[simp] theorem absorbMessage_keyValid (bs : List Byte) (s : State) : (absorbMessage bs s).keyValid = s.keyValid :=
  rfl
@[simp] theorem absorbMessage_result (bs : List Byte) (s : State) : (absorbMessage bs s).result = s.result := rfl
@[simp] theorem absorbMessage_shaState (bs : List Byte) (s : State) : (absorbMessage bs s).shaState = s.shaState :=
  rfl
@[simp] theorem absorbMessage_errCode (bs : List Byte) (s : State) : (absorbMessage bs s).errCode = s.errCode := rfl
@[simp] theorem absorbMessage_intStatus (bs : List Byte) (s : State) : (absorbMessage bs s).intStatus = s.intStatus :=
  rfl
@[simp] theorem absorbMessage_intEn (bs : List Byte) (s : State) : (absorbMessage bs s).intEn = s.intEn := rfl
@[simp] theorem absorbMessage_busy (bs : List Byte) (s : State) : (absorbMessage bs s).busy = s.busy := rfl
@[simp] theorem absorbMessage_cmdPend (bs : List Byte) (s : State) : (absorbMessage bs s).cmdPend = s.cmdPend := rfl
@[simp] theorem absorbMessage_mem (bs : List Byte) (s : State) : (absorbMessage bs s).mem = s.mem := rfl
@[simp] theorem absorbMessage_hc (bs : List Byte) (s : State) :
    (absorbMessage bs s).hc = (absorb s.hc (s.blk ++ bs)).1 := rfl
@[simp] theorem absorbMessage_blk (bs : List Byte) (s : State) :
    (absorbMessage bs s).blk = (absorb s.hc (s.blk ++ bs)).2 := rfl
@[simp] theorem absorbMessage_total (bs : List Byte) (s : State) :
    (absorbMessage bs s).total = s.total + BitVec.ofNat 61 bs.length := rfl
@[simp] theorem absorbMessage_agenda (bs : List Byte) (s : State) : (absorbMessage bs s).agenda = s.agenda := rfl
@[simp] theorem absorbMessage_resp (bs : List Byte) (s : State) : (absorbMessage bs s).resp = s.resp := rfl
@[simp] theorem absorbMessage_free (bs : List Byte) (s : State) : (absorbMessage bs s).free = s.free := rfl

/-! ### closeContext (R97) -/

@[simp] theorem closeContext_slen (s : State) : (closeContext s).slen = s.slen := rfl
@[simp] theorem closeContext_nLen (s : State) : (closeContext s).nLen = s.nLen := rfl
@[simp] theorem closeContext_expLen (s : State) : (closeContext s).expLen = s.expLen := rfl
@[simp] theorem closeContext_modBits (s : State) : (closeContext s).modBits = s.modBits := rfl
@[simp] theorem closeContext_keyValid (s : State) : (closeContext s).keyValid = s.keyValid := rfl
@[simp] theorem closeContext_result (s : State) : (closeContext s).result = s.result := rfl
@[simp] theorem closeContext_shaState (s : State) : (closeContext s).shaState = ShaState.final := rfl
@[simp] theorem closeContext_errCode (s : State) : (closeContext s).errCode = s.errCode := rfl
@[simp] theorem closeContext_intStatus (s : State) : (closeContext s).intStatus = s.intStatus := rfl
@[simp] theorem closeContext_intEn (s : State) : (closeContext s).intEn = s.intEn := rfl
@[simp] theorem closeContext_busy (s : State) : (closeContext s).busy = s.busy := rfl
@[simp] theorem closeContext_cmdPend (s : State) : (closeContext s).cmdPend = s.cmdPend := rfl
@[simp] theorem closeContext_mem (s : State) : (closeContext s).mem = s.mem := rfl
@[simp] theorem closeContext_hc (s : State) : (closeContext s).hc = freeHash s.free := rfl
@[simp] theorem closeContext_blk (s : State) : (closeContext s).blk = (Config.freeBlk s.free).take 63 := rfl
@[simp] theorem closeContext_total (s : State) : (closeContext s).total = s.total := rfl
@[simp] theorem closeContext_agenda (s : State) : (closeContext s).agenda = s.agenda := rfl
@[simp] theorem closeContext_resp (s : State) : (closeContext s).resp = s.resp := rfl
@[simp] theorem closeContext_free (s : State) : (closeContext s).free = s.free + 1 := rfl

/-! ### latchKey (R110) -/

@[simp] theorem latchKey_slen (s : State) : (latchKey s).slen = s.slen := rfl
@[simp] theorem latchKey_nLen (s : State) : (latchKey s).nLen = s.nLen := rfl
@[simp] theorem latchKey_expLen (s : State) : (latchKey s).expLen = s.expLen := rfl
@[simp] theorem latchKey_modBits (s : State) : (latchKey s).modBits = BitVec.ofNat 13 (bitLength (modulus s)) := rfl
@[simp] theorem latchKey_keyValid (s : State) : (latchKey s).keyValid = true := rfl
@[simp] theorem latchKey_result (s : State) : (latchKey s).result = s.result := rfl
@[simp] theorem latchKey_shaState (s : State) : (latchKey s).shaState = s.shaState := rfl
@[simp] theorem latchKey_errCode (s : State) : (latchKey s).errCode = s.errCode := rfl
@[simp] theorem latchKey_intStatus (s : State) : (latchKey s).intStatus = s.intStatus := rfl
@[simp] theorem latchKey_intEn (s : State) : (latchKey s).intEn = s.intEn := rfl
@[simp] theorem latchKey_busy (s : State) : (latchKey s).busy = s.busy := rfl
@[simp] theorem latchKey_cmdPend (s : State) : (latchKey s).cmdPend = s.cmdPend := rfl
@[simp] theorem latchKey_mem (s : State) : (latchKey s).mem = s.mem := rfl
@[simp] theorem latchKey_hc (s : State) : (latchKey s).hc = s.hc := rfl
@[simp] theorem latchKey_blk (s : State) : (latchKey s).blk = s.blk := rfl
@[simp] theorem latchKey_total (s : State) : (latchKey s).total = s.total := rfl
@[simp] theorem latchKey_agenda (s : State) : (latchKey s).agenda = s.agenda := rfl
@[simp] theorem latchKey_resp (s : State) : (latchKey s).resp = s.resp := rfl
@[simp] theorem latchKey_free (s : State) : (latchKey s).free = s.free := rfl

/-! ### putEncoded (R105, R119) -/

@[simp] theorem putEncoded_slen (s : State) : (putEncoded s).slen = s.slen := rfl
@[simp] theorem putEncoded_nLen (s : State) : (putEncoded s).nLen = s.nLen := rfl
@[simp] theorem putEncoded_expLen (s : State) : (putEncoded s).expLen = s.expLen := rfl
@[simp] theorem putEncoded_modBits (s : State) : (putEncoded s).modBits = s.modBits := rfl
@[simp] theorem putEncoded_keyValid (s : State) : (putEncoded s).keyValid = s.keyValid := rfl
@[simp] theorem putEncoded_result (s : State) : (putEncoded s).result = s.result := rfl
@[simp] theorem putEncoded_shaState (s : State) : (putEncoded s).shaState = s.shaState := rfl
@[simp] theorem putEncoded_errCode (s : State) : (putEncoded s).errCode = s.errCode := rfl
@[simp] theorem putEncoded_intStatus (s : State) : (putEncoded s).intStatus = s.intStatus := rfl
@[simp] theorem putEncoded_intEn (s : State) : (putEncoded s).intEn = s.intEn := rfl
@[simp] theorem putEncoded_busy (s : State) : (putEncoded s).busy = s.busy := rfl
@[simp] theorem putEncoded_cmdPend (s : State) : (putEncoded s).cmdPend = s.cmdPend := rfl
@[simp] theorem putEncoded_mem (s : State) :
    (putEncoded s).mem = Memory.writeBytes s.mem (Buf.base .a) (pssBlock (mHash s) (keyBits s) (saltBytes s) (keyLen s)) := rfl
@[simp] theorem putEncoded_hc (s : State) : (putEncoded s).hc = s.hc := rfl
@[simp] theorem putEncoded_blk (s : State) : (putEncoded s).blk = s.blk := rfl
@[simp] theorem putEncoded_total (s : State) : (putEncoded s).total = s.total := rfl
@[simp] theorem putEncoded_agenda (s : State) : (putEncoded s).agenda = s.agenda := rfl
@[simp] theorem putEncoded_resp (s : State) : (putEncoded s).resp = s.resp := rfl
@[simp] theorem putEncoded_free (s : State) : (putEncoded s).free = s.free := rfl

/-! ### putPower (R114, R119, R120) -/

@[simp] theorem putPower_slen (s : State) : (putPower s).slen = s.slen := rfl
@[simp] theorem putPower_nLen (s : State) : (putPower s).nLen = s.nLen := rfl
@[simp] theorem putPower_expLen (s : State) : (putPower s).expLen = s.expLen := rfl
@[simp] theorem putPower_modBits (s : State) : (putPower s).modBits = s.modBits := rfl
@[simp] theorem putPower_keyValid (s : State) : (putPower s).keyValid = s.keyValid := rfl
@[simp] theorem putPower_result (s : State) : (putPower s).result = s.result := rfl
@[simp] theorem putPower_shaState (s : State) : (putPower s).shaState = s.shaState := rfl
@[simp] theorem putPower_errCode (s : State) : (putPower s).errCode = s.errCode := rfl
@[simp] theorem putPower_intStatus (s : State) : (putPower s).intStatus = s.intStatus := rfl
@[simp] theorem putPower_intEn (s : State) : (putPower s).intEn = s.intEn := rfl
@[simp] theorem putPower_busy (s : State) : (putPower s).busy = s.busy := rfl
@[simp] theorem putPower_cmdPend (s : State) : (putPower s).cmdPend = s.cmdPend := rfl
@[simp] theorem putPower_mem (s : State) :
    (putPower s).mem = Memory.writeBytes s.mem (Buf.base .r) (i2osp (modexpF (baseOperand s) (exponent s) (modulus s)) (keyLen s)) := rfl
@[simp] theorem putPower_hc (s : State) : (putPower s).hc = s.hc := rfl
@[simp] theorem putPower_blk (s : State) : (putPower s).blk = s.blk := rfl
@[simp] theorem putPower_total (s : State) : (putPower s).total = s.total := rfl
@[simp] theorem putPower_agenda (s : State) : (putPower s).agenda = s.agenda := rfl
@[simp] theorem putPower_resp (s : State) : (putPower s).resp = s.resp := rfl
@[simp] theorem putPower_free (s : State) : (putPower s).free = s.free := rfl

/-! ### eraseAll (R126) -/

@[simp] theorem eraseAll_slen (s : State) : (eraseAll s).slen = s.slen := rfl
@[simp] theorem eraseAll_nLen (s : State) : (eraseAll s).nLen = s.nLen := rfl
@[simp] theorem eraseAll_expLen (s : State) : (eraseAll s).expLen = s.expLen := rfl
@[simp] theorem eraseAll_modBits (s : State) : (eraseAll s).modBits = 0#13 := rfl
@[simp] theorem eraseAll_keyValid (s : State) : (eraseAll s).keyValid = false := rfl
@[simp] theorem eraseAll_result (s : State) : (eraseAll s).result = false := rfl
@[simp] theorem eraseAll_shaState (s : State) : (eraseAll s).shaState = ShaState.idle := rfl
@[simp] theorem eraseAll_errCode (s : State) : (eraseAll s).errCode = s.errCode := rfl
@[simp] theorem eraseAll_intStatus (s : State) : (eraseAll s).intStatus = s.intStatus := rfl
@[simp] theorem eraseAll_intEn (s : State) : (eraseAll s).intEn = s.intEn := rfl
@[simp] theorem eraseAll_busy (s : State) : (eraseAll s).busy = s.busy := rfl
@[simp] theorem eraseAll_cmdPend (s : State) : (eraseAll s).cmdPend = s.cmdPend := rfl
@[simp] theorem eraseAll_mem (s : State) : (eraseAll s).mem = zeroBuffers s.mem := rfl
@[simp] theorem eraseAll_hc (s : State) :
    (eraseAll s).hc = (⟨0#32, 0#32, 0#32, 0#32, 0#32, 0#32, 0#32, 0#32⟩ : HashWords) := rfl
@[simp] theorem eraseAll_blk (s : State) : (eraseAll s).blk = [] := rfl
@[simp] theorem eraseAll_total (s : State) : (eraseAll s).total = 0#61 := rfl
@[simp] theorem eraseAll_agenda (s : State) : (eraseAll s).agenda = s.agenda := rfl
@[simp] theorem eraseAll_resp (s : State) : (eraseAll s).resp = s.resp := rfl
@[simp] theorem eraseAll_free (s : State) : (eraseAll s).free = s.free := rfl

/-! ### resetEngine (R149, R150) -/

@[simp] theorem resetEngine_slen (s : State) : (resetEngine s).slen = State.reset.slen := rfl
@[simp] theorem resetEngine_nLen (s : State) : (resetEngine s).nLen = State.reset.nLen := rfl
@[simp] theorem resetEngine_expLen (s : State) : (resetEngine s).expLen = State.reset.expLen := rfl
@[simp] theorem resetEngine_modBits (s : State) : (resetEngine s).modBits = State.reset.modBits := rfl
@[simp] theorem resetEngine_keyValid (s : State) : (resetEngine s).keyValid = State.reset.keyValid := rfl
@[simp] theorem resetEngine_result (s : State) : (resetEngine s).result = State.reset.result := rfl
@[simp] theorem resetEngine_shaState (s : State) : (resetEngine s).shaState = State.reset.shaState := rfl
@[simp] theorem resetEngine_errCode (s : State) : (resetEngine s).errCode = State.reset.errCode := rfl
@[simp] theorem resetEngine_intStatus (s : State) : (resetEngine s).intStatus = State.reset.intStatus := rfl
@[simp] theorem resetEngine_intEn (s : State) : (resetEngine s).intEn = State.reset.intEn := rfl
@[simp] theorem resetEngine_busy (s : State) : (resetEngine s).busy = State.reset.busy := rfl
@[simp] theorem resetEngine_cmdPend (s : State) : (resetEngine s).cmdPend = State.reset.cmdPend := rfl
@[simp] theorem resetEngine_mem (s : State) : (resetEngine s).mem = State.reset.mem := rfl
@[simp] theorem resetEngine_hc (s : State) : (resetEngine s).hc = State.reset.hc := rfl
@[simp] theorem resetEngine_blk (s : State) : (resetEngine s).blk = State.reset.blk := rfl
@[simp] theorem resetEngine_total (s : State) : (resetEngine s).total = State.reset.total := rfl
@[simp] theorem resetEngine_agenda (s : State) : (resetEngine s).agenda = s.agenda := rfl
@[simp] theorem resetEngine_resp (s : State) : (resetEngine s).resp = s.resp := rfl
@[simp] theorem resetEngine_free (s : State) : (resetEngine s).free = s.free := rfl

end Sys2Proof.Machine
end

