-- ==== Sys2Proof/Laws/Exec.lean ====
section
/-! SUPPORT. Said once: what a command can do (exec_effect), what a host transaction can do (busAccess_effect), and what
an event can do (runEvent_effect). Later proofs cite these and do not unfold exec or busAccess. -/

namespace Sys2Proof.Machine

/-- Every way a command can leave the state before its completion updates, with the checks that hold there. -/
inductive Effect (s : State) : Instr → ErrCode → State → Prop where
  | nop : Effect s .nop .none s
  | shaInit : Effect s .shaInit .none (startContext s)
  | updateError (len : Nat) (e : ErrCode) (h : e ≠ .none) : Effect s (.shaUpdate len) e s
  | update (len : Nat) (hl : len ≤ Config.msgBufBytes) (ha : s.shaState = .active)
      (ht : s.total.toNat + len ≤ Config.shaMaxBytes) :
      Effect s (.shaUpdate len) .none (absorbMessage (bufBytes s .msg len) s)
  | finalError (h : s.shaState ≠ .active) : Effect s .shaFinal .misuse s
  | final (h : s.shaState = .active) :
      Effect s .shaFinal .none (closeContext (putBuf .digest (finalDigest s) s))
  | mgf1Error (len : Nat) (h : Config.kMax < len) : Effect s (.mgf1 len) .len s
  | mgf1 (len : Nat) (h : len ≤ Config.kMax) : Effect s (.mgf1 len) .none (putBuf .r (mgf1 (mHash s) len) s)
  | encodeError (e : ErrCode) (h : e ≠ .none) : Effect s .pssEncode e s
  | encode (hk : s.keyValid = true) (hs : saltTooLong (keyBits s) (sLen s) = false) :
      Effect s .pssEncode .none (putEncoded s)
  | pssVerifyError (h : s.keyValid = false) : Effect s .pssVerify .invalidKey (setResult false s)
  | pssVerify (h : s.keyValid = true) : Effect s .pssVerify .none (setResult (checkRecovered s) s)
  | keyError (e : ErrCode) (h : e ≠ .none) : Effect s .keyLoad e (dropKey s)
  | keyLoad (h1 : keyLen s ≠ 0) (h2 : keyLen s ≤ Config.kMax) (h3 : Memory.read s.mem (Buf.base .n) ≠ 0#8)
      (h4 : modulus s % 2 = 1) (h5 : modulus s ≠ 1) : Effect s .keyLoad .none (latchKey s)
  | modexpError (e : ErrCode) (h : e ≠ .none) : Effect s .modexp e s
  | modexp (hk : s.keyValid = true) (hr : baseOperand s < modulus s) : Effect s .modexp .none (putPower s)
  | cmpError (len : Nat) (h : Config.kMax < len) : Effect s (.cmp len) .len (setResult false s)
  | cmp (len : Nat) (h : len ≤ Config.kMax) :
      Effect s (.cmp len) .none (setResult (ctEq (bufBytes s .a len) (bufBytes s .r len) len) s)
  | signError (e : ErrCode) (h : e ≠ .none) : Effect s .sign e s
  | sign (hk : s.keyValid = true) (hs : saltTooLong (keyBits s) (sLen s) = false) :
      Effect s .sign .none (putPower (putEncoded s))
  | verifyFalse (len : Nat) (e : ErrCode) : Effect s (.verify len) e (setResult false s)
  | verify (len : Nat) (hk : s.keyValid = true) (hl : verifyEarlyFalse len s = false) :
      Effect s (.verify len) .none (recoverAndCheck s)
  | zeroize : Effect s .zeroize .none (eraseAll s)

/-- An exponent error is an error (R111). -/
theorem exponentError_ne_none {s : State} {e : ErrCode} (h : exponentError s = some e) : e ≠ .none := by
  unfold exponentError at h
  split at h
  · cases h; decide
  · split at h <;> cases h; decide

/-- Without an exponent error there is a key and an exponent (R111). -/
theorem exponentError_none {s : State} (h : exponentError s = none) :
    s.expLen.toNat ≤ Config.kMax ∧ s.keyValid = true ∧ s.expLen ≠ 0#16 := by
  unfold exponentError at h
  split at h
  · cases h
  · split at h
    · cases h
    · next h1 h2 => exact ⟨Nat.not_lt.mp h1, by simpa using fun e => h2 (.inl e), fun e => h2 (.inr e)⟩

theorem finish_next {e : ErrCode} {s t : State} (h : finish e s = .next t) : t = complete e s :=
  (Host.Outcome.next.inj h).symm

/-- What a command can do: one of its effects, then the four completion updates (R130, R131). -/
theorem exec_effect {i : Instr} {s t : State} (h : exec i s = .next t) :
    ∃ e u, t = complete e u ∧ Effect s i e u := by
  cases i with
  | nop => exact ⟨_, _, finish_next h, .nop⟩
  | shaInit => exact ⟨_, _, finish_next h, .shaInit⟩
  | shaUpdate len =>
    simp only [exec, execShaUpdate] at h
    split at h
    · exact ⟨_, _, finish_next h, .updateError _ _ (by decide)⟩
    · split at h
      · exact ⟨_, _, finish_next h, .updateError _ _ (by decide)⟩
      · split at h
        · exact ⟨_, _, finish_next h, .updateError _ _ (by decide)⟩
        · next h1 h2 h3 =>
          exact ⟨_, _, finish_next h, .update _ (Nat.not_lt.mp h1) (not_not.mp h2) (Nat.not_lt.mp h3)⟩
  | shaFinal =>
    simp only [exec, execShaFinal] at h
    split at h
    · next h1 => exact ⟨_, _, finish_next h, .finalError h1⟩
    · next h1 => exact ⟨_, _, finish_next h, .final (not_not.mp h1)⟩
  | mgf1 len =>
    simp only [exec, execMgf1] at h
    split at h
    · next h1 => exact ⟨_, _, finish_next h, .mgf1Error _ h1⟩
    · next h1 => exact ⟨_, _, finish_next h, .mgf1 _ (Nat.not_lt.mp h1)⟩
  | pssEncode =>
    simp only [exec, execPssEncode] at h
    split at h
    · exact ⟨_, _, finish_next h, .encodeError _ (by decide)⟩
    · split at h
      · exact ⟨_, _, finish_next h, .encodeError _ (by decide)⟩
      · next h1 h2 => exact ⟨_, _, finish_next h, .encode (by simpa using h1) (by simpa using h2)⟩
  | pssVerify =>
    simp only [exec, execPssVerify] at h
    split at h
    · next h1 => exact ⟨_, _, finish_next h, .pssVerifyError h1⟩
    · next h1 => exact ⟨_, _, finish_next h, .pssVerify (by simpa using h1)⟩
  | keyLoad =>
    simp only [exec, execKeyLoad] at h
    split at h
    · exact ⟨_, _, finish_next h, .keyError _ (by decide)⟩
    · split at h
      · exact ⟨_, _, finish_next h, .keyError _ (by decide)⟩
      · split at h
        · exact ⟨_, _, finish_next h, .keyError _ (by decide)⟩
        · next h1 h2 h3 =>
          exact ⟨_, _, finish_next h, .keyLoad (fun e => h1 (.inl e)) (Nat.not_lt.mp fun e => h1 (.inr e)) h2
            (by have : ¬modulus s % 2 = 0 := fun e => h3 (.inl e); omega) (fun e => h3 (.inr e))⟩
  | modexp =>
    simp only [exec, execModexp] at h
    split at h
    · next he => exact ⟨_, _, finish_next h, .modexpError _ (exponentError_ne_none he)⟩
    · next he =>
      split at h
      · exact ⟨_, _, finish_next h, .modexpError _ (by decide)⟩
      · next h1 => exact ⟨_, _, finish_next h, .modexp (exponentError_none he).2.1 (Nat.not_le.mp h1)⟩
  | cmp len =>
    simp only [exec, execCmp] at h
    split at h
    · next h1 => exact ⟨_, _, finish_next h, .cmpError _ h1⟩
    · next h1 => exact ⟨_, _, finish_next h, .cmp _ (Nat.not_lt.mp h1)⟩
  | sign =>
    simp only [exec, execSign] at h
    split at h
    · next he => exact ⟨_, _, finish_next h, .signError _ (exponentError_ne_none he)⟩
    · next he =>
      split at h
      · exact ⟨_, _, finish_next h, .signError _ (by decide)⟩
      · next h1 => exact ⟨_, _, finish_next h, .sign (exponentError_none he).2.1 (by simpa using h1)⟩
  | verify len =>
    simp only [exec, execVerify] at h
    split at h
    · exact ⟨_, _, finish_next h, .verifyFalse _ _⟩
    · next he =>
      split at h
      · exact ⟨_, _, finish_next h, .verifyFalse _ _⟩
      · split at h
        · exact ⟨_, _, finish_next h, .verifyFalse _ _⟩
        · next h1 => exact ⟨_, _, finish_next h, .verify _ (exponentError_none he).2.1 (by simpa using h1)⟩
  | zeroize => exact ⟨_, _, finish_next h, .zeroize⟩

/-- The command sees only its own checks: it always answers a next state (R130, R131). -/
theorem exec_next (i : Instr) (s : State) : ∃ t, exec i s = .next t := by
  cases i with
  | nop => exact ⟨_, rfl⟩
  | shaInit => exact ⟨_, rfl⟩
  | shaUpdate len => simp only [exec, execShaUpdate, finish]; (repeat' split) <;> exact ⟨_, rfl⟩
  | shaFinal => simp only [exec, execShaFinal, finish]; split <;> exact ⟨_, rfl⟩
  | mgf1 len => simp only [exec, execMgf1, finish]; split <;> exact ⟨_, rfl⟩
  | pssEncode => simp only [exec, execPssEncode, finish]; (repeat' split) <;> exact ⟨_, rfl⟩
  | pssVerify => simp only [exec, execPssVerify, finish]; split <;> exact ⟨_, rfl⟩
  | keyLoad => simp only [exec, execKeyLoad, finish]; (repeat' split) <;> exact ⟨_, rfl⟩
  | modexp => simp only [exec, execModexp, finish]; (repeat' split) <;> exact ⟨_, rfl⟩
  | cmp len => simp only [exec, execCmp, finish]; split <;> exact ⟨_, rfl⟩
  | sign => simp only [exec, execSign, finish]; (repeat' split) <;> exact ⟨_, rfl⟩
  | verify len => simp only [exec, execVerify, finish]; (repeat' split) <;> exact ⟨_, rfl⟩
  | zeroize => exact ⟨_, rfl⟩

/-! ### The host's transactions -/

/-- A word offset of the window that is neither a register nor reserved lies wholly in one buffer (R18, R49, R63). -/
theorem bufWord_in_buffer {off : Nat} (ho : off < 4096) (hf : readFaults off 32 = false) (hr : regAt off = none) :
    ∃ b, bufAt off = some b ∧ b.base ≤ off ∧ off + 4 ≤ b.base + b.size := by
  have key : ∀ j < 1024, readFaults (4 * j) 32 = false → regAt (4 * j) = none →
      ∃ b ∈ allBufs, bufAt (4 * j) = some b ∧ b.base ≤ 4 * j ∧ 4 * j + 4 ≤ b.base + b.size := by decide +kernel
  have h4 : off = 4 * (off / 4) := by
    simp only [readFaults, Bool.or_eq_false_iff, decide_eq_false_iff_not] at hf
    omega
  rw [h4] at hf hr ⊢
  obtain ⟨b, -, hb⟩ := key (off / 4) (by omega) hf hr
  exact ⟨b, hb⟩

/-- A window offset is below the window's size. -/
theorem windowOffset_lt {t : Target} {off : Nat} (h : windowOffset t = some off) : off < 4096 := by
  cases t with
  | window o =>
    have := o.isLt
    simp only [windowOffset, Option.some.injEq] at h
    omega
  | platform a =>
    simp only [windowOffset] at h
    split at h
    · next hc => cases h; simp only [Config.windowBytes] at hc; omega
    · cases h

/-- Every way a host transaction can leave the engine, apart from its answer. -/
inductive HostEffect (s : State) : State → Prop where
  | same : HostEffect s s
  | dropped (h : s.busy = true) : HostEffect s (dropWrite s)
  | reset : HostEffect s (resetEngine s)
  | accepted (v : Word) (h : s.busy = false) : HostEffect s (accept v s)
  | ints (v : Word) : HostEffect s { s with intStatus := clearInts s.intStatus v }
  | intEn (v : Word) : HostEffect s { s with intEn := v.extractLsb' 0 3 }
  | slen (v : Word) (h : s.busy = false) : HostEffect s { s with slen := v.extractLsb' 0 16 }
  | nLen (v : Word) (h : s.busy = false) : HostEffect s (dropKey { s with nLen := v.extractLsb' 0 16 })
  | expLen (v : Word) (h : s.busy = false) : HostEffect s { s with expLen := v.extractLsb' 0 16 }
  | nBuf (off : Nat) (v : Word) (h : s.busy = false) (h1 : Buf.base .n ≤ off)
      (h2 : off + 4 ≤ Buf.base .n + Buf.size .n) : HostEffect s (dropKey (putWord off v s))
  | buf (b : Buf) (off : Nat) (v : Word) (h : s.busy = false) (hn : b ≠ .n) (h1 : b.base ≤ off)
      (h2 : off + 4 ≤ b.base + b.size) : HostEffect s (putWord off v s)

/-- CTRL, INT_STATUS and INT_EN are the registers that the busy rule spares (R67). -/
theorem regAt_neverDropped {off : Nat} {r : Reg} (h : regAt off = some r) (hn : neverDropped off = true) :
    r = .ctrl ∨ r = .intStatus ∨ r = .intEn := by
  simp only [neverDropped, Bool.or_eq_true, beq_iff_eq] at hn
  rcases hn with (rfl | rfl) | rfl <;> simp [regAt] at h <;> simp [← h]

/-- What a write without BusError can do (R64, R66, R67). -/
theorem writeEffect_effect {off : Nat} (v : Word) (s : State) (ho : off < 4096)
    (hf : readFaults off 32 = false) : HostEffect s (writeEffect off v s) := by
  unfold writeEffect
  split
  · next hb => exact .dropped (by simp at hb; exact hb.1)
  · next hb =>
    have hb : s.busy = true → neverDropped off = true := by simpa using hb
    split
    · next r hr =>
      have busyOk : ¬(r = .ctrl ∨ r = .intStatus ∨ r = .intEn) → s.busy = false := fun hr' => by
        by_contra hbusy
        exact hr' (regAt_neverDropped hr (hb (by simpa using hbusy)))
      cases r <;> simp only [writeReg]
      all_goals first
        | exact .same
        | (split; exact .reset; exact .same)
        | exact .ints v
        | exact .intEn v
        | exact .accepted v (busyOk (by simp))
        | exact .slen v (busyOk (by simp))
        | exact .nLen v (busyOk (by simp))
        | exact .expLen v (busyOk (by simp))
    · next hr =>
      have hbusy : s.busy = false := by
        by_contra h
        have := hb (by simpa using h)
        simp only [neverDropped, Bool.or_eq_true, beq_iff_eq] at this
        rcases this with (rfl | rfl) | rfl <;> simp [regAt] at hr
      obtain ⟨b, hbuf, h1, h2⟩ := bufWord_in_buffer ho hf hr
      unfold writeBufWord
      rw [hbuf]
      split
      · next hn => cases hn; exact .nBuf off v hbusy h1 h2
      · next hn => exact .buf b off v hbusy (fun e => hn (by rw [e])) h1 h2

/-- What a host transaction can do: one host effect, and an answer. -/
theorem busAccess_effect (acc : Access) (s : State) :
    ∃ u r, busAccess acc s = { u with resp := r } ∧ HostEffect s u := by
  unfold busAccess
  cases acc with
  | read t width =>
    dsimp only
    split
    · exact ⟨s, _, rfl, .same⟩
    · exact ⟨s, _, rfl, .same⟩
  | write t width strobes v =>
    dsimp only
    split
    · next off ho =>
      unfold busWrite
      split
      · exact ⟨s, _, rfl, .same⟩
      · next hf =>
        refine ⟨_, _, rfl, writeEffect_effect v s (windowOffset_lt ho) ?_⟩
        simp only [writeFaults, readFaults, Bool.or_eq_true, not_or, decide_eq_true_eq, not_not,
          Bool.not_eq_true] at hf
        simp [readFaults, hf]
    · exact ⟨s, _, rfl, .same⟩

/-- What an event can do. -/
theorem runEvent_effect {ev : Event} {s t : State} (h : runEvent ev s = .next t) :
    (∃ u r, t = { u with resp := r } ∧ HostEffect s u) ∨ t = resetEngine s ∨ t = s ∨ t = complete .badCmd s ∨
      ∃ i e u, t = complete e u ∧ Effect s i e u := by
  cases ev with
  | bus acc =>
    obtain ⟨u, r, hu, he⟩ := busAccess_effect acc s
    exact .inl ⟨u, r, by rw [← hu]; exact (Host.Outcome.next.inj h).symm, he⟩
  | hwReset => exact .inr (.inl (Host.Outcome.next.inj h).symm)
  | engine =>
    simp only [runEvent, engineTurn] at h
    split at h
    · unfold completionStep at h
      split at h
      · obtain ⟨e, u, ht, he⟩ := exec_effect h
        exact .inr (.inr (.inr (.inr ⟨_, e, u, ht, he⟩)))
      · exact .inr (.inr (.inr (.inl (finish_next h))))
    · exact .inr (.inr (.inl (Host.Outcome.next.inj h).symm))

/-! ### Completion -/

/-- The four completion updates in the words of R130 and R31. -/
theorem complete_endsWith (e : ErrCode) (s u : State) (h : u.intStatus = s.intStatus) : EndsWith e s (complete e u) := by
  have bits : ∀ st : BitVec 3, (st ||| completionBits e).getLsbD 0 = true ∧
      (st ||| completionBits e).getLsbD 1 = (st.getLsbD 1 || decide (e ≠ .none)) ∧
      (st ||| completionBits e).getLsbD 2 = st.getLsbD 2 := by
    cases e <;> decide
  simpa [EndsWith, h] using bits s.intStatus

end Sys2Proof.Machine
end

