-- ==== Sys2Proof/Laws/Modexp.lean ====
section
/-! SUPPORT. The exponentiation is exact (42_modexp.md R112), and the bit length is the least b with n < 2^b (R110). -/

namespace Sys2Proof.Machine

/-- The bit length bounds the number. -/
theorem lt_two_pow_bitLength (n : Nat) : n < 2 ^ bitLength n := by
  unfold bitLength
  split
  · next h => simp [h]
  · exact Nat.lt_log2_self

/-- The bit length is the least such bound. -/
theorem bitLength_le_of_lt {n b : Nat} (h : n < 2 ^ b) : bitLength n ≤ b := by
  unfold bitLength
  split
  · omega
  · next hn => exact (Nat.log2_lt hn).mpr h

/-- A nonzero number reaches the power below its bit length. -/
theorem two_pow_le_of_bitLength {n : Nat} (h : n ≠ 0) : 2 ^ (bitLength n - 1) ≤ n := by
  simp only [bitLength, if_neg h, Nat.add_sub_cancel]
  exact Nat.log2_self_le h

/-- Reducing before a square and a multiplication changes nothing modulo n. -/
theorem square_mul_mod (p c n : Nat) : p % n * (p % n) * c % n = p * p * c % n :=
  ((Nat.mod_modEq p n).mul (Nat.mod_modEq p n)).mul_right c

/-- Squaring and multiplying computes the power, for an exponent that fits. -/
theorem powMod_eq {a n bits y : Nat} (h : y < 2 ^ bits) : powMod a n bits y = a ^ y % n := by
  induction bits generalizing y with
  | zero => simp at h; simp [powMod, h]
  | succ bits ih =>
    have hy : y / 2 < 2 ^ bits := by rw [pow_succ] at h; omega
    simp only [powMod, ih hy]
    rw [square_mul_mod, ← pow_add]
    split
    · rw [← pow_succ]; congr 2; omega
    · rw [mul_one]; congr 2; omega

/-- R112: MODEXP_F(a, y, n) is a^y mod n, exactly. -/
theorem modexpF_eq (a y n : Nat) : modexpF a y n = a ^ y % n := powMod_eq (lt_two_pow_bitLength y)

/-- R112: the result r satisfies 0 ≤ r < n. -/
theorem modexpF_lt {a y n : Nat} (h : 0 < n) : modexpF a y n < n := by rw [modexpF_eq]; exact Nat.mod_lt _ h

end Sys2Proof.Machine
end

