-- ==== Sys2Proof/Laws/Legal.lean ====
section
/-! SUPPORT. What each part of a legal state (Inv in Safety.lean) depends on, said once, so that a proof about a step names
only the fields the step changes. -/

namespace Sys2Proof.Machine

/-! ### Memory -/

/-- The reset memory is canonical: it lists nothing (R149). -/
theorem reset_memory_wf : Memory.wf State.reset.mem := by decide

/-- A byte string written inside one buffer keeps the memory canonical and inside the buffers. -/
theorem memOk_writeBytes {s : State} (h : MemOk s) {a : Nat} {bs : List Byte} {b : Buf} (h1 : b.base ≤ a)
    (h2 : a + bs.length ≤ b.base + b.size) :
    Memory.wf (Memory.writeBytes s.mem a bs) ∧
      ∀ c ∈ Memory.writeBytes s.mem a bs, (bufAt c.1).isSome = true := by
  refine ⟨Memory.wf_writeBytes _ _ h.1, fun c hc => ?_⟩
  rcases Memory.mem_writeBytes hc with hc | hc
  · exact h.2 c hc
  · rw [bufAt, List.find?_isSome]
    exact ⟨b, by cases b <;> simp [allBufs], by simp [Buf.covers]; omega⟩

/-! ### The key -/

/-- A key is legal for its four fields and the bytes of the modulus; nothing else counts. -/
theorem keyOk_congr {s t : State} (h : KeyOk s) (h1 : t.keyValid = s.keyValid) (h2 : t.modBits = s.modBits)
    (h3 : t.nLen = s.nLen)
    (h4 : s.keyValid = true → ∀ a, 0x800 ≤ a → a < 0x800 + keyLen s → Memory.read t.mem a = Memory.read s.mem a) :
    KeyOk t := by
  refine ⟨fun hv => by rw [h2]; exact h.1 (h1 ▸ hv), fun hv => ?_⟩
  have hv' : s.keyValid = true := h1 ▸ hv
  have hk := h.2 hv'
  have ek : keyLen t = keyLen s := by simp [keyLen, h3]
  have em : modulus t = modulus s := by
    unfold modulus bufBytes
    rw [ek]
    congr 1
    exact Memory.readBytes_congr fun i hi => h4 hv' _ (by simp [Buf.base]) (by simp [Buf.base]; omega)
  have er : Memory.read t.mem (Buf.base .n) = Memory.read s.mem (Buf.base .n) :=
    h4 hv' _ (by simp [Buf.base]) (by simp [Buf.base]; omega)
  rw [ek, em, er, show keyBits t = keyBits s by simp [keyBits, h2]]
  exact hk

/-- No key is a legal key state. -/
theorem keyOk_of_invalid {t : State} (h1 : t.keyValid = false) (h2 : t.modBits = 0#13) : KeyOk t :=
  ⟨fun _ => h2, fun h => by rw [h1] at h; cases h⟩

/-- The modulus fits its k bytes. -/
theorem modulus_lt (s : State) : modulus s < 256 ^ keyLen s := by
  have := os2ip_lt (bufBytes s .n (keyLen s))
  rwa [show (bufBytes s .n (keyLen s)).length = keyLen s by simp [bufBytes]] at this

/-- A first byte that is not zero gives the modulus its size. -/
theorem le_modulus {s : State} (h1 : 1 ≤ keyLen s) (h : Memory.read s.mem (Buf.base .n) ≠ 0#8) :
    256 ^ (keyLen s - 1) ≤ modulus s := by
  obtain ⟨k, hk⟩ : ∃ k, keyLen s = k + 1 := ⟨keyLen s - 1, by omega⟩
  have split : bufBytes s .n (k + 1) =
      [Memory.read s.mem (Buf.base .n)] ++ Memory.readBytes s.mem (Buf.base .n + 1) k := by
    simp [bufBytes, Memory.readBytes, List.range_succ_eq_map, Function.comp_def]
    intro a _
    congr 1
    omega
  have pos : (Memory.read s.mem (Buf.base .n)).toNat ≠ 0 := fun e => h (BitVec.eq_of_toNat_eq (by simpa using e))
  have := Nat.mul_le_mul_right (256 ^ k) (Nat.one_le_iff_ne_zero.mpr pos)
  rw [modulus, hk, split, os2ip_append, show os2ip [Memory.read s.mem (Buf.base .n)] =
    (Memory.read s.mem (Buf.base .n)).toNat by simp [os2ip], Memory.readBytes_length]
  simp only [Nat.add_sub_cancel]
  omega

/-- With a legal valid key, EM fits k bytes. -/
theorem emLen_le_keyLen {s : State} (hk : KeyOk s) (hv : s.keyValid = true) : emLen (keyBits s) ≤ keyLen s := by
  have h : bitLength (modulus s) ≤ 8 * keyLen s := bitLength_le_of_lt (by rw [pow_mul]; exact modulus_lt s)
  rw [(hk.2 hv).2.2.2.2.2]
  unfold emLen emBits
  omega

/-- A write inside a buffer other than N_BUF keeps memory and key legal. -/
theorem putBuf_keeps {s : State} (hm : MemOk s) (hk : KeyOk s) {b : Buf} {bs : List Byte} (hb : b ≠ .n)
    (hl : bs.length ≤ b.size) : MemOk (putBuf b bs s) ∧ KeyOk (putBuf b bs s) := by
  refine ⟨memOk_writeBytes hm (b := b) (Nat.le_refl _) (by omega), keyOk_congr hk rfl rfl rfl fun hv a ha1 ha2 => ?_⟩
  have := (hk.2 hv).2.1
  simp only [Config.kMax] at this
  apply Memory.read_writeBytes_outside
  cases b <;>
    simp [Buf.base, Buf.size, Config.kMax, Config.msgBufBytes, Config.hLen, Config.saltBufBytes] at hl hb ⊢ <;>
    omega

/-! ### The SHA context -/

/-- The context is legal for its four fields alone. -/
theorem shaOk_congr {s t : State} (h : ShaOk s) (h1 : t.shaState = s.shaState) (h2 : t.hc = s.hc) (h3 : t.blk = s.blk)
    (h4 : t.total = s.total) : ShaOk t := by
  unfold ShaOk
  rw [h1, h2, h3, h4]
  exact h

/-- What SHA_UPDATE does to TOTAL and to the length of BLK, within the length limit. -/
theorem absorbMessage_counts {s : State} {len : Nat} (hl : len ≤ Config.msgBufBytes)
    (ht : s.total.toNat + len ≤ Config.shaMaxBytes) :
    (absorbMessage (bufBytes s .msg len) s).total.toNat = s.total.toNat + len ∧
      (absorbMessage (bufBytes s .msg len) s).blk.length = (s.blk.length + len) % 64 := by
  have lb : (bufBytes s .msg len).length = len := by simp [bufBytes]
  constructor
  · show (s.total + BitVec.ofNat 61 (bufBytes s .msg len).length).toNat = _
    rw [lb, BitVec.toNat_add, BitVec.toNat_ofNat]
    unfold Config.shaMaxBytes at ht
    unfold Config.msgBufBytes at hl
    omega
  · show (absorb s.hc (s.blk ++ bufBytes s .msg len)).2.length = _
    rw [absorb_rest_length, List.length_append, lb]

end Sys2Proof.Machine
end

