-- ==== Sys2Proof/Laws/PerInstr.lean ====
section
/-! SUPPORT. Facts made per instruction. Family Encoding: the three fields of a command's word (30_encoding.md R78) are
its opcode, 0 and its length. -/

namespace Sys2Proof.Laws.Encoding

/-- A command word as a number: LEN16 above 16 bits, OPC below (R84: `(L << 16) | OPC`). -/
theorem cmdWord_toNat (opc : BitVec 8) (len : Nat) (h : len < 65536) :
    (cmdWord opc len).toNat = len * 65536 + opc.toNat := by
  have ho := opc.isLt
  have e : (cmdWord opc len).toNat = ((len % 2 ^ 16) <<< 8 ||| 0) <<< 8 ||| opc.toNat := by
    show ((BitVec.ofNat 16 len ++ 0#8) ++ opc : BitVec (16 + 8 + 8)).toNat = _
    rw [BitVec.toNat_append, BitVec.toNat_append]
    rw [BitVec.toNat_ofNat, BitVec.toNat_ofNat, Nat.zero_mod]
  rw [e, Nat.or_zero, Nat.mod_eq_of_lt (show len < 2 ^ 16 from h), ← Nat.shiftLeft_add_eq_or_of_lt ho, Nat.shiftLeft_eq, Nat.shiftLeft_eq]
  omega

/-- The fields of a word that cmdWord builds. -/
theorem cmdWord_fields (opc : BitVec 8) (len : Nat) (h : len < 65536) :
    opcField (cmdWord opc len) = opc ∧ rsvField (cmdWord opc len) = 0#8 ∧
      (len16Field (cmdWord opc len)).toNat = len := by
  have ho := opc.isLt
  refine ⟨BitVec.eq_of_toNat_eq ?_, BitVec.eq_of_toNat_eq ?_, ?_⟩ <;>
    simp only [opcField, rsvField, len16Field, BitVec.extractLsb'_toNat, cmdWord_toNat opc len h,
      Nat.shiftRight_eq_div_pow, BitVec.toNat_ofNat] <;> omega

/-- The word's OPC is the opcode, RSV is 0 and LEN16 the length (R78). -/
def Statement (i : Instr) : Prop :=
  i.wf = true →
    opcField (encode i) = i.opcode ∧ rsvField (encode i) = 0#8 ∧ (len16Field (encode i)).toNat = i.len16

theorem nop : Statement .nop := fun _ => cmdWord_fields _ _ (by decide)
theorem shaInit : Statement .shaInit := fun _ => cmdWord_fields _ _ (by decide)
theorem shaUpdate (len : Nat) : Statement (.shaUpdate len) := fun h => cmdWord_fields _ _ (of_decide_eq_true h)
theorem shaFinal : Statement .shaFinal := fun _ => cmdWord_fields _ _ (by decide)
theorem mgf1 (len : Nat) : Statement (.mgf1 len) := fun h => cmdWord_fields _ _ (of_decide_eq_true h)
theorem pssEncode : Statement .pssEncode := fun _ => cmdWord_fields _ _ (by decide)
theorem pssVerify : Statement .pssVerify := fun _ => cmdWord_fields _ _ (by decide)
theorem keyLoad : Statement .keyLoad := fun _ => cmdWord_fields _ _ (by decide)
theorem modexp : Statement .modexp := fun _ => cmdWord_fields _ _ (by decide)
theorem cmp (len : Nat) : Statement (.cmp len) := fun h => cmdWord_fields _ _ (of_decide_eq_true h)
theorem sign : Statement .sign := fun _ => cmdWord_fields _ _ (by decide)
theorem verify (len : Nat) : Statement (.verify len) := fun h => cmdWord_fields _ _ (of_decide_eq_true h)
theorem zeroize : Statement .zeroize := fun _ => cmdWord_fields _ _ (by decide)

end Sys2Proof.Laws.Encoding
end

