-- ==== Sys2Proof/Laws/Pss.lean ====
section
/-! SUPPORT. The masks of PSS_ENC and PSS_CHECK (41_pss.md R102, R104, R106) undo each other, and the zero tests of
PSS_CHECK and CT_EQ in the words of lists. -/

namespace Sys2Proof.Machine

/-- All bytes are zero: the string is zeros. -/
theorem allZero_iff (bs : List Byte) : allZero bs = true ↔ bs = zeroBytes bs.length := by
  simp [allZero, zeroBytes, List.eq_replicate_iff]

/-- An OR of bytes is zero when and only when each is. -/
theorem or_foldl_eq_zero (l : List Byte) (a : Byte) :
    l.foldl (· ||| ·) a = 0#8 ↔ a = 0#8 ∧ ∀ b ∈ l, b = 0#8 := by
  induction l generalizing a with
  | nil => simp
  | cons b l ih =>
    have h : (a ||| b = 0#8) ↔ (a = 0#8 ∧ b = 0#8) := BitVec.or_eq_zero_iff
    simp only [List.foldl_cons, ih, List.mem_cons, forall_eq_or_imp, ← and_assoc, h]

/-- The XOR of two strings of one length is zeros when and only when they are equal. -/
theorem xorBytes_eq_zero {x y : List Byte} (h : x.length = y.length) : (∀ b ∈ xorBytes x y, b = 0#8) ↔ x = y := by
  induction x generalizing y with
  | nil => cases y <;> simp_all [xorBytes]
  | cons a x ih =>
    cases y with
    | nil => simp at h
    | cons b y =>
      have := ih (y := y) (by simpa using h)
      simp only [xorBytes, List.zipWith_cons_cons, List.mem_cons, forall_eq_or_imp, List.cons.injEq] at this ⊢
      rw [this, BitVec.xor_eq_zero_iff]

/-- Masking, clearing the top bits and masking again: the string itself with its top bits clear. -/
theorem clearTop_xor_clearTop (zb : Nat) {m k : List Byte} (h : m.length = k.length) :
    clearTop zb (xorBytes (clearTop zb (xorBytes m k)) k) = clearTop zb m := by
  cases m with
  | nil => simp [xorBytes, clearTop]
  | cons a m =>
    cases k with
    | nil => simp at h
    | cons b k =>
      have := xorBytes_xorBytes (x := m) (k := k) (by simpa using h)
      simp only [xorBytes, clearTop, List.zipWith_cons_cons] at this ⊢
      rw [this]
      congr 1
      generalize topMask zb = t
      ext i hi
      simp
      cases a[i] <;> cases b[i] <;> cases t[i] <;> rfl

/-- Clearing top bits that are clear changes nothing. -/
theorem clearTop_of_clear {zb : Nat} {m : List Byte} (h : m.getD 0 0#8 &&& ~~~(topMask zb) = 0#8) :
    clearTop zb m = m := by
  cases m with
  | nil => rfl
  | cons a m =>
    simp only [List.getD_cons_zero] at h
    simp only [clearTop]
    congr 1
    generalize topMask zb = t at *
    ext i hi
    have := congrArg (fun v : Byte => v[i]) h
    simp at this
    simp
    cases ha : a[i] <;> simp_all

/-- After clearing, the top bits are clear. -/
theorem clearTop_clear (zb : Nat) (m : List Byte) : (clearTop zb m).getD 0 0#8 &&& ~~~(topMask zb) = 0#8 := by
  cases m with
  | nil => simp [clearTop]
  | cons a m => simp [clearTop, BitVec.and_assoc]

/-- R102: zb is below 8. -/
theorem zeroBits_le (modBits : Nat) : zeroBits modBits ≤ 7 := by
  simp only [zeroBits, emLen, emBits]
  omega

/-- The top bits of DB are clear: its first byte is 0x00 or the separator. -/
theorem clearTop_pssDb (modBits : Nat) (salt : List Byte) :
    clearTop (zeroBits modBits) (pssDb modBits salt) = pssDb modBits salt := by
  unfold pssDb
  cases hq : emLen modBits - salt.length - Config.hLen - 2 with
  | zero =>
    have hz := zeroBits_le modBits
    simp only [zeroBytes, List.replicate_zero, List.nil_append, clearTop]
    congr 1
    generalize zeroBits modBits = z at hz
    interval_cases z <;> decide
  | succ q => simp [zeroBytes, List.replicate_succ, clearTop]

end Sys2Proof.Machine
end

