-- ==== Sys2Proof/Laws/Step.lean ====
section
/-! SUPPORT. One step, event by event, and the host's 32-bit transactions in a form that later proofs rewrite with. -/

namespace Sys2Proof.Machine

/-- With an empty agenda a step is the engine's turn. -/
theorem step_of_empty {s : State} (h : s.agenda = []) : step s = engineTurn s := by simp [step, h]

/-- A host transaction at the head of the agenda. -/
theorem step_of_bus {s : State} {acc : Access} {rest : List Event} (h : s.agenda = .bus acc :: rest) :
    step s = .next (busAccess acc { s with agenda := rest }) := by simp [step, h, runEvent]

/-- A hardware reset at the head of the agenda. -/
theorem step_of_hwReset {s : State} {rest : List Event} (h : s.agenda = .hwReset :: rest) :
    step s = .next (resetEngine { s with agenda := rest }) := by simp [step, h, runEvent]

/-- The engine's turn at the head of the agenda. -/
theorem step_of_engine {s : State} {rest : List Event} (h : s.agenda = .engine :: rest) :
    step s = engineTurn { s with agenda := rest } := by simp [step, h, runEvent]

/-- A 32-bit write that raises no BusError (R61, R63). -/
theorem busAccess_write32 {off : BitVec 12} (v : Word) (s : State) (h : readFaults off.toNat 32 = false) :
    busAccess (.write (.window off) 32 0b1111#4 v) s = { writeEffect off.toNat v s with resp := .ack } := by
  simp [busAccess, windowOffset, busWrite, writeFaults, h]

/-- A 32-bit read that raises no BusError (R61, R63). -/
theorem busAccess_read32 {off : BitVec 12} (s : State) (h : readFaults off.toNat 32 = false) :
    busAccess (.read (.window off) 32) s = { s with resp := .data (readValue s off.toNat) } := by
  simp [busAccess, windowOffset, busRead, h]

/-- A dropped write (R67). -/
theorem writeEffect_of_busy {off : Nat} (v : Word) {s : State} (hb : s.busy = true) (hn : neverDropped off = false) :
    writeEffect off v s = dropWrite s := by simp [writeEffect, hb, hn]

/-- A write to a register that is not dropped (R64, R66). -/
theorem writeEffect_of_reg {off : Nat} (v : Word) {s : State} {r : Reg} (hr : regAt off = some r)
    (h : s.busy = false ∨ neverDropped off = true) : writeEffect off v s = writeReg r v s := by
  rcases h with h | h <;> simp [writeEffect, h, hr]

/-- A write to a buffer word that is not dropped (R59, R66). -/
theorem writeEffect_of_buf {off : Nat} (v : Word) {s : State} (hr : regAt off = none) (h : s.busy = false) :
    writeEffect off v s = writeBufWord off v s := by simp [writeEffect, h, hr]

/-- No register lies at or above the first buffer (R18, R49). -/
theorem regAt_of_ge {off : Nat} (h : 0x100 ≤ off) : regAt off = none := by
  unfold regAt
  split <;> first | omega | rfl

/-- A buffer word's offset: word `i` of buffer `b` lies in the window, in `b` alone, and raises no BusError (R49, R59). -/
theorem bufOffset_ok {b : Buf} {i : Nat} (h : 4 * i + 4 ≤ b.size) :
    b.base + 4 * i < 4096 ∧ 0x100 ≤ b.base + 4 * i ∧ readFaults (b.base + 4 * i) 32 = false ∧
      bufAt (b.base + 4 * i) = some b := by
  cases b <;> simp only [Buf.base, Buf.size, Config.msgBufBytes, Config.hLen, Config.saltBufBytes, Config.kMax] at h ⊢ <;>
    refine ⟨by omega, by omega, ?_, ?_⟩ <;>
    simp [readFaults, reservedOffset, bufAt, allBufs, List.find?, Buf.covers, Buf.base, Buf.size, Config.msgBufBytes,
      Config.hLen, Config.saltBufBytes, Config.kMax] <;> grind

/-- A read that raises no BusError answers readValue of the state it reads, and changes only the answer (R65). -/
theorem answers_readValue (s : State) {off : BitVec 12} (h : readFaults off.toNat 32 = false) :
    Answers s off (readValue s off.toNat) := by
  intro rest
  rw [step_of_bus (s := { s with agenda := busRead32 off :: rest }) rfl, busAccess_read32 _ h]
  have same : readValue { s with agenda := rest } off.toNat = readValue s off.toNat := by
    unfold readValue
    split
    · next r _ => cases r <;> rfl
    · rfl
  rw [← same]

end Sys2Proof.Machine
end

