-- ==== Sys2Proof/Laws/Script.lean ====
section
/-! SUPPORT. What the lines of a host script do (30_encoding.md R84): lists of events compose, a POLL reads STATUS until
BUSY reads 0, a program has an end state exactly where its last operation leaves BUSY = 0 (R164), and the events of a program are an agenda that step runs. -/

namespace Sys2Proof.Machine

/-- Events in order: the first list, then the second. -/
theorem runEvents_append {es fs : List Event} {s t : State} (h : runEvents es s = .next t) :
    runEvents (es ++ fs) s = runEvents fs t := by
  induction es generalizing s with
  | nil => cases h; rfl
  | cons e es ih =>
    simp only [runEvents, List.cons_append] at h ⊢
    cases he : runEvent e s with
    | next u => rw [he] at h; exact ih h
    | fault f => rw [he] at h; cases h
    | refused r => rw [he] at h; cases h

/-- One event of a program is one step of the machine whose agenda begins with it. -/
theorem step_eq_runEvent (e : Event) (rest : List Event) (s : State) :
    step { s with agenda := e :: rest } = runEvent e { s with agenda := rest } := rfl

/-- One read of STATUS: its bit 0 is BUSY, and nothing but the answer changes (R22, R65). -/
theorem runEvents_readStatus (s : State) :
    runEvents [readEvent 0x00C] s = .next { s with resp := .data (statusWord s) } := rfl

/-- Reads of STATUS, one after another, change only the answer: the STATUS word, with BUSY in bit 0. -/
theorem runEvents_readStatus_many (n : Nat) (s : State) :
    ∃ r, runEvents (List.replicate n (readEvent 0x00C)) s = .next { s with resp := r } ∧
      (n ≠ 0 → r = .data (statusWord s)) := by
  induction n with
  | zero => exact ⟨s.resp, rfl, fun h => absurd rfl h⟩
  | succ n ih =>
    obtain ⟨r, hr, -⟩ := ih
    exact ⟨_, by rw [List.replicate_succ', runEvents_append hr]; rfl, fun _ => rfl⟩

/-- Bit 0 of the STATUS word is BUSY (R22). -/
theorem statusWord_busy (s : State) : (statusWord s).getLsbD 0 = s.busy := by
  rw [statusWord, BitVec.getLsbD_append]
  cases s.busy <;> rfl

/-- The engine's turn leaves BUSY = 0 (R130). -/
theorem engineTurn_not_busy (s : State) : ∃ t, engineTurn s = .next t ∧ t.busy = false := by
  unfold engineTurn
  split
  · unfold completionStep
    split
    · next i _ =>
      obtain ⟨t, ht⟩ := exec_next i s
      obtain ⟨e, u, rfl, -⟩ := exec_effect ht
      exact ⟨_, ht, rfl⟩
    · exact ⟨_, rfl, rfl⟩
  · next h => exact ⟨s, rfl, by simpa using h⟩

/-- R84: a POLL ends with a read of STATUS that sees BUSY = 0. -/
theorem poll_ends (busyReads : Nat) (s : State) :
    ∃ t w, runEvents (pollEvents busyReads s.busy) s = .next t ∧ t.busy = false ∧ t.resp = .data w ∧
      w.getLsbD 0 = false := by
  cases hb : s.busy with
  | false =>
    exact ⟨_, _, runEvents_readStatus s, hb, rfl, by rw [statusWord_busy, hb]⟩
  | true =>
    obtain ⟨r, hr, -⟩ := runEvents_readStatus_many busyReads s
    obtain ⟨t, ht, hidle⟩ := engineTurn_not_busy { s with resp := r }
    have turn : runEvents [.engine] { s with resp := r } = .next t := by simp [runEvents, runEvent, ht]
    refine ⟨{ t with resp := .data (statusWord t) }, statusWord t, ?_, hidle, rfl, by rw [statusWord_busy, hidle]⟩
    rw [pollEvents, if_pos rfl, runEvents_append hr]
    exact runEvents_append turn

/-- R84: while the command is pending, every read of a POLL before the engine's turn sees BUSY = 1, so the POLL goes on. -/
theorem poll_goes_on {n : Nat} {s : State} (hn : n ≠ 0) (hb : s.busy = true) :
    ∃ t w, runEvents (List.replicate n (readEvent 0x00C)) s = .next t ∧ t.resp = .data w ∧ w.getLsbD 0 = true := by
  obtain ⟨r, hr, hw⟩ := runEvents_readStatus_many n s
  exact ⟨_, _, hr, hw hn, by rw [statusWord_busy, hb]⟩

/-! ### The end of a run (R164) -/

/-- A state is an end state exactly where no command is pending. -/
theorem scriptEnd_eq_some {t u : State} : scriptEnd t = some u ↔ t.busy = false ∧ u = t := by
  cases hb : t.busy <;> simp [scriptEnd, hb, eq_comm (a := t)]

/-- Its first line, then the rest: a run of a program that runs. -/
theorem runScript_cons {l : ScriptLine} {ls : List ScriptLine} {s : State} {r : ScriptRun}
    (h : runScript (l :: ls) s = some r) :
    ∃ es t q, expandLine l s = some es ∧ runEvents es s = .next t ∧ runScript ls t = some q ∧
      r = ⟨es ++ q.events, q.endState, lineHolds l t && q.holds⟩ := by
  rw [runScript] at h
  cases hes : expandLine l s with
  | none => rw [hes] at h; cases h
  | some es =>
    cases ht : runEvents es s with
    | fault f => simp [hes, ht] at h
    | refused f => simp [hes, ht] at h
    | next t =>
      simp only [hes, ht, Option.map_eq_some_iff] at h
      obtain ⟨q, hq, rfl⟩ := h
      exact ⟨es, t, q, rfl, ht, hq, rfl⟩

/-- A run's events lead to the state that its end state is taken from. -/
theorem runScript_end {ls : List ScriptLine} {s : State} {r : ScriptRun} (h : runScript ls s = some r) :
    ∃ t, runEvents r.events s = .next t ∧ r.endState = scriptEnd t := by
  induction ls generalizing s r with
  | nil => cases h; exact ⟨s, rfl, rfl⟩
  | cons l ls ih =>
    obtain ⟨es, t, q, -, ht, hq, rfl⟩ := runScript_cons h
    obtain ⟨u, hu, he⟩ := ih hq
    exact ⟨u, by rw [runEvents_append ht, hu], he⟩

/-- A run of a program with a last line `l`: that line runs from some state, and the end state is taken after it. -/
theorem runScript_lastLine {ls : List ScriptLine} {l : ScriptLine} {s : State} {r : ScriptRun}
    (h : runScript (ls ++ [l]) s = some r) :
    ∃ u es t, expandLine l u = some es ∧ runEvents es u = .next t ∧ r.endState = scriptEnd t := by
  induction ls generalizing s r with
  | nil =>
    obtain ⟨es, t, q, hes, ht, hq, rfl⟩ := runScript_cons h
    cases hq
    exact ⟨s, es, t, hes, ht, rfl⟩
  | cons k ls ih =>
    obtain ⟨-, t, q, -, -, hq, rfl⟩ := runScript_cons h
    exact ih (r := q) hq

/-- R164: a program whose last line is a POLL has an end state. -/
theorem runScript_poll_hasEnd {ls : List ScriptLine} {n : Nat} {s : State} {r : ScriptRun}
    (h : runScript (ls ++ [.poll n]) s = some r) : ∃ t, r.endState = some t ∧ t.busy = false := by
  obtain ⟨u, es, t, hes, ht, he⟩ := runScript_lastLine h
  cases hes
  obtain ⟨t', w, ht', hb, -⟩ := poll_ends n u
  cases ht.symm.trans ht'
  exact ⟨t, by rw [he, scriptEnd_eq_some.mpr ⟨hb, rfl⟩], hb⟩

/-- SRST resets the engine, whether or not a command is pending (R21, R150). -/
theorem runEvents_srst (s : State) :
    runEvents [writeEvent 0x008 1#32] s = .next { resetEngine s with resp := .ack } := by
  have he : writeEffect 0x008 1#32 s = resetEngine s := by
    unfold writeEffect
    cases s.busy <;> rfl
  rw [← he]
  rfl

/-- R164: a program whose last line is an SRST has an end state, since it aborts a pending command (R150). -/
theorem runScript_srst_hasEnd {ls : List ScriptLine} {s : State} {r : ScriptRun}
    (h : runScript (ls ++ [.srst]) s = some r) : ∃ t, r.endState = some t ∧ t.busy = false := by
  obtain ⟨u, es, t, hes, ht, he⟩ := runScript_lastLine h
  cases hes
  have hb : t.busy = false := by cases ht.symm.trans (runEvents_srst u); rfl
  exact ⟨t, by rw [he, scriptEnd_eq_some.mpr ⟨hb, rfl⟩], hb⟩

/-- After a write of CMD a command is pending: the one written, or the one before it (R29, R67). -/
theorem writeCmd_busy (v : Word) (s : State) : ∃ t, runEvents [writeEvent 0x010 v] s = .next t ∧ t.busy = true := by
  refine ⟨{ writeEffect 0x010 v s with resp := .ack }, rfl, ?_⟩
  cases hb : s.busy with
  | true => simp [writeEffect, neverDropped, dropWrite, hb]
  | false => simp [writeEffect, hb, show regAt 0x010 = some .cmd from rfl, writeReg]

/-- R164: a program whose last line is a CMD has no end state, since that command has not completed. -/
theorem runScript_cmd_noEnd {ls : List ScriptLine} {m : String} {len : Option Nat} {s : State} {r : ScriptRun}
    (h : runScript (ls ++ [.cmd m len]) s = some r) : r.endState = none := by
  obtain ⟨u, es, t, hes, ht, he⟩ := runScript_lastLine h
  simp only [expandLine] at hes
  split at hes
  · split at hes
    · cases hes
      obtain ⟨t', ht', hb⟩ := writeCmd_busy (encode _) u
      cases ht.symm.trans ht'
      simp [he, scriptEnd, hb]
    · cases hes
  · cases hes

end Sys2Proof.Machine
end

