-- ==== Sys2Proof/Tests/Slice0.lean ====
section
/-! SUPPORT. The model's own tests. Expected values are those of spec/95_test_vectors.md, spec/30_encoding.md and the
examples of the rules named beside each test. Then, for every statement with hypotheses, a concrete input that meets them
all (witness_<the statement's name>), at the bounds of its ranges. -/

namespace Sys2Proof.Tests

set_option maxRecDepth 100000
set_option Elab.async false

open Sys2Proof.Machine

/-! ### Helpers -/

/-- The next state of an outcome. -/
def nextOf (o : Host.Outcome State Fault Refusal) : Option State :=
  match o with
  | .next t => some t
  | .fault _ => none
  | .refused _ => none

/-- What a test looks at in the next state. -/
def look {α : Type} (o : Host.Outcome State Fault Refusal) (f : State → α) : Option α := (nextOf o).map f

/-- The outcome is a next state with the property `p`. -/
def nextWith (o : Host.Outcome State Fault Refusal) (p : State → Bool) : Prop := ∃ t, o = .next t ∧ p t = true

theorem nextWith_of_look {o : Host.Outcome State Fault Refusal} {p : State → Bool} (h : look o p = some true) :
    nextWith o p := by
  cases o with
  | next t => exact ⟨t, rfl, by simpa [look, nextOf] using h⟩
  | fault f => cases f
  | refused r => simp [look, nextOf] at h

/-- The reset state with these events to come. -/
def withAgenda (es : List Event) : State := { State.reset with agenda := es }

/-- The command word `v` pending, and these events to come. -/
def busyWith (v : Word) (es : List Event) : State := { withAgenda es with cmdPend := v, busy := true }

/-- The bytes of a numeral, `n` of them, big-endian. -/
def hex (x n : Nat) : List Byte := i2osp x n

/-- SHA256("abc"), vector S2. -/
def abcDigest : List Byte := hex 0xba7816bf8f01cfea414140de5dae2223b00361a396177a9cb410ff61f20015ad 32

/-- The modulus of key K288. -/
def k288 : List Byte :=
  hex 0xd0660af77ef28c5034c833d8fc2514e18f94970df7b132ed8a9297848344b49f486c1687 36

/-- The private exponent of key K288. -/
def k288d : List Byte :=
  hex 0x21c5f7cf065ece888d1548f9c85b46180c0990d3439b3cd64c82d1cffeed581eb840a621 36

/-- The EM of the example of R105. -/
def exampleEm : List Byte :=
  hex 0x569e2c993e02ecd605689a2a587435e976d5e78e51f0aa0a1b22ef5c375549bf0d3cd9bc 36

/-- The signature of the example of R119. -/
def exampleSig : List Byte :=
  hex 0xc68a364f6bdf3cfacd82411ef6877003a355706520dc6a6f5bf7c7fc64b4d4ce193c7201 36

/-- Key K288 loaded, SLEN = 2, salt a5 5a, DIGEST_BUF = SHA256("abc"), the exponent `e` in EXP_BUF. -/
def loaded288 (e : List Byte) : State :=
  putBuf .exp e (putBuf .n k288 (putBuf .salt [0xa5#8, 0x5a#8] (putBuf .digest abcDigest
    { State.reset with nLen := 36#16, modBits := 288#13, keyValid := true, slen := 2#16,
                       expLen := BitVec.ofNat 16 e.length })))

/-- A legal key with few bytes: n = 2^271 + 1, so k = 34, MOD_BITS = 272 and emLen = 34 = 34 + SLEN; exponent 1. -/
def sparseKey : State :=
  { State.reset with
    nLen := 34#16, modBits := 272#13, keyValid := true, slen := 0#16, expLen := 1#16
    mem := [(0x800, 0x80#8), (0x821, 0x01#8), (0xA00, 0x01#8)] }

/-- A legal key with MOD_BITS mod 8 = 1 (vector K7): n = 257. -/
def nineBitKey : State :=
  { State.reset with nLen := 2#16, modBits := 9#13, keyValid := true, mem := [(0x800, 0x01#8), (0x801, 0x01#8)] }

/-- A context that has absorbed "abc". -/
def abcContext : State :=
  { State.reset with shaState := .active, hc := hashInit, blk := [0x61#8, 0x62#8, 0x63#8], total := 3#61 }

/-! ### WellFormed: L must fit 16 bits (R79) -/

theorem test_wf_shaUpdate : (Instr.shaUpdate 65535).wf = true ∧ (Instr.shaUpdate 65536).wf = false := by decide
theorem test_wf_mgf1 : (Instr.mgf1 65535).wf = true ∧ (Instr.mgf1 65536).wf = false := by decide
theorem test_wf_cmp : (Instr.cmp 65535).wf = true ∧ (Instr.cmp 65536).wf = false := by decide
theorem test_wf_verify : (Instr.verify 65535).wf = true ∧ (Instr.verify 65536).wf = false := by decide

/-! ### Decode: OPC in [7:0], RSV in [15:8], LEN16 in [31:16], written out bit by bit (R78, R80) -/

theorem test_decode_nop : decode 0b0000000000000000_00000000_00000000#32 = .ok .nop := by decide
theorem test_decode_shaInit : decode 0b0000000000000000_00000000_00000001#32 = .ok .shaInit := by decide
theorem test_decode_shaUpdate : decode 0b0000000000000011_00000000_00000010#32 = .ok (.shaUpdate 3) := by decide
theorem test_decode_shaFinal : decode 0b0000000000000000_00000000_00000011#32 = .ok .shaFinal := by decide
theorem test_decode_mgf1 : decode 0b0000000000101000_00000000_00010000#32 = .ok (.mgf1 40) := by decide
theorem test_decode_pssEncode : decode 0b0000000000000000_00000000_00010001#32 = .ok .pssEncode := by decide
theorem test_decode_pssVerify : decode 0b0000000000000000_00000000_00010010#32 = .ok .pssVerify := by decide
theorem test_decode_keyLoad : decode 0b0000000000000000_00000000_00100000#32 = .ok .keyLoad := by decide
theorem test_decode_modexp : decode 0b0000000000000000_00000000_00100001#32 = .ok .modexp := by decide
theorem test_decode_cmp : decode 0b1111111111111111_00000000_00110000#32 = .ok (.cmp 65535) := by decide
theorem test_decode_sign : decode 0b0000000000000000_00000000_01000000#32 = .ok .sign := by decide
theorem test_decode_verify : decode 0b1000000000000001_00000000_01000001#32 = .ok (.verify 32769) := by decide
theorem test_decode_zeroize : decode 0b0000000000000000_00000000_01111111#32 = .ok .zeroize := by decide

/-- Vectors D14 to D21: the rejected words, each with its reason (R82). -/
theorem test_decode_rejects :
    decode 0x00000004#32 = .error .unassignedOpcode ∧ decode 0x00000080#32 = .error .unassignedOpcode ∧
    decode 0x000000FF#32 = .error .unassignedOpcode ∧ decode 0x00000100#32 = .error .reservedField ∧
    decode 0x00000102#32 = .error .reservedField ∧ decode 0x00010001#32 = .error .lengthNotAllowed ∧
    decode 0x00010040#32 = .error .lengthNotAllowed ∧ decode 0x8000007F#32 = .error .lengthNotAllowed := by decide

theorem test_decodeTableWord : decodeTableWord 16 0x41 = some (.verify 0) ∧ decodeTableWord 32 0x240041 = some (.verify 36) := by
  decide

/-- A placed word is the one the very next step runs. -/
theorem test_withFetchWord :
    (look (step (State.reset.withFetchWord 32 0x1)) fun t => (readValue t 0x00C, t.agenda)) = some (0x10#32, []) := by
  decide +kernel

/-! ### The commands, one step each -/

/-- R125: NOP clears ERR_CODE but not INT_STATUS.ERR. -/
theorem test_nop : (look (exec .nop { State.reset with errCode := .badCmd, intStatus := 0b010#3 })
    fun t => (t.errCode, t.intStatus)) = some (.none, 0b011#3) := by decide

/-- R95's example. -/
theorem test_shaInit : (look (exec .shaInit State.reset) fun t => (readValue t 0x00C, t.hc.h0)) =
    some (0x00000010#32, 0x6a09e667#32) := by decide +kernel

/-- R96's example. -/
theorem test_shaUpdate_abc :
    (look (exec (.shaUpdate 3) (putBuf .msg [0x61#8, 0x62#8, 0x63#8] { abcContext with blk := [], total := 0#61 }))
      fun t => (readValue t 0x030, t.blk)) = some (3#32, [0x61#8, 0x62#8, 0x63#8]) := by decide +kernel

/-- Vector Q3: LEN comes before MISUSE. -/
theorem test_shaUpdate_checkOrder : (look (exec (.shaUpdate 257) State.reset) State.errCode) = some .len := by decide

/-- R97's example. -/
theorem test_shaFinal_abc : (look (exec .shaFinal abcContext) fun t => (bufBytes t .digest 32, readValue t 0x00C)) =
    some (abcDigest, 0x00000020#32) := by decide +kernel

/-- R97: a second SHA_FINAL is MISUSE (vector Q5). -/
theorem test_shaFinal_misuse : (look (exec .shaFinal { State.reset with shaState := .final })
    fun t => readValue t 0x00C) = some 0x00000320#32 := by decide

/-- R101's example. -/
theorem test_mgf1 : (look (exec (.mgf1 40) (putBuf .digest abcDigest State.reset)) fun t => bufBytes t .r 41) =
    some (hex 0x7c9bbb36dd3046a17eaaf5cf578b09b2da8b77af4e6087533990f8266c4434d4cf71b45c1d2d535c00 41) := by
  decide +kernel

/-- R105's example. -/
theorem test_pssEncode : (look (exec .pssEncode (loaded288 [])) fun t => bufBytes t .a 36) = some exampleEm := by
  decide +kernel

/-- R105 with R103: SLEN = 3 leaves no room in a 36-byte EM. -/
theorem test_pssEncode_param : (look (exec .pssEncode { loaded288 [] with slen := 3#16 }) State.errCode) =
    some .param := by decide +kernel

/-- R108's example. -/
theorem test_pssVerify : (look (exec .pssVerify (putBuf .r exampleEm (loaded288 []))) fun t => (t.errCode, t.result)) =
    some (.none, true) := by decide +kernel

/-- R108's example with SLEN = 3. -/
theorem test_pssVerify_wrongSalt : (look (exec .pssVerify { putBuf .r exampleEm (loaded288 []) with slen := 3#16 })
    fun t => (t.errCode, t.result)) = some (.none, false) := by decide +kernel

/-- R110's example: n = 13. -/
theorem test_keyLoad : (look (exec .keyLoad { State.reset with nLen := 1#16, mem := [(0x800, 0x0D#8)] })
    fun t => (readValue t 0x00C, readValue t 0x028, readValue t 0x02C)) = some (0x00000004#32, 4#32, 1#32) := by
  decide +kernel

/-- R110: an even modulus. -/
theorem test_keyLoad_even : (look (exec .keyLoad { State.reset with nLen := 1#16, mem := [(0x800, 0x0C#8)] })
    fun t => (t.errCode, t.keyValid)) = some (.invalidKey, false) := by decide +kernel

/-- R114's example: 2^10 mod 13 = 10. -/
theorem test_modexp : (look (exec .modexp { State.reset with
      nLen := 1#16, expLen := 1#16, keyValid := true, modBits := 4#13
      mem := [(0x800, 0x0D#8), (0xA00, 0x0A#8), (0xC00, 0x02#8)] })
    fun t => bufBytes t .r 1) = some [0x0A#8] := by decide +kernel

/-- R114: a base that is not below the modulus. -/
theorem test_modexp_range : (look (exec .modexp { State.reset with
      nLen := 1#16, expLen := 1#16, keyValid := true, modBits := 4#13
      mem := [(0x800, 0x0D#8), (0xA00, 0x0A#8), (0xC00, 0x0D#8)] })
    State.errCode) = some .range := by decide +kernel

/-- R117's example: the last of four bytes differs. -/
theorem test_cmp :
    (look (exec (.cmp 4) (putBuf .r (hex 0xdeadbeee 4) (putBuf .a (hex 0xdeadbeef 4) State.reset))) State.result) =
      some false ∧
    (look (exec (.cmp 3) (putBuf .r (hex 0xdeadbeee 4) (putBuf .a (hex 0xdeadbeef 4) State.reset))) State.result) =
      some true := by decide +kernel

/-- R119's example. -/
theorem test_sign : (look (exec .sign (loaded288 k288d)) fun t => (bufBytes t .a 36, bufBytes t .r 36)) =
    some (exampleEm, exampleSig) := by decide +kernel

/-- R120's example. -/
theorem test_verify : (look (exec (.verify 36) (putBuf .a exampleSig (loaded288 (hex 0x010001 3))))
    fun t => (t.result, t.errCode, bufBytes t .r 36)) = some (true, .none, exampleEm) := by decide +kernel

/-- R120's example with a signature of 35 bytes. -/
theorem test_verify_short : (look (exec (.verify 35) (putBuf .a exampleSig (loaded288 (hex 0x010001 3))))
    fun t => (t.result, t.errCode)) = some (false, .none) := by decide +kernel

/-- R126: what ZEROIZE clears and what it keeps (after vector Z5). -/
theorem test_zeroize : (look (exec .zeroize { loaded288 [] with result := true, shaState := .active, intEn := 1#3 })
    fun t => (readValue t 0x00C, t.mem, t.nLen, t.slen, t.intEn)) = some (0#32, [], 36#16, 2#16, 1#3) := by
  decide +kernel

/-! ### The bus -/

/-- Vector B8: the reserved bits of SLEN are not stored. -/
theorem test_bus_slen : readValue (busAccess (.write (.window 0x01C#12) 32 0b1111#4 0xFFFF0021#32) State.reset) 0x01C =
    0x00000021#32 := by decide

/-- Vector B11: a buffer word, and a misaligned read. -/
theorem test_bus_digestWord :
    readValue (busAccess (.write (.window 0x200#12) 32 0b1111#4 0xCAFEF00D#32) State.reset) 0x200 = 0xCAFEF00D#32 ∧
    Memory.read (busAccess (.write (.window 0x200#12) 32 0b1111#4 0xCAFEF00D#32) State.reset).mem 0x200 = 0xCA#8 ∧
    (busAccess (.read (.window 0x203#12) 32) State.reset).resp = .busError := by decide +kernel

/-- Vector B12: while BUSY = 1 a write is dropped and sets OVR, and a buffer reads 0. -/
theorem test_bus_busy :
    (busAccess (.write (.window 0x01C#12) 32 0b1111#4 5#32) (busyWith 0#32 [])).slen = 32#16 ∧
    (busAccess (.write (.window 0x01C#12) 32 0b1111#4 5#32) (busyWith 0#32 [])).intStatus = 0b100#3 ∧
    readValue { busyWith 0#32 [] with mem := [(0x100, 0x61#8)] } 0x100 = 0#32 := by decide +kernel

/-- R84: the events of a script from reset. A POLL with a command pending goes on until the engine's turn; one with none
pending reads once. -/
theorem test_script_events :
    expandScript [.wrBuf .a [1#8, 2#8, 3#8], .cmd "CMP" (some 3), .poll 2, .poll 2] State.reset =
      some [writeEvent 0xC00 0x01020300#32, writeEvent 0x010 0x00030030#32, readEvent 0x00C, readEvent 0x00C, .engine,
        readEvent 0x00C, readEvent 0x00C] := by decide +kernel

/-- R84: `RD off -> val`, with the values of the example of R125 and of vector B8, and with a wrong one. -/
theorem test_script_reads :
    (runScript [.wr 0x01C#12 0xFFFF0021#32, .rdIs 0x01C#12 0x21#32, .cmd "NOP" none, .poll 0, .rdIs 0x00C#12 0#32,
      .rdIs 0x014#12 1#32] State.reset).map (fun r => r.holds) = some true ∧
    (runScript [.rdIs 0x01C#12 0x21#32] State.reset).map (fun r => r.holds) = some false := by decide +kernel

/-- R164: no end state while the last command is pending; one after a POLL, and one after an SRST that aborts it (the last
lines of program P4 of 95_test_vectors.md). -/
theorem test_script_end :
    (runScript [.cmd "NOP" none] State.reset).map (fun r => r.endState) = some none ∧
    (runScript [.cmd "NOP" none, .poll 1] State.reset).map (fun r => r.endState.map State.busy) = some (some false) ∧
    (runScript [.cmd "NOP" none, .srst, .rd 0x018#12] State.reset).map
      (fun r => r.endState.map fun t => { t with resp := .noAccess }) = some (some State.reset) := by decide +kernel

/-- R85: lines that are refused. -/
theorem test_script_refused :
    expandScript [.cmd "NOP" (some 1)] State.reset = none ∧ expandScript [.cmd "nop" none] State.reset = none := by
  decide +kernel

/-- The last word of the window, and the word past it: it leaves the window and does not wrap to 0x000 (log entry 13). -/
theorem test_script_pastWindow :
    readEvent 0xFFC = .bus (.read (.window 0xFFC#12) 32) ∧
      readEvent 0x1000 = .bus (.read (.platform (Config.baseAddr + 0x1000)) 32) := ⟨by decide, rfl⟩

/-! ### Memory keeps its canonical form -/

theorem test_memory_canonical :
    Memory.write [(0x100, 1#8), (0x102, 3#8)] 0x101 2#8 = [(0x100, 1#8), (0x101, 2#8), (0x102, 3#8)] ∧
    Memory.write [(0x100, 1#8), (0x102, 3#8)] 0x100 0#8 = [(0x102, 3#8)] ∧
    Memory.write [(0x100, 1#8)] 0x101 0#8 = [(0x100, 1#8)] := by decide

/-! ### Witnesses: inputs that meet every hypothesis of the statement named, at the bounds of its ranges -/

theorem witness_DecodeOfEncode : (Instr.verify 65535).wf = true ∧ (Instr.cmp 0).wf = true ∧ Instr.zeroize.wf = true := by
  decide

theorem witness_EncodeOfDecode : decode 0xFFFF0041#32 = .ok (.verify 65535) ∧ decode 0x0000007F#32 = .ok .zeroize := by
  decide

/-- One clause each: the two ways to a command. -/
theorem witness_DecodeSelectsOneTableRow :
    (⟨"MGF1", 0x00000010#32, 0x0000FFFF#32⟩ : OpcodeRow) ∈ opcodeTable ∧
      (⟨"MGF1", 0x00000010#32, 0x0000FFFF#32⟩ : OpcodeRow).selects 0xFFFF0010#32 = true ∧
      decode 0xFFFF0010#32 = .ok (.mgf1 65535) := by decide

theorem witness_StepRunsPendingCommand :
    (busyWith 0x00040030#32 []).busy = true ∧ decode (busyWith 0x00040030#32 []).cmdPend = .ok (.cmp 4) ∧
      (busyWith 0x00040030#32 []).agenda = [] ∧
      (busyWith 0x00040030#32 [.engine, .hwReset]).agenda = .engine :: [.hwReset] := by decide

theorem witness_CommandWriteIsAcceptedOrDropped :
    (withAgenda [busWrite32 0x010#12 0x1#32]).agenda = busWrite32 0x010#12 0x1#32 :: [] ∧
      (withAgenda [busWrite32 0x010#12 0x1#32]).busy = false ∧
      (busyWith 0#32 [busWrite32 0x010#12 0x1#32]).agenda = busWrite32 0x010#12 0x1#32 :: [] ∧
      (busyWith 0#32 [busWrite32 0x010#12 0x1#32]).busy = true := by decide

theorem witness_AcceptedCommandRuns :
    (Instr.shaUpdate 65535).wf = true ∧
      (withAgenda [busWrite32 0x010#12 (encode (.shaUpdate 65535)), .engine]).busy = false ∧
      (withAgenda [busWrite32 0x010#12 (encode (.shaUpdate 65535)), .engine]).agenda =
        busWrite32 0x010#12 (encode (.shaUpdate 65535)) :: .engine :: [] := by decide

theorem witness_PendingCommandCompletes :
    (busyWith 0xFFFFFFFF#32 []).busy = true ∧ (busyWith 0xFFFFFFFF#32 []).agenda = [] ∧
      (busyWith 0x1#32 [.engine]).busy = true ∧ ∃ rest, (busyWith 0x1#32 [.engine]).agenda = .engine :: rest :=
  ⟨rfl, rfl, rfl, [], rfl⟩

theorem witness_IdleEngineHasNoStep :
    State.reset.busy = false ∧ State.reset.agenda = [] ∧ (withAgenda [.engine]).busy = false ∧
      (withAgenda [.engine]).agenda = .engine :: [] := by decide

/-- One for each kind of illegal word: RSV, OPC, LEN16. -/
theorem witness_UndecodableWordIsBadCmd :
    (0x00000100#32 : Word).toNat / 256 % 256 ≠ 0 ∧
      (0x00000004#32 : Word).toNat % 256 ∉
        [0x00, 0x01, 0x02, 0x03, 0x10, 0x11, 0x12, 0x20, 0x21, 0x30, 0x40, 0x41, 0x7F] ∧
      ((0x8000007F#32 : Word).toNat % 256 ∉ [0x02, 0x10, 0x30, 0x41] ∧ (0x8000007F#32 : Word).toNat / 65536 ≠ 0) ∧
      ∀ v : Word, (withAgenda [busWrite32 0x010#12 v, .engine]).busy = false ∧
        (withAgenda [busWrite32 0x010#12 v, .engine]).agenda = busWrite32 0x010#12 v :: .engine :: [] :=
  ⟨by decide, by decide, by decide, fun _ => ⟨rfl, rfl⟩⟩

theorem witness_ResetAtAnyTime :
    (busyWith 0x40#32 [.hwReset]).agenda = .hwReset :: [] ∧
      ((busyWith 0x40#32 [busWrite32 0x008#12 1#32]).agenda = busWrite32 0x008#12 1#32 :: [] ∧
        (1#32 : Word).getLsbD 0 = true) ∧
      ((busyWith 0x40#32 [busWrite32 0x008#12 2#32]).agenda = busWrite32 0x008#12 2#32 :: [] ∧
        (2#32 : Word).getLsbD 0 = false) ∧
      (withAgenda [busRead32 0x008#12]).agenda = busRead32 0x008#12 :: [] := by decide

/-- Each way to a BusError at the bounds of its range, the offsets just outside the ranges, and an address outside the
window. -/
theorem witness_BusErrorHasNoEffect :
    (∀ off ∈ [0x001#12, 0x002#12, 0x003#12, 0xFFF#12], off.toNat % 4 ≠ 0) ∧
      (∀ off ∈ [0x03C#12, 0x0FC#12, 0x220#12, 0x3FC#12, 0x600#12, 0x7FC#12],
        (0x03C ≤ off.toNat ∧ off.toNat ≤ 0x0FF) ∨ (0x220 ≤ off.toNat ∧ off.toNat ≤ 0x3FF) ∨
          (0x600 ≤ off.toNat ∧ off.toNat ≤ 0x7FF)) ∧
      (∀ off ∈ [0x000#12, 0x038#12, 0x100#12, 0x21C#12, 0x400#12, 0x5FC#12, 0x800#12, 0xFFC#12],
        ¬(off.toNat % 4 ≠ 0 ∨ (32 : Nat) ≠ 32 ∨ (0x03C ≤ off.toNat ∧ off.toNat ≤ 0x0FF) ∨
          (0x220 ≤ off.toNat ∧ off.toNat ≤ 0x3FF) ∨ (0x600 ≤ off.toNat ∧ off.toNat ≤ 0x7FF))) ∧
      (8 : Nat) ≠ 32 ∧ (0b0111#4 : BitVec 4) ≠ 0b1111#4 ∧
      (∀ acc, (withAgenda [.bus acc]).agenda = .bus acc :: []) ∧
      Config.baseAddr + 0x1000 ≤ Config.baseAddr + 0x1000 :=
  ⟨by simp, by simp, by simp, by decide, by decide, fun _ => rfl, Nat.le_refl _⟩

theorem witness_ReadsHaveNoSideEffect (t : Target) (width : Nat) :
    (withAgenda [.bus (.read t width), .bus (.read t width)]).agenda =
      .bus (.read t width) :: .bus (.read t width) :: [] := rfl

theorem witness_ReadOnlyRegistersIgnoreWrites :
    (0x000#12 : BitVec 12) ∈ [0x000#12, 0x004#12, 0x00C#12, 0x028#12, 0x02C#12, 0x030#12, 0x034#12, 0x038#12] ∧
      (withAgenda [busWrite32 0x000#12 1#32]).agenda = busWrite32 0x000#12 1#32 :: [] ∧
      (withAgenda [busWrite32 0x000#12 1#32]).busy = false ∧
      (busyWith 0#32 [busWrite32 0x038#12 1#32]).agenda = busWrite32 0x038#12 1#32 :: [] ∧
      (busyWith 0#32 [busWrite32 0x038#12 1#32]).busy = true := by decide

/-- The first clause at the bounds of the mapped ranges, then the three registers of the others. -/
theorem witness_BusyDropsWrites :
    ((0#32 : Word).getLsbD 0 = false ∧ (1#32 : Word).getLsbD 0 = true) ∧ (∀ off ∈ [0x000#12, 0x010#12, 0x038#12, 0x100#12, 0x21C#12, 0x400#12, 0x5FC#12, 0x800#12, 0xFFC#12],
      off.toNat % 4 = 0 ∧ off ∉ [0x008#12, 0x014#12, 0x018#12] ∧ reservedOffset off.toNat = false) ∧
      ∀ (off : BitVec 12) (v : Word), (busyWith 0#32 [busWrite32 off v]).busy = true ∧
        (busyWith 0#32 [busWrite32 off v]).agenda = busWrite32 off v :: [] :=
  ⟨by decide, by simp [reservedOffset], fun _ _ => ⟨rfl, rfl⟩⟩

theorem witness_BusyReads :
    (∀ off ∈ [0x100#12, 0x21C#12, 0x400#12, 0x5FC#12, 0x800#12, 0xFFC#12],
      off.toNat % 4 = 0 ∧ 0x100 ≤ off.toNat ∧ reservedOffset off.toNat = false) ∧
      (∀ off ∈ [0x000#12, 0x038#12], off.toNat % 4 = 0 ∧ off.toNat ≤ 0x038) ∧
      ∀ off : BitVec 12, (busyWith 0#32 [busRead32 off]).busy = true ∧
        (busyWith 0#32 [busRead32 off]).agenda = busRead32 off :: [] :=
  ⟨by simp [reservedOffset], by simp, fun _ => ⟨rfl, rfl⟩⟩

/-- The offsets of the last clause, at its bounds. -/
theorem witness_RegisterReads : ∀ off ∈ [0x000#12, 0x038#12], off.toNat % 4 = 0 ∧ off.toNat ≤ 0x038 := by decide

theorem witness_EmLenRegisterReads :
    sparseKey.keyValid = true ∧ 1 ≤ sparseKey.modBits.toNat ∧ nineBitKey.keyValid = true ∧
      1 ≤ nineBitKey.modBits.toNat ∧ State.reset.keyValid = false := by decide

/-- A legal key with MOD_BITS mod 8 ≠ 1, and one with MOD_BITS mod 8 = 1. -/
theorem witness_KeySizeBounds :
    KeyOk sparseKey ∧ sparseKey.keyValid = true ∧ sparseKey.modBits.toNat % 8 ≠ 1 ∧
      KeyOk nineBitKey ∧ nineBitKey.keyValid = true ∧ nineBitKey.modBits.toNat % 8 = 1 := by decide +kernel

theorem witness_InterruptRegisterWrites :
    (busyWith 0#32 [busWrite32 0x014#12 7#32]).agenda = busWrite32 0x014#12 7#32 :: [] ∧
      (withAgenda [busWrite32 0x018#12 0xFFFFFFFF#32]).agenda = busWrite32 0x018#12 0xFFFFFFFF#32 :: [] := by decide

theorem witness_LengthRegisterWrites (v : Word) :
    (withAgenda [busWrite32 0x01C#12 v]).busy = false ∧
      (withAgenda [busWrite32 0x01C#12 v]).agenda = busWrite32 0x01C#12 v :: [] ∧
      (withAgenda [busWrite32 0x024#12 v]).agenda = busWrite32 0x024#12 v :: [] ∧
      (withAgenda [busWrite32 0x020#12 v]).agenda = busWrite32 0x020#12 v :: [] := ⟨rfl, rfl, rfl, rfl⟩

theorem witness_KeyWritesDropTheKey :
    (∀ off ∈ [0x020#12, 0x800#12, 0x9FC#12],
      off = 0x020#12 ∨ (0x800 ≤ off.toNat ∧ off.toNat ≤ 0x9FF ∧ off.toNat % 4 = 0)) ∧
      ∀ off : BitVec 12, ({ sparseKey with agenda := [busWrite32 off 0#32] } : State).busy = false ∧
        ({ sparseKey with agenda := [busWrite32 off 0#32] } : State).agenda = busWrite32 off 0#32 :: [] :=
  ⟨by simp, fun _ => ⟨rfl, rfl⟩⟩

/-- The first and the last word of every buffer, to write and to read; the first and last byte of a string. -/
theorem witness_BufferWordsAreBigEndian :
    (0 < 512 ∧ 511 < 512) ∧ (∀ b ∈ allBufs, 4 * 0 + 4 ≤ b.size ∧ 4 * (b.size / 4 - 1) + 4 ≤ b.size) ∧ Memory.wf State.reset.mem ∧
      ∀ (b : Buf) (i : Nat) (v : Word),
        (withAgenda [busWrite32 (BitVec.ofNat 12 (b.base + 4 * i)) v,
          busRead32 (BitVec.ofNat 12 (b.base + 4 * i))]).busy = false ∧
        (withAgenda [busWrite32 (BitVec.ofNat 12 (b.base + 4 * i)) v,
          busRead32 (BitVec.ofNat 12 (b.base + 4 * i))]).agenda =
          busWrite32 (BitVec.ofNat 12 (b.base + 4 * i)) v :: busRead32 (BitVec.ofNat 12 (b.base + 4 * i)) :: [] :=
  ⟨by decide, by decide, by decide, fun _ _ _ => ⟨rfl, rfl⟩⟩

theorem witness_BusyHoldsStatusAndOperands (acc : Access) :
    (busyWith 0x40#32 [.bus acc]).busy = true ∧ (busyWith 0x40#32 [.bus acc]).agenda = .bus acc :: [] := ⟨rfl, rfl⟩

/-- Messages on both sides of the padding's bound, a block, and the indices of each clause at their bounds. -/
theorem witness_Sha256FollowsItsRules :
    ([] : List Byte).length ≤ Config.shaMaxBytes ∧ (List.replicate 55 0x61#8).length ≤ Config.shaMaxBytes ∧
      (List.replicate 56 0x61#8).length ≤ Config.shaMaxBytes ∧ (List.replicate 64 0x61#8).length = 64 ∧
      (7 < 8 ∧ 15 < 16 ∧ 16 ≤ 16 ∧ 63 < 64) ∧ 0 < (pad []).length / 64 := by decide +kernel

/-- The list of primes is R88's: 64 of them, from 2 to 311. -/
theorem test_firstPrimes : firstPrimes.length = 64 ∧ firstPrimes.getD 0 0 = 2 ∧ firstPrimes.getD 7 0 = 19 ∧
    firstPrimes.getD 63 0 = 311 := by decide +kernel

/-- L at its bound, and the length limit met exactly. -/
theorem witness_ShaUpdateAbsorbs :
    256 ≤ 256 ∧ abcContext.shaState = .active ∧ abcContext.total.toNat + 256 ≤ 2 ^ 61 - 1 ∧
      ({ abcContext with total := BitVec.ofNat 61 (2 ^ 61 - 1 - 256) } : State).total.toNat + 256 = 2 ^ 61 - 1 ∧
      Absorbed [0x61#8, 0x62#8, 0x63#8] abcContext :=
  ⟨by decide, by decide, by decide, by decide, by unfold Absorbed; decide +kernel⟩

theorem witness_ShaFinalWritesDigest :
    Memory.wf abcContext.mem ∧ abcContext.shaState = .active ∧ Absorbed [0x61#8, 0x62#8, 0x63#8] abcContext :=
  ⟨by decide, by decide, by unfold Absorbed; decide +kernel⟩

/-- Two empty parts and one at its bound. -/
theorem witness_IncrementalDigest :
    Memory.wf State.reset.mem ∧ (∀ p ∈ ([[], List.replicate 256 0x61#8, []] : List (List Byte)), p.length ≤ 256) ∧
      ([[], List.replicate 256 0x61#8, []] : List (List Byte)).flatten.length ≤ 2 ^ 61 - 1 := by decide +kernel

theorem witness_MaskIsHashOfCounter : (512 : Nat) ≤ 512 ∧ (511 : Nat) < 512 ∧ (0 : Nat) ≤ 512 := by decide

theorem witness_Mgf1WritesMask : Memory.wf State.reset.mem ∧ (512 : Nat) ≤ 512 ∧ (0 : Nat) ≤ 512 := by decide

/-- The length check met exactly, on a legal key. -/
theorem witness_PssEncodeWritesEm :
    Memory.wf sparseKey.mem ∧ KeyOk sparseKey ∧ sparseKey.keyValid = true ∧
      emLen sparseKey.modBits.toNat = 34 + sparseKey.slen.toNat := by decide +kernel

/-- A key large enough for the salt, and one that is not. -/
theorem witness_PssVerifyGivesResult :
    sparseKey.keyValid = true ∧ nineBitKey.keyValid = true ∧
      emLen nineBitKey.modBits.toNat < 34 + nineBitKey.slen.toNat := by decide

/-- PS empty with zb = 1, PS empty with zb = 0, and the first and last byte of maskedDB; then strings X with and without
a leading byte. -/
theorem witness_PssCheckAcceptsExactlyEncodings :
    (emLen 272 ≥ 34 + ([] : List Byte).length ∧ 0 < emLen 272 - 33) ∧
    (emLen 289 ≥ 34 + [0xA5#8, 0x5A#8].length ∧ 2 < emLen 289 - 33) ∧
    emLen 272 ≥ 34 + 0 ∧ emLen 272 ≤ (List.replicate 34 0#8).length ∧
      emLen 273 ≤ (List.replicate 35 0#8).length ∧ emLen 273 ≥ 34 + 0 := by decide

theorem witness_PssEncodeThenVerify :
    Memory.wf sparseKey.mem ∧ KeyOk sparseKey ∧ sparseKey.keyValid = true ∧
      emLen sparseKey.modBits.toNat ≥ 34 + sparseKey.slen.toNat := by decide +kernel

/-- The smallest key, n = 3, and a key of 512 bytes. -/
theorem witness_KeyLoadLatchesModulus :
    let small : State := { State.reset with nLen := 1#16, mem := [(0x800, 0x03#8)] }
    let large : State := { State.reset with nLen := 512#16, mem := [(0x800, 0x01#8), (0x9FF, 0x01#8)] }
    ∀ s ∈ [small, large], 1 ≤ keyLen s ∧ keyLen s ≤ 512 ∧ Memory.read s.mem 0x800 ≠ 0#8 ∧ modulus s % 2 = 1 ∧
      modulus s ≠ 1 := by decide +kernel

theorem witness_ModexpIsExact :
    0 < 256 ^ 0 ∧ 255 < 256 ^ 1 ∧ Memory.wf sparseKey.mem ∧ sparseKey.keyValid = true ∧ 1 ≤ sparseKey.expLen.toNat ∧
      sparseKey.expLen.toNat ≤ 512 ∧ os2ip (bufBytes sparseKey .a (keyLen sparseKey)) < modulus sparseKey ∧
      ({ sparseKey with expLen := 512#16 } : State).expLen.toNat ≤ 512 := by decide +kernel

theorem witness_CtEqIsEquality :
    (1 : Nat) ≤ [1#8, 2#8].length ∧ (1 : Nat) ≤ [0#8, 2#8].length ∧ ctEq [1#8, 2#8] [0#8, 2#8] 1 = false ∧
      (2 : Nat) ≤ [1#8, 2#8].length ∧ (2 : Nat) ≤ [0#8, 2#8].length := by decide

theorem witness_CmpComparesBuffers : (512 : Nat) ≤ 512 ∧ (0 : Nat) ≤ 512 := by decide

theorem witness_SignWritesSignature :
    Memory.wf sparseKey.mem ∧ KeyOk sparseKey ∧ sparseKey.keyValid = true ∧ 1 ≤ sparseKey.expLen.toNat ∧
      sparseKey.expLen.toNat ≤ 512 ∧ emLen sparseKey.modBits.toNat ≥ 34 + sparseKey.slen.toNat := by decide +kernel

theorem witness_SignIsEncodeThenModexp :
    Memory.wf sparseKey.mem ∧ KeyOk sparseKey ∧ sparseKey.keyValid = true ∧ 1 ≤ sparseKey.expLen.toNat ∧
      sparseKey.expLen.toNat ≤ 512 ∧ emLen sparseKey.modBits.toNat ≥ 34 + sparseKey.slen.toNat :=
  witness_SignWritesSignature

/-- L = k with the exponentiation run, and a wrong L. -/
theorem witness_VerifyGivesResult :
    Memory.wf sparseKey.mem ∧ sparseKey.keyValid = true ∧ 1 ≤ sparseKey.expLen.toNat ∧
      sparseKey.expLen.toNat ≤ 512 ∧ (34 : Nat) ≠ 0 ∧ (1 : Nat) ≠ 0 ∧
      (34 = keyLen sparseKey ∧ emLen sparseKey.modBits.toNat ≥ 34 + sparseKey.slen.toNat ∧
        os2ip (bufBytes sparseKey .a (keyLen sparseKey)) < modulus sparseKey) ∧
      ¬(1 = keyLen sparseKey) := by decide +kernel

/-- Exponents d = e = 1 undo each other. -/
theorem witness_SignThenVerify :
    Memory.wf sparseKey.mem ∧ KeyOk sparseKey ∧ sparseKey.keyValid = true ∧ 1 ≤ sparseKey.expLen.toNat ∧
      sparseKey.expLen.toNat ≤ 512 ∧ 1 ≤ [1#8].length ∧ [1#8].length ≤ 512 ∧
      emLen sparseKey.modBits.toNat ≥ 34 + sparseKey.slen.toNat ∧
      ∀ m, m < modulus sparseKey →
        (m ^ os2ip (bufBytes sparseKey .exp sparseKey.expLen.toNat)) ^ os2ip [1#8] % modulus sparseKey = m := by
  refine ⟨by decide +kernel, by decide +kernel, by decide, by decide, by decide, by decide, by decide,
    by decide +kernel, fun m hm => ?_⟩
  rw [show os2ip (bufBytes sparseKey .exp sparseKey.expLen.toNat) = 1 by decide +kernel,
    show os2ip [1#8] = 1 by decide, pow_one, pow_one, Nat.mod_eq_of_lt hm]

/-- Each of the three outcomes: valid, invalid, could not attempt. -/
theorem witness_VerifyOutcomesAreDistinct :
    nextWith (exec .pssVerify (putBuf .r exampleEm (loaded288 []))) (fun t => t.errCode == .none && t.result) ∧
      nextWith (exec (.verify 1) sparseKey) (fun t => t.errCode == .none && !t.result) ∧
      nextWith (exec (.verify 0) sparseKey) (fun t => t.errCode != .none && !t.result) :=
  ⟨nextWith_of_look (by decide +kernel), nextWith_of_look (by decide +kernel), nextWith_of_look (by decide +kernel)⟩

/-- An error of two commands, and a word that does not decode. -/
theorem witness_ErrorsLeaveTheRest :
    nextWith (exec .keyLoad State.reset) (fun t => t.errCode != .none) ∧
      nextWith (exec (.cmp 513) State.reset) (fun t => t.errCode != .none) ∧
      ((busyWith 0x4#32 [.engine]).busy = true ∧ (busyWith 0x4#32 [.engine]).agenda = .engine :: [] ∧
        decode (busyWith 0x4#32 [.engine]).cmdPend = .error .unassignedOpcode) :=
  ⟨nextWith_of_look (by decide +kernel), nextWith_of_look (by decide +kernel), by decide⟩

/-- One step for each clause that says which command may write a flag. -/
theorem witness_FlagWriters :
    nextWith (exec (.cmp 0) State.reset) (fun t => t.result != State.reset.result) ∧
      nextWith (exec .keyLoad { State.reset with nLen := 1#16, mem := [(0x800, 0x0D#8)] }) (fun t => t.keyValid) ∧
      (nextWith (exec .zeroize sparseKey) (fun t => !t.keyValid) ∧ sparseKey.keyValid = true) ∧
      nextWith (exec .shaInit State.reset) (fun t => t.shaState != State.reset.shaState) :=
  ⟨nextWith_of_look (by decide +kernel), nextWith_of_look (by decide +kernel),
    ⟨nextWith_of_look (by decide +kernel), by decide⟩, nextWith_of_look (by decide +kernel)⟩

theorem witness_InterruptsDoNotGateCommands :
    nextWith (exec .shaFinal State.reset) (fun t => t.errCode != .none) ∧
      nextWith (exec .nop State.reset) (fun t => t.errCode == .none) :=
  ⟨nextWith_of_look (by decide +kernel), nextWith_of_look (by decide +kernel)⟩

/-- Each of the five commands ends without error somewhere. -/
theorem witness_InternalHashingLeavesHostContext :
    ∀ i ∈ [.mgf1 512, .verify 34, .pssEncode, .pssVerify, .sign],
      nextWith (exec i sparseKey) (fun t => t.errCode == .none) := by
  intro i hi
  simp only [List.mem_cons, List.not_mem_nil, or_false] at hi
  rcases hi with rfl | rfl | rfl | rfl | rfl <;> exact nextWith_of_look (by decide +kernel)

theorem witness_IdleCmdPendIsNotRead :
    (withAgenda [busWrite32 0x010#12 1#32]).busy = false ∧
      nextWith (step (withAgenda [busWrite32 0x010#12 1#32])) (fun t => t.busy) :=
  ⟨rfl, nextWith_of_look (by decide +kernel)⟩

theorem witness_ClosedContextIsNotRead :
    (busyWith 0x1#32 []).shaState ≠ .active ∧
      nextWith (step (busyWith 0x1#32 [])) (fun t => t.shaState == .active) :=
  ⟨by decide, nextWith_of_look (by decide +kernel)⟩

/-- A legal state with a key, about to sign, takes a step. -/
theorem witness_StepKeepsLegalStates :
    Inv { sparseKey with cmdPend := 0x40#32, busy := true } ∧
      nextWith (step { sparseKey with cmdPend := 0x40#32, busy := true }) (fun t => t.errCode == .none) :=
  ⟨by decide +kernel, nextWith_of_look (by decide +kernel)⟩

end Sys2Proof.Tests
end

section
/-! PROOFS. The family of 00_scope.md: MODEXP is exact (O42), and the idle engine has no step (O10). -/

namespace Sys2Proof.Machine

/-! ### Byte strings: the first byte is the most significant (R10) -/

theorem os2ip_cons (b : Byte) (bs : List Byte) : os2ip (b :: bs) = b.toNat * 256 ^ bs.length + os2ip bs := by
  have single : os2ip [b] = b.toNat := by simp [os2ip]
  rw [← List.singleton_append, os2ip_append, single]

/-! ### A buffer after a byte string is put into it (R11, R50) -/

@[simp] theorem bufBytes_complete (e : ErrCode) (s : State) (b : Buf) (len : Nat) :
    bufBytes (complete e s) b len = bufBytes s b len := rfl

theorem bufBytes_putBuf_same {s : State} (hm : Memory.wf s.mem) (b : Buf) (bs : List Byte) :
    bufBytes (putBuf b bs s) b bs.length = bs := Memory.readBytes_writeBytes b.base bs hm

theorem putBuf_sameOutside (b : Buf) (bs : List Byte) (s : State) :
    SameOutside s (putBuf b bs s) b.base bs.length := fun _ h => Memory.read_writeBytes_outside bs h

/-! ### The power in R_BUF (R112, R114) -/

/-- The power is below n, which fits k bytes, so its k-byte string loses nothing. -/
theorem os2ip_putPower {s : State} (hm : Memory.wf s.mem) (hn : 0 < modulus s) :
    os2ip (bufBytes (putPower s) .r (keyLen s)) = baseOperand s ^ exponent s % modulus s := by
  have fits : modexpF (baseOperand s) (exponent s) (modulus s) < 256 ^ keyLen s :=
    (modexpF_lt hn).trans (modulus_lt s)
  have readBack := bufBytes_putBuf_same hm .r
    (i2osp (modexpF (baseOperand s) (exponent s) (modulus s)) (keyLen s))
  rw [i2osp_length] at readBack
  rw [putPower, readBack, os2ip_i2osp fits, modexpF_eq]

theorem putPower_sameOutside (s : State) : SameOutside s (putPower s) 0xE00 (keyLen s) := by
  simpa [putPower, Buf.base] using
    putBuf_sameOutside .r (i2osp (modexpF (baseOperand s) (exponent s) (modulus s)) (keyLen s)) s

/-! ### MODEXP's checks (R111, R114) -/

/-- A valid key and an exponent of 1 to K_MAX bytes pass the exponent checks: the converse of `exponentError_none`. -/
theorem exponentError_eq_none {s : State} (hk : s.keyValid = true) (h1 : 1 ≤ s.expLen.toNat)
    (h2 : s.expLen.toNat ≤ Config.kMax) : exponentError s = none := by
  have nonzero : s.expLen ≠ 0#16 := fun h => by simp [h] at h1
  simp [exponentError, hk, nonzero, h2]

theorem exec_modexp_of_valid {s : State} (he : exponentError s = none) (hr : baseOperand s < modulus s) :
    exec .modexp s = .next (complete .none (putPower s)) := by
  simp [exec, execModexp, he, Nat.not_le.mpr hr, finish]

/-- Settles O42: MODEXP passes its checks, and what it does is `putPower` and the completion without error. -/
theorem modexpIsExact : Obligations.ModexpIsExact := by
  refine ⟨⟨os2ip_nil, os2ip_cons, fun x len hx => ⟨i2osp_length x len, os2ip_i2osp hx⟩⟩, ?_⟩
  intro s hm hk h1 h2 hr
  refine ⟨complete .none (putPower s), exec_modexp_of_valid (exponentError_eq_none hk h1 h2) hr,
    complete_endsWith _ _ _ rfl, os2ip_putPower hm (Nat.zero_lt_of_lt hr),
    putPower_sameOutside s, ?_⟩
  simp [SameConfig, SameKey, SameContext, SameHost]

/-! ### The engine's turn (R14) -/

theorem engineTurn_of_idle {s : State} (h : s.busy = false) : engineTurn s = .next s := by simp [engineTurn, h]

/-- Settles O10: either form of the engine's turn while BUSY = 0 is `engineTurn` of an idle state. -/
theorem idleEngineHasNoStep : Obligations.IdleEngineHasNoStep := by
  intro s hb
  constructor
  · intro hempty
    rw [step_of_empty hempty, engineTurn_of_idle hb]
  · intro rest hengine
    rw [step_of_engine hengine]
    exact engineTurn_of_idle hb

end Sys2Proof.Machine
end

section
/-! PROOFS. The family of 10_state.md: every step keeps a legal state legal (O60). -/

namespace Sys2Proof.Machine

/-! ### One step is one event -/

/-- A step is the event at the head of the agenda, and the engine's turn where the agenda is empty (R72, R130). -/
theorem step_eq_headEvent (s : State) :
    step s = runEvent (s.agenda.headD .engine) { s with agenda := s.agenda.tail } := by
  cases h : s.agenda with
  | nil =>
    rw [step_of_empty h]
    exact congrArg engineTurn (by rw [List.tail_nil, ← h])
  | cons e rest => simp [step, h]

/-! ### What each part of a legal state rests on (R24, R49, R53) -/

/-- A legal state is legal for its memory, its key and its SHA context; nothing else counts. -/
theorem inv_congr {s t : State} (h : Inv s) (hm : t.mem = s.mem) (hn : t.nLen = s.nLen) (hk : SameKey s t)
    (hc : SameContext s t) : Inv t := by
  obtain ⟨hmem, hkey, hsha⟩ := h
  obtain ⟨hstate, hhc, hblk, htotal⟩ := hc
  exact ⟨by rwa [MemOk, hm], keyOk_congr hkey hk.1 hk.2 hn fun _ _ _ _ => by rw [hm],
    shaOk_congr hsha hstate hhc hblk htotal⟩

/-- Dropping the key keeps a state legal, whatever becomes of N_LEN. -/
theorem inv_dropKey {s t : State} (h : Inv s) (hm : t.mem = s.mem) (hc : SameContext s t) : Inv (dropKey t) :=
  have ⟨hmem, _, hsha⟩ := h
  have ⟨hstate, hhc, hblk, htotal⟩ := hc
  ⟨by rwa [MemOk, dropKey_mem, hm], keyOk_of_invalid rfl rfl, shaOk_congr hsha hstate hhc hblk htotal⟩

/-- R49: N_BUF shares no byte with another buffer. -/
theorem Buf.apart_from_n {b : Buf} (h : b ≠ .n) : b.base + b.size ≤ 0x800 ∨ 0xA00 ≤ b.base := by
  cases b with
  | n => exact absurd rfl h
  | msg | digest | salt | exp | a | r => decide

/-- R110: the modulus of a legal key has at most K_MAX bytes, so it fits a buffer of that size. -/
theorem keyLen_le_kMax {s : State} (hk : KeyOk s) (hv : s.keyValid = true) : keyLen s ≤ Config.kMax :=
  have ⟨_, hle, _⟩ := hk.2 hv
  hle

/-- A word written inside a buffer other than N_BUF keeps a state legal. -/
theorem inv_putWord {s : State} (h : Inv s) {b : Buf} {off : Nat} (v : Word) (hb : b ≠ .n) (h1 : b.base ≤ off)
    (h2 : off + 4 ≤ b.base + b.size) : Inv (putWord off v s) := by
  obtain ⟨hmem, hkey, hsha⟩ := h
  refine ⟨memOk_writeBytes hmem h1 h2, keyOk_congr hkey rfl rfl rfl fun hv a ha1 ha2 => ?_, hsha⟩
  have hfit := keyLen_le_kMax hkey hv
  have hapart := Buf.apart_from_n hb
  rw [Config.kMax] at hfit
  exact Memory.read_writeBytes_outside _ (by rw [wordBytes_length]; omega)

/-- A byte string put into a buffer other than N_BUF keeps a state legal. -/
theorem inv_putBuf {s : State} (h : Inv s) {b : Buf} {bs : List Byte} (hb : b ≠ .n) (hl : bs.length ≤ b.size) :
    Inv (putBuf b bs s) := by
  obtain ⟨hmem, hkey, hsha⟩ := h
  obtain ⟨hmem', hkey'⟩ := putBuf_keeps hmem hkey hb hl
  exact ⟨hmem', hkey', hsha⟩

/-- R53: a context with the reset values in IDLE is legal. -/
theorem shaOk_of_idle {s : State} (hx : s.shaState = .idle) (hh : s.hc = State.reset.hc) (hb : s.blk = [])
    (ht : s.total = 0#61) : ShaOk s :=
  ⟨by simp [hb], by simp [hx], fun _ => ⟨hh, hb, ht⟩⟩

/-- R53: a closed context is legal with any BLK below a block. -/
theorem shaOk_of_final {s : State} (hx : s.shaState = .final) (hb : s.blk.length < 64) : ShaOk s :=
  ⟨hb, by simp [hx], by simp [hx]⟩

/-- R53: in ACTIVE, BLK holds what TOTAL leaves over whole blocks, and that is all a legal context needs. -/
theorem shaOk_of_active {s : State} (hx : s.shaState = .active) (hb : s.blk.length = s.total.toNat % 64) : ShaOk s :=
  ⟨by omega, fun _ => hb, by simp [hx]⟩

/-- R149, R150: the engine after a reset is legal. -/
theorem inv_resetEngine (s : State) : Inv (resetEngine s) :=
  ⟨⟨reset_memory_wf, fun _ hc => absurd hc (List.not_mem_nil)⟩, keyOk_of_invalid rfl rfl,
    shaOk_of_idle rfl rfl rfl rfl⟩

/-! ### Every host transaction keeps a legal state legal -/

theorem HostEffect.keeps_inv {s u : State} (h : Inv s) (he : HostEffect s u) : Inv u := by
  cases he with
  | same => exact h
  | reset => exact inv_resetEngine s
  | nLen v hb => exact inv_dropKey h rfl ⟨rfl, rfl, rfl, rfl⟩
  | nBuf off v hb h1 h2 =>
    obtain ⟨hmem, -, hsha⟩ := h
    exact ⟨memOk_writeBytes hmem h1 h2, keyOk_of_invalid rfl rfl, hsha⟩
  | buf b off v hb hn h1 h2 => exact inv_putWord h v hn h1 h2
  | dropped | accepted | ints | intEn | slen | expLen =>
    exact inv_congr h rfl rfl ⟨rfl, rfl⟩ ⟨rfl, rfl, rfl, rfl⟩

/-! ### Every command keeps a legal state legal -/

/-- R110: MOD_BITS holds the bit length of a modulus of at most K_MAX bytes. -/
theorem keyBits_latchKey {s : State} (h : keyLen s ≤ Config.kMax) :
    keyBits (latchKey s) = bitLength (modulus s) := by
  have hbits : bitLength (modulus s) ≤ 8 * keyLen s := bitLength_le_of_lt (by rw [pow_mul]; exact modulus_lt s)
  rw [Config.kMax] at h
  rw [keyBits, latchKey_modBits, BitVec.toNat_ofNat]
  exact Nat.mod_eq_of_lt (by omega)

/-- R110: the checks of KEY_LOAD are what makes the key it latches legal. -/
theorem keyOk_latchKey {s : State} (h1 : keyLen s ≠ 0) (h2 : keyLen s ≤ Config.kMax)
    (h3 : Memory.read s.mem (Buf.base .n) ≠ 0#8) (h4 : modulus s % 2 = 1) (h5 : modulus s ≠ 1) :
    KeyOk (latchKey s) :=
  ⟨by simp, fun _ => ⟨Nat.one_le_iff_ne_zero.mpr h1, h2, h3, h4, h5, keyBits_latchKey h2⟩⟩

/-- R105: EM fits A_BUF, since it has k bytes. -/
theorem inv_putEncoded {s : State} (h : Inv s) (hk : s.keyValid = true)
    (hs : saltTooLong (keyBits s) (sLen s) = false) : Inv (putEncoded s) := by
  obtain ⟨-, hkey, -⟩ := id h
  have hlen : (saltBytes s).length = sLen s := by simp [saltBytes, bufBytes]
  refine inv_putBuf h (by decide) ?_
  rw [pssBlock_length (by rwa [hlen]) (emLen_le_keyLen hkey hk)]
  exact keyLen_le_kMax hkey hk

/-- R114: the power fits R_BUF, since it has k bytes. -/
theorem inv_putPower {s : State} (h : Inv s) (hk : s.keyValid = true) : Inv (putPower s) := by
  obtain ⟨-, hkey, -⟩ := id h
  exact inv_putBuf h (by decide) (by rw [i2osp_length]; exact keyLen_le_kMax hkey hk)

theorem memOk_zero {s : State} (h : MemOk s) (a len : Nat) : MemOk { s with mem := Memory.zero s.mem a len } :=
  ⟨Memory.wf_zero a len h.1, fun c hc => h.2 c (Memory.mem_zero.mp hc).1⟩

/-- R126: erasing buffer after buffer keeps the memory legal. -/
theorem memOk_zeroBuffers {s : State} (h : MemOk s) : MemOk (eraseAll s) := by
  have step (bufs : List Buf) : ∀ m : Memory, MemOk { s with mem := m } →
      MemOk { s with mem := bufs.foldl (fun acc b => Memory.zero acc b.base b.size) m } := by
    induction bufs with
    | nil => exact fun _ hm => hm
    | cons b bufs ih => exact fun m hm => ih _ (memOk_zero hm b.base b.size)
  exact step allBufs s.mem h

/-- R53, R96: SHA_UPDATE keeps the bytes in BLK the count modulo 64. -/
theorem shaOk_absorbMessage {s : State} (h : ShaOk s) {len : Nat} (hl : len ≤ Config.msgBufBytes)
    (ha : s.shaState = .active) (ht : s.total.toNat + len ≤ Config.shaMaxBytes) :
    ShaOk (absorbMessage (bufBytes s .msg len) s) := by
  obtain ⟨htotal, hblk⟩ := absorbMessage_counts hl ht
  have hcount : s.blk.length = s.total.toNat % 64 := h.2.1 ha
  exact shaOk_of_active ha (by omega)

/-- R97: the context that SHA_FINAL closes is legal, whatever values it is left with. -/
theorem inv_closeContext {s : State} (h : Inv s) : Inv (closeContext s) := by
  obtain ⟨hmem, hkey, -⟩ := h
  exact ⟨hmem, hkey, shaOk_of_final rfl (by rw [closeContext_blk, List.length_take]; omega)⟩

theorem Effect.keeps_inv {s u : State} {i : Instr} {e : ErrCode} (h : Inv s) (he : Effect s i e u) : Inv u := by
  obtain ⟨hmem, hkey, hsha⟩ := id h
  cases he with
  | nop | updateError | finalError | mgf1Error | encodeError | modexpError | signError => exact h
  | pssVerifyError | pssVerify | cmpError | cmp | verifyFalse =>
    exact inv_congr h rfl rfl ⟨rfl, rfl⟩ ⟨rfl, rfl, rfl, rfl⟩
  | shaInit => exact ⟨hmem, hkey, shaOk_of_active rfl rfl⟩
  | update len hl ha ht => exact ⟨hmem, hkey, shaOk_absorbMessage hsha hl ha ht⟩
  | final ha =>
    have hfits : (finalDigest s).length ≤ Buf.size .digest := by rw [finalDigest, hashBytes_length]; decide
    exact inv_closeContext (inv_putBuf h (by decide) hfits)
  | mgf1 len hl => exact inv_putBuf h (by decide) (by rwa [mgf1_length])
  | encode hk hs => exact inv_putEncoded h hk hs
  | keyError => exact inv_dropKey h rfl ⟨rfl, rfl, rfl, rfl⟩
  | keyLoad h1 h2 h3 h4 h5 => exact ⟨hmem, keyOk_latchKey h1 h2 h3 h4 h5, hsha⟩
  | modexp hk hr => exact inv_putPower h hk
  | sign hk hs => exact inv_putPower (inv_putEncoded h hk hs) hk
  | verify len hk hl => exact inv_congr (inv_putPower h hk) rfl rfl ⟨rfl, rfl⟩ ⟨rfl, rfl, rfl, rfl⟩
  | zeroize =>
    exact ⟨memOk_zeroBuffers hmem, keyOk_of_invalid rfl rfl, shaOk_of_idle rfl rfl rfl rfl⟩

/-! ### Every step keeps a legal state legal -/

theorem runEvent_keeps_inv {ev : Event} {s t : State} (h : Inv s) (hr : runEvent ev s = .next t) : Inv t := by
  rcases runEvent_effect hr with ⟨u, r, rfl, he⟩ | rfl | rfl | rfl | ⟨i, e, u, rfl, he⟩
  · exact inv_congr (he.keeps_inv h) rfl rfl ⟨rfl, rfl⟩ ⟨rfl, rfl, rfl, rfl⟩
  · exact inv_resetEngine s
  · exact h
  · exact inv_congr h rfl rfl ⟨rfl, rfl⟩ ⟨rfl, rfl, rfl, rfl⟩
  · exact inv_congr (he.keeps_inv h) rfl rfl ⟨rfl, rfl⟩ ⟨rfl, rfl, rfl, rfl⟩

/-- Settles O60: a step is one event, and an event is a host effect, a reset, or a command and its completion, each of
which keeps Inv; taking the event off the agenda touches no field that Inv reads. -/
theorem stepKeepsLegalStates : Obligations.StepKeepsLegalStates := by
  intro s t h hstep
  rw [step_eq_headEvent] at hstep
  have htail : Inv { s with agenda := s.agenda.tail } := inv_congr h rfl rfl ⟨rfl, rfl⟩ ⟨rfl, rfl, rfl, rfl⟩
  exact runEvent_keeps_inv htail hstep

end Sys2Proof.Machine
end

section
/-! PROOFS. The family of 10_state.md: what the registers, flags and buffers are to the host. -/

namespace Sys2Proof.Machine

/-! ### One host transaction is one step (R61, R66) -/

/-- The step of a host's read, from what the read answers (R65). -/
theorem step_of_answers {s : State} {off : BitVec 12} {w : Word} {rest : List Event} (ha : Answers s off w)
    (h : s.agenda = busRead32 off :: rest) : step s = .next { s with agenda := rest, resp := .data w } := by
  have hstep := ha rest
  rwa [← h] at hstep

/-- The step of a host's write that raises no BusError. -/
theorem step_of_write32 {s : State} {off : BitVec 12} {v : Word} {rest : List Event}
    (h : s.agenda = busWrite32 off v :: rest) (hf : readFaults off.toNat 32 = false) :
    step s = .next { writeEffect off.toNat v { s with agenda := rest } with resp := .ack } := by
  rw [step_of_bus h, busAccess_write32 v _ hf]

/-- The step of a host's write to a register that is not dropped (R66, R67). -/
theorem step_of_writeReg {s : State} {off : BitVec 12} {v : Word} {rest : List Event} {r : Reg}
    (h : s.agenda = busWrite32 off v :: rest) (hf : readFaults off.toNat 32 = false)
    (hr : regAt off.toNat = some r) (hn : s.busy = false ∨ neverDropped off.toNat = true) :
    step s = .next { writeReg r v { s with agenda := rest } with resp := .ack } := by
  rw [step_of_write32 h hf, writeEffect_of_reg (s := { s with agenda := rest }) v hr hn]

/-! ### Reset (R21, R149, R150) -/

/-- Settles O12: the hardware reset and the SRST write are both `resetEngine`, whose fields are those of State.reset. -/
theorem resetAtAnyTime : Obligations.ResetAtAnyTime := by
  intro s v rest
  have ctrlWrite (h : s.agenda = busWrite32 0x008#12 v :: rest) :=
    step_of_writeReg h (by decide) (r := .ctrl) rfl (.inr rfl)
  refine ⟨fun h => ?_, fun h hv => ?_, step_of_answers (answers_readValue s (by decide))⟩
  · have hreset : ∃ r, step s = .next { resetEngine { s with agenda := rest } with resp := r } := by
      rcases h with h | ⟨h, hv⟩
      · exact ⟨s.resp, step_of_hwReset h⟩
      · exact ⟨.ack, by rw [ctrlWrite h, writeReg, if_pos hv]⟩
    obtain ⟨r, hstep⟩ := hreset
    exact ⟨_, hstep, rfl, ⟨rfl, rfl, rfl, rfl, rfl, rfl, rfl, rfl, rfl, rfl, rfl, rfl, rfl, rfl⟩, fun _ => rfl⟩
  · rw [ctrlWrite h, writeReg, hv]
    rfl

/-! ### The STATUS word (R22 to R27) -/

/-- Bits appended below a number shift it up by their width. -/
theorem toNat_append_eq_add {m n : Nat} (x : BitVec m) (y : BitVec n) :
    (x ++ y).toNat = x.toNat * 2 ^ n + y.toNat := by
  rw [BitVec.toNat_append, ← Nat.shiftLeft_add_eq_or_of_lt y.isLt, Nat.shiftLeft_eq]

/-- The STATUS word as a number: its fields at their places, and 0 in every reserved bit. -/
theorem statusWord_toNat (s : State) :
    (statusWord s).toNat = (errNumber s.errCode).toNat * 256 + (shaNumber s.shaState).toNat * 16 +
      s.keyValid.toNat * 4 + s.result.toNat * 2 + s.busy.toNat := by
  simp only [statusWord, toNat_append_eq_add, BitVec.toNat_ofBool, BitVec.toNat_ofNat]
  omega

/-- R22 to R24: bits 0 to 3 of the STATUS word. -/
theorem statusWord_lowBits (s : State) :
    (statusWord s).getLsbD 0 = s.busy ∧ (statusWord s).getLsbD 1 = s.result ∧
      (statusWord s).getLsbD 2 = s.keyValid ∧ (statusWord s).getLsbD 3 = false := by
  simp only [statusWord, BitVec.getLsbD_append, BitVec.getLsbD_ofBool]
  simp

/-- R26: the fields of the STATUS word above bit 3. -/
theorem statusWord_fields (s : State) :
    (statusWord s).toNat / 16 % 4 = (shaNumber s.shaState).toNat ∧ (statusWord s).toNat / 64 % 4 = 0 ∧
      (statusWord s).toNat / 256 % 16 = (errNumber s.errCode).toNat ∧ (statusWord s).toNat / 4096 = 0 := by
  have herr := (errNumber s.errCode).isLt
  have hsha := (shaNumber s.shaState).isLt
  have hkey := s.keyValid.toNat_le
  have hresult := s.result.toNat_le
  have hbusy := s.busy.toNat_le
  rw [statusWord_toNat]
  omega

/-- Settles O20: a read of STATUS answers `statusWord`, whose fields the lemmas above read off. -/
theorem statusWordFields : Obligations.StatusWordFields := by
  intro s
  obtain ⟨hbusy, hresult, hkey, hbit3⟩ := statusWord_lowBits s
  obtain ⟨hsha, hgap, herr, htop⟩ := statusWord_fields s
  refine ⟨statusWord s, answers_readValue s (by decide), rfl, hbusy, hresult, hkey, hbit3, ?_, hgap, ?_, htop⟩
  · rw [hsha]
    cases s.shaState <;> rfl
  · rw [herr]
    cases s.errCode <;> rfl

/-! ### Register reads (R19, R20, R29 to R46) -/

/-- R42: EM_LEN fits 13 bits, since MOD_BITS has 13. -/
theorem emLenReg_lt (s : State) : emLenReg s < 2 ^ 13 := by
  have hbits := s.modBits.isLt
  unfold emLenReg emLen emBits keyBits
  split <;> omega

/-- A read of EM_LEN gives its derived value whole (R42). -/
theorem readReg_emLen_toNat (s : State) : (readReg s .emLen).toNat = emLenReg s :=
  Nat.mod_eq_of_lt (Nat.lt_trans (emLenReg_lt s) (by decide))

/-- R46: SHA_LEN_LO and SHA_LEN_HI are TOTAL, cut at bit 32. -/
theorem readReg_shaLen_toNat (s : State) :
    (readReg s .shaLenLo).toNat + 2 ^ 32 * (readReg s .shaLenHi).toNat = s.total.toNat := by
  have htotal := s.total.isLt
  simp only [readReg, BitVec.toNat_setWidth, BitVec.extractLsb'_toNat, Nat.shiftRight_eq_div_pow]
  omega

/-- R63: no aligned register offset raises BusError. -/
theorem readFaults_of_le {off : BitVec 12} (h4 : off.toNat % 4 = 0) (h : off.toNat ≤ 0x038) :
    readFaults off.toNat 32 = false := by
  simp only [readFaults, reservedOffset, Bool.or_eq_false_iff, Bool.and_eq_false_iff, decide_eq_false_iff_not]
  omega

/-- Settles O21: every register read answers `readReg`, and a register of at most 32 bits reads zero-extended. -/
theorem registerReads : Obligations.RegisterReads := by
  intro s
  have answers (off : BitVec 12) (h4 : off.toNat % 4 = 0) (h : off.toNat ≤ 0x038) :
      Answers s off (readValue s off.toNat) := answers_readValue s (readFaults_of_le h4 h)
  have zeroExtended {n : Nat} (hn : n ≤ 32) (x : BitVec n) : (x.setWidth 32).toNat = x.toNat :=
    BitVec.toNat_setWidth_of_le hn
  exact ⟨answers 0x000#12 (by decide) (by decide), answers 0x004#12 (by decide) (by decide),
    answers 0x008#12 (by decide) (by decide), answers 0x010#12 (by decide) (by decide),
    answers 0x038#12 (by decide) (by decide),
    ⟨_, answers 0x014#12 (by decide) (by decide), zeroExtended (by decide) s.intStatus⟩,
    ⟨_, answers 0x018#12 (by decide) (by decide), zeroExtended (by decide) s.intEn⟩,
    ⟨_, answers 0x01C#12 (by decide) (by decide), zeroExtended (by decide) s.slen⟩,
    ⟨_, answers 0x020#12 (by decide) (by decide), zeroExtended (by decide) s.nLen⟩,
    ⟨_, answers 0x024#12 (by decide) (by decide), zeroExtended (by decide) s.expLen⟩,
    ⟨_, answers 0x028#12 (by decide) (by decide), zeroExtended (by decide) s.modBits⟩,
    ⟨_, answers 0x02C#12 (by decide) (by decide), readReg_emLen_toNat s⟩,
    ⟨_, _, answers 0x030#12 (by decide) (by decide), answers 0x034#12 (by decide) (by decide),
      readReg_shaLen_toNat s⟩, answers⟩

/-! ### EM_LEN and the size of a valid key (R41 to R43) -/

/-- Settles O22: a read of EM_LEN is `emLenReg`, which rounds MOD_BITS - 1 up to whole bytes. -/
theorem emLenRegisterReads : Obligations.EmLenRegisterReads := by
  intro s
  have hread : (readValue s 0x02C).toNat = emLenReg s := readReg_emLen_toNat s
  refine ⟨fun hv _ => ?_, fun hv => ?_, by rw [hread]; exact emLenReg_lt s⟩
  · rw [hread, emLenReg, if_pos hv, emLen, emBits, keyBits]
    omega
  · apply BitVec.eq_of_toNat_eq
    rw [hread, emLenReg, hv]
    rfl

/-- R41: a modulus of k bytes with a first byte that is not zero has more than 8(k - 1) bits and at most 8k. -/
theorem keySize_bounds {s : State} (hk : KeyOk s) (hv : s.keyValid = true) :
    8 * (keyLen s - 1) < keyBits s ∧ keyBits s ≤ 8 * keyLen s := by
  obtain ⟨hpos, -, hfirst, -, -, hbits⟩ := hk.2 hv
  have hlow : 2 ^ (8 * (keyLen s - 1)) ≤ modulus s := by rw [pow_mul]; exact le_modulus hpos hfirst
  have hhigh : modulus s < 2 ^ (8 * keyLen s) := by rw [pow_mul]; exact modulus_lt s
  rw [hbits]
  refine ⟨?_, bitLength_le_of_lt hhigh⟩
  exact (Nat.pow_lt_pow_iff_right (by decide)).mp (Nat.lt_of_le_of_lt hlow (lt_two_pow_bitLength _))

/-- Settles O23: the bounds of R41 leave `emLen` only k - 1 and k, by MOD_BITS modulo 8. -/
theorem keySizeBounds : Obligations.KeySizeBounds := by
  intro s hk hv
  have hpos : 1 ≤ keyLen s := (hk.2 hv).1
  obtain ⟨hlow, hhigh⟩ := keySize_bounds hk hv
  have hem : emLenReg s = (keyBits s - 1 + 7) / 8 := by rw [emLenReg, if_pos hv, emLen, emBits]
  rw [hem]
  rw [keyBits] at *
  refine ⟨hlow, hhigh, ?_, ?_⟩ <;> omega

/-! ### Interrupts (R30 to R32) -/

/-- Settles O24: a word is not 0 exactly when some bit of it is 1. -/
theorem irqIsLevelOfEnabledBits : Obligations.IrqIsLevelOfEnabledBits := by
  intro s
  rw [irq, bne_iff_ne, ne_eq, BitVec.eq_of_getLsbD_eq_iff]
  simp

/-- Settles O25: INT_STATUS and INT_EN are never dropped, so a write of either is its register's rule. -/
theorem interruptRegisterWrites : Obligations.InterruptRegisterWrites := by
  intro s v rest
  refine ⟨fun h => ⟨clearInts s.intStatus v, step_of_writeReg h (by decide) (r := .intStatus) rfl (.inr rfl), ?_⟩,
    fun h => ⟨v.extractLsb' 0 3, step_of_writeReg h (by decide) (r := .intEn) rfl (.inr rfl), ?_⟩⟩
  · intro i hi
    simp [clearInts, hi]
  · intro i hi
    simp [hi]

/-! ### Length registers and the key (R34 to R38, R51) -/

/-- Settles O26: an accepted write to a length register is its register's rule. -/
theorem lengthRegisterWrites : Obligations.LengthRegisterWrites := by
  intro s v rest hb
  exact ⟨fun h => step_of_writeReg h (by decide) (r := .slen) rfl (.inl hb),
    fun h => step_of_writeReg h (by decide) (r := .expLen) rfl (.inl hb),
    fun h => step_of_writeReg h (by decide) (r := .nLen) rfl (.inl hb)⟩

end Sys2Proof.Machine
end

section
/-! PROOFS. The family of 10_state.md: buffer words on the bus, and what the host can change while BUSY = 1. -/

namespace Sys2Proof.Machine

/-! ### Buffer words (R49, R51, R59) -/

/-- A buffer write changes memory, as `putWord` says, and no other field but the key: a word of N_BUF drops it (R51). -/
theorem writeBufWord_frame {off : Nat} {b : Buf} (v : Word) (s : State) (h : bufAt off = some b) :
    ∃ kv mb, writeBufWord off v s = { putWord off v s with keyValid := kv, modBits := mb } ∧
      (b = .n → kv = false ∧ mb = 0#13) ∧ (b ≠ .n → kv = s.keyValid ∧ mb = s.modBits) := by
  rw [writeBufWord, h]
  by_cases hn : b = .n
  · exact ⟨false, 0#13, if_pos (congrArg some hn), fun _ => ⟨rfl, rfl⟩, fun hne => absurd hn hne⟩
  · exact ⟨s.keyValid, s.modBits, if_neg fun h => hn (Option.some.inj h), fun h => absurd h hn, fun _ => ⟨rfl, rfl⟩⟩

/-- Word `i` of a buffer, as the 12-bit offset of a host transaction. -/
def Buf.wordOffset (b : Buf) (i : Nat) : BitVec 12 := BitVec.ofNat 12 (b.base + 4 * i)

theorem Buf.wordOffset_toNat {b : Buf} {i : Nat} (h : 4 * i + 4 ≤ b.size) :
    (b.wordOffset i).toNat = b.base + 4 * i := Nat.mod_eq_of_lt (bufOffset_ok h).1

/-- Every aligned offset of N_BUF is the offset of one of its words. -/
theorem wordOffset_of_n {off : BitVec 12} (h1 : 0x800 ≤ off.toNat) (h2 : off.toNat ≤ 0x9FF) (h4 : off.toNat % 4 = 0) :
    ∃ i, off = Buf.wordOffset .n i ∧ 4 * i + 4 ≤ Buf.size .n := by
  refine ⟨(off.toNat - 0x800) / 4, BitVec.eq_of_toNat_eq ?_, ?_⟩
  · simp only [Buf.wordOffset, Buf.base, BitVec.toNat_ofNat]
    omega
  · simp only [Buf.size, Config.kMax]
    omega

/-- R59, R68: while BUSY = 0 a read of a buffer word answers its four bytes as a word. -/
theorem answers_bufWord {s : State} {b : Buf} {i : Nat} (hb : s.busy = false) (h : 4 * i + 4 ≤ b.size) :
    Answers s (b.wordOffset i) (bufWord s (b.base + 4 * i)) := by
  obtain ⟨-, hreg, hfault, -⟩ := bufOffset_ok h
  have hread : readValue s (b.base + 4 * i) = bufWord s (b.base + 4 * i) := by
    simp [readValue, regAt_of_ge hreg, hb]
  have hanswer := answers_readValue s (off := b.wordOffset i) (by rwa [Buf.wordOffset_toNat h])
  rwa [Buf.wordOffset_toNat h, hread] at hanswer

/-- The step of a host's write to a buffer word while BUSY = 0: the word is stored, and one of N_BUF drops the key. -/
theorem step_of_writeBuf {s : State} {b : Buf} {i : Nat} {v : Word} {rest : List Event} (hb : s.busy = false)
    (h : 4 * i + 4 ≤ b.size) (ha : s.agenda = busWrite32 (b.wordOffset i) v :: rest) :
    ∃ kv mb, step s = .next { putWord (b.base + 4 * i) v s with
        keyValid := kv, modBits := mb, agenda := rest, resp := .ack } ∧
      (b = .n → kv = false ∧ mb = 0#13) ∧ (b ≠ .n → kv = s.keyValid ∧ mb = s.modBits) := by
  obtain ⟨-, hreg, hfault, hbuf⟩ := bufOffset_ok h
  obtain ⟨kv, mb, hframe, hkey⟩ := writeBufWord_frame v { s with agenda := rest } hbuf
  refine ⟨kv, mb, ?_, hkey⟩
  rw [step_of_write32 ha (by rwa [Buf.wordOffset_toNat h]), Buf.wordOffset_toNat h,
    writeEffect_of_buf (s := { s with agenda := rest }) v (regAt_of_ge hreg) hb, hframe]
  rfl

/-- R59: a buffer word as a number, its first byte the most significant. -/
theorem bufWord_toNat (s : State) (off : Nat) :
    (bufWord s off).toNat = (Memory.read s.mem off).toNat * 2 ^ 24 + (Memory.read s.mem (off + 1)).toNat * 2 ^ 16 +
      (Memory.read s.mem (off + 2)).toNat * 2 ^ 8 + (Memory.read s.mem (off + 3)).toNat := by
  have hread : Memory.readBytes s.mem off 4 =
      [Memory.read s.mem off, Memory.read s.mem (off + 1), Memory.read s.mem (off + 2),
        Memory.read s.mem (off + 3)] := rfl
  have h0 := (Memory.read s.mem off).isLt
  have h1 := (Memory.read s.mem (off + 1)).isLt
  have h2 := (Memory.read s.mem (off + 2)).isLt
  have h3 := (Memory.read s.mem (off + 3)).isLt
  simp only [bufWord, bytesWord, hread, os2ip, List.foldl, BitVec.toNat_ofNat]
  omega

/-- R59: the bytes of a buffer word just written, the most significant first. -/
theorem read_putWord_toNat {s : State} (hm : Memory.wf s.mem) (off : Nat) (v : Word) :
    (Memory.read (putWord off v s).mem off).toNat = v.toNat / 2 ^ 24 ∧
    (Memory.read (putWord off v s).mem (off + 1)).toNat = v.toNat / 2 ^ 16 % 256 ∧
    (Memory.read (putWord off v s).mem (off + 2)).toNat = v.toNat / 2 ^ 8 % 256 ∧
    (Memory.read (putWord off v s).mem (off + 3)).toNat = v.toNat % 256 := by
  have hread (j : Nat) (hj : j < 4) :
      (Memory.read (putWord off v s).mem (off + j)).toNat = ((wordBytes v)[j]'hj).toNat :=
    congrArg BitVec.toNat (Memory.read_writeBytes_inside hm hj)
  have hbyte (n : Nat) : (v.extractLsb' n 8).toNat = v.toNat / 2 ^ n % 256 := by
    rw [BitVec.extractLsb'_toNat, Nat.shiftRight_eq_div_pow]
  have htop : v.toNat / 2 ^ 24 % 256 = v.toNat / 2 ^ 24 := by omega
  have hlow : v.toNat / 2 ^ 0 % 256 = v.toNat % 256 := by omega
  exact ⟨((hread 0 (by decide)).trans (hbyte 24)).trans htop, (hread 1 (by decide)).trans (hbyte 16),
    (hread 2 (by decide)).trans (hbyte 8), ((hread 3 (by decide)).trans (hbyte 0)).trans hlow⟩

/-- A buffer word just written reads back. -/
theorem bufWord_putWord {s : State} (hm : Memory.wf s.mem) (off : Nat) (v : Word) :
    bufWord (putWord off v s) off = v := by
  have hback := Memory.readBytes_writeBytes off (wordBytes v) hm
  rw [wordBytes_length] at hback
  rw [bufWord, putWord_mem, hback, bytesWord_wordBytes]

/-- Settles O27: an accepted write to N_LEN is its register's rule, which drops the key, and so does one to a word of
N_BUF. -/
theorem keyWritesDropTheKey : Obligations.KeyWritesDropTheKey := by
  intro s off v rest hb ha hoff
  rcases hoff with rfl | ⟨h1, h2, h4⟩
  · exact ⟨_, step_of_writeReg ha (by decide) (r := .nLen) rfl (.inl hb), rfl, rfl, rfl⟩
  · obtain ⟨i, rfl, hi⟩ := wordOffset_of_n h1 h2 h4
    obtain ⟨kv, mb, hstep, hdrop, -⟩ := step_of_writeBuf hb hi ha
    exact ⟨_, hstep, rfl, hdrop rfl⟩

/-- Settles O28: a read answers `bufWord`, a write is `putWord` but for the key, and a word put there reads back. -/
theorem bufferWordsAreBigEndian : Obligations.BufferWordsAreBigEndian := by
  refine ⟨by decide, fun s b len => ⟨Memory.readBytes_length _ _ _, fun j hj => ?_⟩, fun s b i hb hi => ?_⟩
  · simp [bufBytes, Memory.readBytes, hj]
  refine ⟨⟨_, answers_bufWord hb hi, bufWord_toNat s _⟩, fun v rest hm ha => ?_⟩
  obtain ⟨kv, mb, hstep, -, hkey⟩ := step_of_writeBuf hb hi ha
  obtain ⟨h0, h1, h2, h3⟩ := read_putWord_toNat hm (b.base + 4 * i) v
  exact ⟨_, _, hstep, step_of_answers (answers_bufWord hb hi) rfl, rfl,
    congrArg Response.data (bufWord_putWord hm (b.base + 4 * i) v), h0, h1, h2, h3,
    fun _ hout => Memory.read_writeBytes_outside _ hout, ⟨rfl, rfl, rfl, rfl⟩, ⟨rfl, rfl, rfl, rfl⟩, rfl, rfl, rfl, hb,
    hkey⟩

/-! ### While BUSY = 1 (R28, R67, R76) -/

/-- What the host cannot change while BUSY = 1: STATUS and everything a command reads (R28, R76). -/
abbrev HeldWhileBusy (s t : State) : Prop :=
  t.busy = true ∧ t.cmdPend = s.cmdPend ∧ t.result = s.result ∧ t.errCode = s.errCode ∧ SameKey s t ∧
    SameContext s t ∧ t.mem = s.mem ∧ t.slen = s.slen ∧ t.nLen = s.nLen ∧ t.expLen = s.expLen

/-- R67: while BUSY = 1 a write is dropped or goes to CTRL, INT_STATUS or INT_EN, and of these only SRST does more than
set or clear interrupt bits. -/
theorem writeEffect_heldWhileBusy {off : Nat} (v : Word) {s : State} (hb : s.busy = true) :
    HeldWhileBusy s (writeEffect off v s) ∨ (off = 0x008 ∧ v.getLsbD 0 = true) := by
  have held {t : State} (hsame : t = { s with intStatus := t.intStatus, intEn := t.intEn }) : HeldWhileBusy s t := by
    rw [hsame]
    exact ⟨hb, rfl, rfl, rfl, ⟨rfl, rfl⟩, ⟨rfl, rfl, rfl, rfl⟩, rfl, rfl, rfl, rfl⟩
  cases hn : neverDropped off with
  | false => exact .inl (held (by rw [writeEffect_of_busy v hb hn]; rfl))
  | true =>
    have hspared : (off = 0x008 ∨ off = 0x014) ∨ off = 0x018 := by simpa [neverDropped] using hn
    rcases hspared with (rfl | rfl) | rfl
    · rw [writeEffect_of_reg v (r := .ctrl) rfl (.inr hn), writeReg]
      cases hv : v.getLsbD 0 with
      | false => exact .inl (held rfl)
      | true => exact .inr ⟨rfl, rfl⟩
    · exact .inl (held (by rw [writeEffect_of_reg v (r := .intStatus) rfl (.inr hn)]; rfl))
    · exact .inl (held (by rw [writeEffect_of_reg v (r := .intEn) rfl (.inr hn)]; rfl))

/-- R63, R65: a read, a BusError and an access outside the window change nothing but the answer; a write without
BusError has its effect. -/
theorem busAccess_cases (acc : Access) (s : State) :
    (∃ r, busAccess acc s = { s with resp := r }) ∨
      ∃ tgt off v, acc = .write tgt 32 0b1111#4 v ∧ windowOffset tgt = some off ∧
        busAccess acc s = { writeEffect off v s with resp := .ack } := by
  cases acc with
  | read tgt width =>
    cases ho : windowOffset tgt with
    | none => exact .inl ⟨.notSelected, by simp [busAccess, ho]⟩
    | some off =>
      exact .inl ⟨if readFaults off width then .busError else .data (readValue s off), by simp [busAccess, ho, busRead]⟩
  | write tgt width strobes v =>
    cases ho : windowOffset tgt with
    | none => exact .inl ⟨.notSelected, by simp [busAccess, ho]⟩
    | some off =>
      cases hf : writeFaults off width strobes with
      | true => exact .inl ⟨.busError, by simp [busAccess, ho, busWrite, hf]⟩
      | false =>
        have hok := hf
        simp only [writeFaults, readFaults, Bool.or_eq_false_iff, decide_eq_false_iff_not, not_not,
          bne_eq_false_iff_eq] at hok
        obtain ⟨⟨⟨-, rfl⟩, -⟩, rfl⟩ := hok
        exact .inr ⟨tgt, off, v, rfl, ho, by simp [busAccess, ho, busWrite, hf]⟩

/-- Settles O29: while BUSY = 1 a host access changes only its answer, or is a write that holds STATUS and the operands,
unless it is the SRST write. -/
theorem busyHoldsStatusAndOperands : Obligations.BusyHoldsStatusAndOperands := by
  intro s acc rest hb ha
  refine ⟨_, step_of_bus ha, ?_⟩
  rcases busAccess_cases acc { s with agenda := rest } with ⟨r, hsame⟩ | ⟨tgt, off, v, rfl, ho, hwrite⟩
  · rw [hsame]
    exact .inl ⟨hb, rfl, rfl, rfl, ⟨rfl, rfl⟩, ⟨rfl, rfl, rfl, rfl⟩, rfl, rfl, rfl, rfl⟩
  · rcases writeEffect_heldWhileBusy (off := off) v (s := { s with agenda := rest }) hb with hheld | ⟨rfl, hv⟩
    · rw [hwrite]
      exact .inl hheld
    · exact .inr ⟨tgt, v, rfl, ho, hv⟩

end Sys2Proof.Machine
end

section
/-! PROOFS. The family of 10_state.md: which commands write the flags, and what neither a command nor an idle step
reads. -/

namespace Sys2Proof.Machine

/-! ### The writers of the flags (R23, R24, R26, R47) -/

theorem Effect.result_writers {s u : State} {i : Instr} {e : ErrCode} (he : Effect s i e u) :
    u.result = s.result ∨ (∃ len, i = .cmp len ∨ i = .verify len) ∨ i = .pssVerify ∨ i = .zeroize := by
  cases he with
  | cmpError len | cmp len => exact .inr (.inl ⟨len, .inl rfl⟩)
  | verifyFalse len | verify len => exact .inr (.inl ⟨len, .inr rfl⟩)
  | pssVerifyError | pssVerify => exact .inr (.inr (.inl rfl))
  | zeroize => exact .inr (.inr (.inr rfl))
  | final => exact .inl (by rw [closeContext_result, putBuf_result])
  | nop | shaInit | updateError | update | finalError | mgf1Error | mgf1 | encodeError | encode | keyError | keyLoad
  | modexpError | modexp | signError | sign => exact .inl rfl

theorem Effect.keyValid_writers {s u : State} {i : Instr} {e : ErrCode} (he : Effect s i e u) :
    u.keyValid = s.keyValid ∨ (i = .keyLoad ∧ (u.keyValid = true → e = .none)) ∨
      (i = .zeroize ∧ u.keyValid = false) := by
  cases he with
  | keyError => exact .inr (.inl ⟨rfl, by simp⟩)
  | keyLoad => exact .inr (.inl ⟨rfl, fun _ => rfl⟩)
  | zeroize => exact .inr (.inr ⟨rfl, rfl⟩)
  | final => exact .inl (by rw [closeContext_keyValid, putBuf_keyValid])
  | nop | shaInit | updateError | update | finalError | mgf1Error | mgf1 | encodeError | encode | pssVerifyError
  | pssVerify | modexpError | modexp | cmpError | cmp | signError | sign | verifyFalse | verify => exact .inl rfl

theorem Effect.shaState_writers {s u : State} {i : Instr} {e : ErrCode} (he : Effect s i e u) :
    u.shaState = s.shaState ∨ i = .shaInit ∨ i = .shaFinal ∨ i = .zeroize := by
  cases he with
  | shaInit => exact .inr (.inl rfl)
  | final => exact .inr (.inr (.inl rfl))
  | zeroize => exact .inr (.inr (.inr rfl))
  | nop | updateError | update | finalError | mgf1Error | mgf1 | encodeError | encode | pssVerifyError | pssVerify
  | keyError | keyLoad | modexpError | modexp | cmpError | cmp | signError | sign | verifyFalse | verify =>
    exact .inl rfl

/-- Settles O54: the completion updates touch none of the three flags, so their writers are those of the command's
effect. -/
theorem flagWriters : Obligations.FlagWriters := by
  intro s t i h
  obtain ⟨e, u, rfl, he⟩ := exec_effect h
  have hkey := he.keyValid_writers
  refine ⟨fun hne => he.result_writers.resolve_left hne, fun hset hclear => ?_, fun hclear hset => ?_,
    fun hne => he.shaState_writers.resolve_left hne⟩
  · rcases hkey with hsame | ⟨hi, hcode⟩ | ⟨-, hfalse⟩
    · exact absurd (hset.symm.trans (hsame.trans hclear)) (by decide)
    · exact ⟨hi, hcode hset⟩
    · exact absurd (hset.symm.trans hfalse) (by decide)
  · rcases hkey with hsame | ⟨hi, -⟩ | ⟨hi, -⟩
    · exact absurd (hset.symm.trans (hsame.symm.trans hclear)) (by decide)
    · exact .inl hi
    · exact .inr hi

/-! ### What a command does not read -/

/-- Two outcomes of a command with one code, the second of them the first with some fields replaced by `f`. -/
def SameRun (f : State → State) (x y : Host.Outcome State Fault Refusal) : Prop :=
  ∃ e u, x = finish e u ∧ y = finish e (f u)

theorem SameRun.finish {f : State → State} (e : ErrCode) (u : State) : SameRun f (finish e u) (finish e (f u)) :=
  ⟨e, u, rfl, rfl⟩

/-- A check that does not read the replaced fields has the same outcome in both runs. -/
theorem SameRun.ite {f : State → State} {c : Prop} [Decidable c] {x y x' y' : Host.Outcome State Fault Refusal}
    (hx : SameRun f x x') (hy : SameRun f y y') : SameRun f (if c then x else y) (if c then x' else y') := by
  split
  · exact hx
  · exact hy

/-- R33: the state with other values of INT_STATUS and INT_EN. -/
def withInts (st en : BitVec 3) (s : State) : State := { s with intStatus := st, intEn := en }

/-- R54: the state with another host SHA context. -/
def withContext (hc : HashWords) (blk : List Byte) (total : BitVec 61) (x : ShaState) (s : State) : State :=
  { s with hc := hc, blk := blk, total := total, shaState := x }

/-- R33: no command reads INT_STATUS or INT_EN, and none but the completion updates writes them. -/
theorem exec_withInts (st en : BitVec 3) (i : Instr) (s : State) :
    SameRun (withInts st en) (exec i s) (exec i (withInts st en s)) := by
  have hexp : exponentError (withInts st en s) = exponentError s := rfl
  cases i with
  | nop => exact .finish _ _
  | shaInit => exact .finish .none (startContext s)
  | shaUpdate len =>
    exact .ite (.finish _ s) (.ite (.finish _ s) (.ite (.finish _ s)
      (.finish _ (absorbMessage (bufBytes s .msg len) s))))
  | shaFinal =>
    have hdigest : finalDigest (withInts st en s) = finalDigest s := rfl
    simp only [exec, execShaFinal, hdigest]
    generalize finalDigest s = d
    exact .ite (.finish _ s) (.finish _ (closeContext (putBuf .digest d s)))
  | mgf1 len => exact .ite (.finish _ s) (.finish _ (putBuf .r (mgf1 (mHash s) len) s))
  | pssEncode => exact .ite (.finish _ s) (.ite (.finish _ s) (.finish _ (putEncoded s)))
  | pssVerify => exact .ite (.finish _ (setResult false s)) (.finish _ (setResult (checkRecovered s) s))
  | keyLoad =>
    exact .ite (.finish _ (dropKey s)) (.ite (.finish _ (dropKey s)) (.ite (.finish _ (dropKey s))
      (.finish _ (latchKey s))))
  | modexp =>
    simp only [exec, execModexp, hexp]
    split
    · exact .finish _ s
    · exact .ite (.finish _ s) (.finish _ (putPower s))
  | cmp len =>
    exact .ite (.finish _ (setResult false s))
      (.finish _ (setResult (ctEq (bufBytes s .a len) (bufBytes s .r len) len) s))
  | sign =>
    simp only [exec, execSign, hexp]
    split
    · exact .finish _ s
    · exact .ite (.finish _ s) (.finish _ (putPower (putEncoded s)))
  | verify len =>
    simp only [exec, execVerify, hexp]
    split
    · exact .finish _ (setResult false s)
    · exact .ite (.finish _ (setResult false s)) (.ite (.finish _ (setResult false s)) (.finish _ (recoverAndCheck s)))
  | zeroize => exact .finish .none (eraseAll s)

/-- Settles O55: both runs end with one code, and the completion sets the bits of whatever INT_STATUS it finds. -/
theorem interruptsDoNotGateCommands : Obligations.InterruptsDoNotGateCommands := by
  intro s t i st en h
  obtain ⟨e, u, hs, hrun⟩ := exec_withInts st en i s
  obtain rfl := finish_next (hs.symm.trans h)
  obtain ⟨-, -, hdone, herr, hovr⟩ := complete_endsWith e (withInts st en u) (withInts st en u) rfl
  exact ⟨(complete e (withInts st en u)).intStatus, hrun, hdone, herr, hovr⟩

/-- R54: the five commands that hash inside do not read the host context, and keep it. -/
theorem exec_withContext (hc : HashWords) (blk : List Byte) (total : BitVec 61) (x : ShaState) {i : Instr}
    (hi : (∃ len, i = .mgf1 len ∨ i = .verify len) ∨ i = .pssEncode ∨ i = .pssVerify ∨ i = .sign) (s : State) :
    SameRun (withContext hc blk total x) (exec i s) (exec i (withContext hc blk total x s)) := by
  have hexp : exponentError (withContext hc blk total x s) = exponentError s := rfl
  rcases hi with ⟨len, rfl | rfl⟩ | rfl | rfl | rfl
  · exact .ite (.finish _ s) (.finish _ (putBuf .r (mgf1 (mHash s) len) s))
  · simp only [exec, execVerify, hexp]
    split
    · exact .finish _ (setResult false s)
    · exact .ite (.finish _ (setResult false s)) (.ite (.finish _ (setResult false s)) (.finish _ (recoverAndCheck s)))
  · exact .ite (.finish _ s) (.ite (.finish _ s) (.finish _ (putEncoded s)))
  · exact .ite (.finish _ (setResult false s)) (.finish _ (setResult (checkRecovered s) s))
  · simp only [exec, execSign, hexp]
    split
    · exact .finish _ s
    · exact .ite (.finish _ s) (.finish _ (putPower (putEncoded s)))

/-- Settles O56: the run from another context keeps that context; the run from the state's own context is the run
itself, so it keeps its own. -/
theorem internalHashingLeavesHostContext : Obligations.InternalHashingLeavesHostContext := by
  intro s t i hc blk total x hi h
  constructor
  · obtain ⟨e, u, -, hown⟩ := exec_withContext s.hc s.blk s.total s.shaState hi s
    have hself : exec i s = finish e (withContext s.hc s.blk s.total s.shaState u) := hown
    rw [finish_next (hself.symm.trans h)]
    exact ⟨rfl, rfl, rfl, rfl⟩
  · obtain ⟨e, u, hs, hrun⟩ := exec_withContext hc blk total x hi s
    obtain rfl := finish_next (hs.symm.trans h)
    exact hrun

/-! ### What an idle step does not read (R55, R149) -/

/-- R55: the state with another word in CMD_PEND. -/
def withCmdPend (v : Word) (s : State) : State := { s with cmdPend := v }

/-- `t'` is `t` but for CMD_PEND, and `t` itself once a word is pending: what another idle CMD_PEND may lead to. -/
def SameButIdleCmdPend (t t' : State) : Prop := ∃ w, t' = withCmdPend w t ∧ (t.busy = true → w = t.cmdPend)

/-- In an idle state CMD_PEND may be any word. -/
theorem SameButIdleCmdPend.of_idle {t : State} (v : Word) (h : t.busy = false) :
    SameButIdleCmdPend t (withCmdPend v t) := ⟨v, rfl, fun hb => absurd (hb.symm.trans h) (by decide)⟩

theorem SameButIdleCmdPend.refl (t : State) : SameButIdleCmdPend t t := ⟨t.cmdPend, rfl, fun _ => rfl⟩

/-- The host's answer has no part in it. -/
theorem SameButIdleCmdPend.setResp {t t' : State} (h : SameButIdleCmdPend t t') (r : Response) :
    SameButIdleCmdPend { t with resp := r } { t' with resp := r } := by
  obtain ⟨w, rfl, hw⟩ := h
  exact ⟨w, rfl, hw⟩

theorem readValue_withCmdPend (v : Word) (s : State) (off : Nat) :
    readValue (withCmdPend v s) off = readValue s off := by
  unfold readValue
  split
  · next r _ => cases r <;> rfl
  · rfl

/-- R21, R129: the reset and the acceptance set CMD_PEND; no other register write reads or sets it. -/
theorem writeReg_withCmdPend (v x : Word) (r : Reg) {s : State} (hb : s.busy = false) :
    SameButIdleCmdPend (writeReg r x s) (writeReg r x (withCmdPend v s)) := by
  cases r with
  | ctrl =>
    simp only [writeReg]
    split
    · exact .refl (resetEngine s)
    · exact .of_idle v hb
  | cmd => exact .refl (accept x s)
  | id | version | status | intStatus | intEn | slen | nLen | expLen | modBits | emLen | shaLenLo | shaLenHi | params =>
    exact .of_idle v hb

theorem writeEffect_withCmdPend (off : Nat) (v x : Word) {s : State} (hb : s.busy = false) :
    SameButIdleCmdPend (writeEffect off x s) (writeEffect off x (withCmdPend v s)) := by
  cases hr : regAt off with
  | some r =>
    rw [writeEffect_of_reg x hr (.inl hb), writeEffect_of_reg (s := withCmdPend v s) x hr (.inl hb)]
    exact writeReg_withCmdPend v x r hb
  | none =>
    rw [writeEffect_of_buf x hr hb, writeEffect_of_buf (s := withCmdPend v s) x hr hb]
    unfold writeBufWord
    split <;> exact .of_idle v hb

theorem busAccess_withCmdPend (acc : Access) (v : Word) {s : State} (hb : s.busy = false) :
    SameButIdleCmdPend (busAccess acc s) (busAccess acc (withCmdPend v s)) := by
  cases acc with
  | read tgt width =>
    unfold busAccess
    dsimp only
    split
    · rw [busRead, busRead, readValue_withCmdPend]
      exact (SameButIdleCmdPend.of_idle v hb).setResp _
    · exact (SameButIdleCmdPend.of_idle v hb).setResp _
  | write tgt width strobes x =>
    unfold busAccess
    dsimp only
    split
    · unfold busWrite
      split
      · exact (SameButIdleCmdPend.of_idle v hb).setResp _
      · exact (writeEffect_withCmdPend _ v x hb).setResp _
    · exact (SameButIdleCmdPend.of_idle v hb).setResp _

theorem runEvent_withCmdPend (ev : Event) (v : Word) {s t : State} (hb : s.busy = false)
    (h : runEvent ev s = .next t) :
    ∃ t', runEvent ev (withCmdPend v s) = .next t' ∧ SameButIdleCmdPend t t' := by
  cases ev with
  | bus acc =>
    cases h
    exact ⟨_, rfl, busAccess_withCmdPend acc v hb⟩
  | hwReset =>
    cases h
    exact ⟨_, rfl, .refl (resetEngine s)⟩
  | engine =>
    rw [runEvent, engineTurn_of_idle hb] at h
    cases h
    exact ⟨_, engineTurn_of_idle hb, .of_idle v hb⟩

/-- Settles O57: both steps are one event, from states that are the same but for an idle CMD_PEND. -/
theorem idleCmdPendIsNotRead : Obligations.IdleCmdPendIsNotRead := by
  intro s t v hb h
  rw [step_eq_headEvent] at h
  obtain ⟨t', hstep, w, rfl, hw⟩ := runEvent_withCmdPend _ v (s := { s with agenda := s.agenda.tail }) hb h
  exact ⟨w, (step_eq_headEvent _).trans hstep, hw⟩

end Sys2Proof.Machine
end

section
/-! PROOFS. The family of 20_memory.md: an accepted command runs at the engine's next turn. -/

namespace Sys2Proof.Machine

/-! ### Decoding and running an accepted command (R78, R129, R130) -/

/-- R78: the fields of a command's word are its opcode, 0 and its length. -/
theorem encode_fields (i : Instr) : Laws.Encoding.Statement i := by
  cases i with
  | nop => exact Laws.Encoding.nop
  | shaInit => exact Laws.Encoding.shaInit
  | shaUpdate len => exact Laws.Encoding.shaUpdate len
  | shaFinal => exact Laws.Encoding.shaFinal
  | mgf1 len => exact Laws.Encoding.mgf1 len
  | pssEncode => exact Laws.Encoding.pssEncode
  | pssVerify => exact Laws.Encoding.pssVerify
  | keyLoad => exact Laws.Encoding.keyLoad
  | modexp => exact Laws.Encoding.modexp
  | cmp len => exact Laws.Encoding.cmp len
  | sign => exact Laws.Encoding.sign
  | verify len => exact Laws.Encoding.verify len
  | zeroize => exact Laws.Encoding.zeroize

/-- R80, R81: a word whose LEN16 is 0 decodes as a command that takes no length. -/
theorem decodePlain_of_len16 {v : Word} (i : Instr) (h : (len16Field v).toNat = 0) : decodePlain v i = .ok i :=
  if_pos (BitVec.eq_of_toNat_eq h)

/-- R78 to R81: decoding the word of a well-formed command gives it back. -/
theorem decode_encode (i : Instr) (h : i.wf = true) : decode (encode i) = .ok i := by
  obtain ⟨hopc, hrsv, hlen⟩ := encode_fields i h
  rw [decode, hrsv, hopc, if_neg (by decide)]
  cases i with
  | shaUpdate len | mgf1 len | cmp len | verify len => rw [hlen]; rfl
  | nop | shaInit | shaFinal | pssEncode | pssVerify | keyLoad | modexp | sign | zeroize =>
    exact decodePlain_of_len16 _ hlen

/-- R130: while BUSY = 1 the engine's turn runs the pending command. -/
theorem engineTurn_of_pending {s : State} {i : Instr} (hb : s.busy = true) (hd : decode s.cmdPend = .ok i) :
    engineTurn s = exec i s := by
  simp [engineTurn, hb, completionStep, hd]

/-- Settles O7: the CMD write is `accept`, and the engine's turn then runs the word that `decode_encode` gives back. -/
theorem acceptedCommandRuns : Obligations.AcceptedCommandRuns := by
  intro s i rest hwf hb ha
  refine ⟨{ s with cmdPend := encode i, busy := true, agenda := .engine :: rest, resp := .ack },
    step_of_writeReg ha (by decide) (r := .cmd) rfl (.inl hb), rfl, ?_⟩
  refine (step_of_engine rfl).trans (engineTurn_of_pending rfl ?_)
  exact decode_encode i hwf

end Sys2Proof.Machine
end

section
/-! PROOFS. The family of 20_memory.md: BusErrors, writes that are ignored or dropped, and reads. -/

namespace Sys2Proof.Machine

/-! ### BusErrors (R63) -/

/-- R63: the conditions of a read's BusError. -/
theorem readFaults_iff {off width : Nat} :
    readFaults off width = true ↔ off % 4 ≠ 0 ∨ width ≠ 32 ∨ (0x03C ≤ off ∧ off ≤ 0x0FF) ∨
      (0x220 ≤ off ∧ off ≤ 0x3FF) ∨ (0x600 ≤ off ∧ off ≤ 0x7FF) := by
  simp [readFaults, reservedOffset, or_assoc]

/-- R63: a write raises BusError where a read does, and where a strobe is missing. -/
theorem writeFaults_iff {off width : Nat} {strobes : BitVec 4} :
    writeFaults off width strobes = true ↔ readFaults off width = true ∨ strobes ≠ 0b1111#4 := by
  simp [writeFaults]

/-- R63: an aligned 32-bit access outside the reserved ranges raises no BusError. -/
theorem readFaults_of_mapped {off : Nat} (h4 : off % 4 = 0) (hr : reservedOffset off = false) :
    readFaults off 32 = false := by
  simp [readFaults, h4, hr]

/-- R63, I5: the platform's decoder selects the engine for no address outside its window. -/
theorem windowOffset_outside {addr : Nat} (h : addr < Config.baseAddr ∨ Config.baseAddr + 0x1000 ≤ addr) :
    windowOffset (.platform addr) = none := by
  rw [windowOffset, if_neg]
  simp only [Config.windowBytes]
  omega

/-- Settles O14: `busRead` and `busWrite` answer BusError exactly where `readFaults` and `writeFaults` hold. -/
theorem busErrorHasNoEffect : Obligations.BusErrorHasNoEffect := by
  intro s off width strobes v rest bad
  have hread : readFaults off.toNat width = true ↔ bad := readFaults_iff
  have hwrite : writeFaults off.toNat width strobes = true ↔ bad ∨ strobes ≠ 0b1111#4 := by
    rw [writeFaults_iff, hread]
  refine ⟨fun h => ?_, fun h => ?_, fun addr ho h => ?_⟩
  · have hstep : step s = .next (busRead off.toNat width { s with agenda := rest }) := step_of_bus h
    rw [hstep, ← hread]
    exact ⟨fun hf => by rw [busRead, if_pos hf], fun hf => ⟨_, _, rfl, if_neg hf⟩⟩
  · have hstep : step s = .next (busWrite off.toNat width strobes v { s with agenda := rest }) := step_of_bus h
    rw [hstep, ← hwrite]
    exact ⟨fun hf => by rw [busWrite, if_pos hf], fun hf => ⟨_, rfl, by rw [busWrite, if_neg hf]⟩⟩
  · rcases h with h | h <;>
      exact ⟨.notSelected, by simp only [step_of_bus h, busAccess, windowOffset_outside ho]⟩

/-! ### Writes to read-only registers and reserved bits (R64), and writes while BUSY = 1 (R67) -/

/-- R67: the step of a host's write that is dropped. -/
theorem step_of_droppedWrite {s : State} {off : BitVec 12} {v : Word} {rest : List Event} (hb : s.busy = true)
    (h : s.agenda = busWrite32 off v :: rest) (hf : readFaults off.toNat 32 = false)
    (hn : neverDropped off.toNat = false) :
    step s = .next { s with intStatus := s.intStatus ||| ovrBit, agenda := rest, resp := .ack } := by
  rw [step_of_write32 h hf, writeEffect_of_busy (s := { s with agenda := rest }) v hb hn]
  rfl

/-- R18, R64: the eight read-only offsets are registers that a write leaves as they are; none raises BusError and none is
spared by the busy rule. -/
theorem readOnly_offset {off : BitVec 12}
    (h : off ∈ [0x000#12, 0x004#12, 0x00C#12, 0x028#12, 0x02C#12, 0x030#12, 0x034#12, 0x038#12]) :
    readFaults off.toNat 32 = false ∧ neverDropped off.toNat = false ∧
      ∃ r, regAt off.toNat = some r ∧ ∀ v s, writeReg r v s = s := by
  simp only [List.mem_cons, List.not_mem_nil, or_false] at h
  rcases h with rfl | rfl | rfl | rfl | rfl | rfl | rfl | rfl <;>
    exact ⟨by decide, by decide, _, rfl, fun _ _ => rfl⟩

/-- A field of `n` bits reads 0 in the bits above it. -/
theorem setWidth_and_highBits {n : Nat} (x : BitVec n) :
    x.setWidth 32 &&& BitVec.allOnes 32 <<< n = 0#32 := by
  ext i hi
  simp only [BitVec.getElem_and, BitVec.getElem_setWidth, BitVec.getElem_shiftLeft, BitVec.getElem_zero]
  by_cases h : i < n
  · simp [h]
  · simp [BitVec.getLsbD_of_ge x i (by omega)]

/-- R22 to R27: the reserved bits of STATUS, [31:12], [7:6] and 3, read 0. -/
theorem statusWord_reserved (s : State) : statusWord s &&& 0xFFFFF0C8#32 = 0#32 := by
  have hmask : (0xFFFFF0C8#32 : Word) = 0xFFFFF#20 ++ 0#4 ++ 3#2 ++ 0#2 ++ 1#1 ++ 0#1 ++ 0#1 ++ 0#1 := by decide
  rw [hmask, statusWord]
  refine (BitVec.and_append ..).trans ?_
  simp only [BitVec.and_append]
  simp

/-- R64: every register's reserved bits read 0. -/
theorem readValue_reserved (s : State) :
    readValue s 0x008 &&& 0xFFFFFFFE#32 = 0#32 ∧ readValue s 0x00C &&& 0xFFFFF0C8#32 = 0#32 ∧
      readValue s 0x014 &&& 0xFFFFFFF8#32 = 0#32 ∧ readValue s 0x018 &&& 0xFFFFFFF8#32 = 0#32 ∧
      readValue s 0x01C &&& 0xFFFF0000#32 = 0#32 ∧ readValue s 0x020 &&& 0xFFFF0000#32 = 0#32 ∧
      readValue s 0x024 &&& 0xFFFF0000#32 = 0#32 ∧ readValue s 0x028 &&& 0xFFFFE000#32 = 0#32 ∧
      readValue s 0x02C &&& 0xFFFFE000#32 = 0#32 ∧ readValue s 0x034 &&& 0xE0000000#32 = 0#32 := by
  have hem : readValue s 0x02C = (BitVec.ofNat 13 (emLenReg s)).setWidth 32 := by
    apply BitVec.eq_of_toNat_eq
    have hlt := emLenReg_lt s
    rw [show (readValue s 0x02C).toNat = emLenReg s from readReg_emLen_toNat s, BitVec.toNat_setWidth,
      BitVec.toNat_ofNat]
    omega
  rw [hem]
  exact ⟨BitVec.zero_and, statusWord_reserved s, setWidth_and_highBits s.intStatus, setWidth_and_highBits s.intEn,
    setWidth_and_highBits s.slen, setWidth_and_highBits s.nLen, setWidth_and_highBits s.expLen,
    setWidth_and_highBits s.modBits, setWidth_and_highBits _, setWidth_and_highBits (s.total.extractLsb' 32 29)⟩

/-- A mask that holds the low `n` bits whole does not change a field taken from them. -/
theorem extractLsb'_and_of_allOnes {n : Nat} (v : Word) {m : Word} (hm : m.extractLsb' 0 n = BitVec.allOnes n) :
    (v &&& m).extractLsb' 0 n = v.extractLsb' 0 n := by
  rw [BitVec.extractLsb'_and, hm, BitVec.and_allOnes]

/-- R64: a register write ignores the reserved bits of its value. -/
theorem writeReg_reserved (v : Word) (s : State) :
    writeReg .ctrl (v &&& 0xFFFFFFFE#32) s = s ∧ writeReg .intStatus (v &&& 0xFFFFFFF8#32) s = s ∧
      writeReg .intEn v s = writeReg .intEn (v &&& 7#32) s ∧ writeReg .slen v s = writeReg .slen (v &&& 0xFFFF#32) s ∧
      writeReg .nLen v s = writeReg .nLen (v &&& 0xFFFF#32) s ∧
      writeReg .expLen v s = writeReg .expLen (v &&& 0xFFFF#32) s := by
  have hsrst : (v &&& 0xFFFFFFFE#32).getLsbD 0 = false := by simp
  have hclear : clearInts s.intStatus (v &&& 0xFFFFFFF8#32) = s.intStatus := by
    have hfield : (v &&& 0xFFFFFFF8#32).extractLsb' 0 3 = 0#3 := by
      rw [BitVec.extractLsb'_and, show (0xFFFFFFF8#32).extractLsb' 0 3 = 0#3 by decide, BitVec.and_zero]
    rw [clearInts, hfield]
    exact BitVec.and_allOnes
  have hen : (v &&& 7#32).extractLsb' 0 3 = v.extractLsb' 0 3 := extractLsb'_and_of_allOnes v (by decide)
  have hlen : (v &&& 0xFFFF#32).extractLsb' 0 16 = v.extractLsb' 0 16 := extractLsb'_and_of_allOnes v (by decide)
  simp only [writeReg, hsrst, hclear, hen, hlen, Bool.false_eq_true, if_false, and_self]

/-- Settles O17: a write to a read-only register is the register's rule, which is no change, or is dropped; the reserved
bits are those of `readValue_reserved` and `writeReg_reserved`. -/
theorem readOnlyRegistersIgnoreWrites : Obligations.ReadOnlyRegistersIgnoreWrites := by
  intro s off v rest
  refine ⟨fun hro ha => ?_, rfl, readValue_reserved s, writeReg_reserved v s⟩
  obtain ⟨hf, hn, r, hr, hsame⟩ := readOnly_offset hro
  exact ⟨fun hb => by rw [step_of_writeReg ha hf hr (.inl hb), hsame], fun hb => step_of_droppedWrite hb ha hf hn⟩

/-- R67: the busy rule spares CTRL, INT_STATUS and INT_EN alone. -/
theorem neverDropped_eq_false {off : BitVec 12} (h : off ∉ [0x008#12, 0x014#12, 0x018#12]) :
    neverDropped off.toNat = false := by
  simpa [neverDropped, ← BitVec.toNat_inj, and_assoc] using h

/-- Settles O18: a dropped write sets OVR, and a write to one of the three spared registers is its register's rule. -/
theorem busyDropsWrites : Obligations.BusyDropsWrites := by
  intro s off v rest hb ha
  refine ⟨fun h4 hn hr => step_of_droppedWrite hb ha (readFaults_of_mapped h4 hr) (neverDropped_eq_false hn), ?_, ?_,
    ?_, ?_⟩
  · rintro rfl
    exact step_of_writeReg ha (by decide) (r := .intStatus) rfl (.inr rfl)
  · rintro rfl
    exact step_of_writeReg ha (by decide) (r := .intEn) rfl (.inr rfl)
  · rintro rfl hv
    rw [step_of_writeReg ha (by decide) (r := .ctrl) rfl (.inr rfl), writeReg, hv]
    rfl
  · rintro rfl hv
    refine ⟨State.reset.cmdPend, ?_⟩
    rw [step_of_writeReg ha (by decide) (r := .ctrl) rfl (.inr rfl), writeReg, if_pos hv]
    rfl

/-! ### Reads (R58, R65, R68) -/

/-- R18: every aligned offset up to PARAMS is a register. -/
theorem regAt_of_le {off : Nat} (h4 : off % 4 = 0) (h : off ≤ 0x038) : ∃ r, regAt off = some r := by
  have hall : ∀ j < 15, (regAt (4 * j)).isSome = true := by decide
  have hsome := hall (off / 4) (by omega)
  rwa [Nat.mul_div_cancel' (Nat.dvd_of_mod_eq_zero h4), Option.isSome_iff_exists] at hsome

/-- Settles O19: a read without BusError answers `readValue`, which is 0 for a buffer word while BUSY = 1 and `readReg`
for a register. -/
theorem busyReads : Obligations.BusyReads := by
  intro s off rest hb ha h4
  constructor
  · intro hbuf hr
    have hread : readValue s off.toNat = 0#32 := by simp [readValue, regAt_of_ge hbuf, hb]
    rw [step_of_answers (answers_readValue s (readFaults_of_mapped h4 hr)) ha, hread]
  · intro hreg
    obtain ⟨r, hr⟩ := regAt_of_le h4 hreg
    have hread : readValue s off.toNat = readReg s r := by simp [readValue, hr]
    exact ⟨r, hr, by rw [step_of_answers (answers_readValue s (readFaults_of_le h4 hreg)) ha, hread]⟩

/-- R58: the window offset of the platform address BASE_ADDR + offset. -/
theorem windowOffset_baseAddr_add (off : BitVec 12) :
    windowOffset (.platform (Config.baseAddr + off.toNat)) = windowOffset (.window off) := by
  have hlt := off.isLt
  have hin : Config.baseAddr ≤ Config.baseAddr + off.toNat ∧
      Config.baseAddr + off.toNat < Config.baseAddr + Config.windowBytes := by
    simp only [Config.windowBytes]
    omega
  exact (if_pos hin).trans (congrArg some (Nat.add_sub_cancel_left ..))

/-- Settles O15: a transaction depends on its target through `windowOffset` alone. -/
theorem effectiveAddressIsBasePlusOffset : Obligations.EffectiveAddressIsBasePlusOffset := by
  intro s off width strobes v
  simp only [busAccess, windowOffset_baseAddr_add, and_self]

/-- No read depends on the agenda or on the host's last answer. -/
theorem readValue_setHost (s : State) (off : Nat) (a : List Event) (r : Response) :
    readValue { s with agenda := a, resp := r } off = readValue s off := by
  unfold readValue
  split
  · next reg _ => cases reg <;> rfl
  · rfl

/-- R65: a read changes only the answer, whatever events follow and whatever the host was last answered. -/
theorem busAccess_read_idempotent (t : Target) (width : Nat) (s : State) :
    ∃ x, ∀ a r, busAccess (.read t width) { s with agenda := a, resp := r } = { s with agenda := a, resp := x } := by
  cases ho : windowOffset t with
  | none => exact ⟨.notSelected, fun a r => by simp [busAccess, ho]⟩
  | some off =>
    exact ⟨if readFaults off width then .busError else .data (readValue s off), fun a r => by
      simp [busAccess, ho, busRead, readValue_setHost]⟩

/-- Settles O16: both reads are the one answer that `busAccess_read_idempotent` gives. -/
theorem readsHaveNoSideEffect : Obligations.ReadsHaveNoSideEffect := by
  intro s t width rest ha
  obtain ⟨x, hx⟩ := busAccess_read_idempotent t width s
  refine ⟨x, ?_, ?_⟩
  · rw [step_of_bus ha]
    exact congrArg Host.Outcome.next (hx _ s.resp)
  · rw [step_of_bus rfl]
    exact congrArg Host.Outcome.next (hx rest x)

end Sys2Proof.Machine
end

section
/-! PROOFS. The family of 30_encoding.md: decode, encode and the opcode table agree, and an illegal word is BAD_CMD. -/

namespace Sys2Proof.Machine

/-! ### The fields of a word and of a command, in numbers (R78 to R80) -/

@[simp] theorem opcField_toNat (v : Word) : (opcField v).toNat = v.toNat % 256 := by
  simp [opcField]

@[simp] theorem rsvField_toNat (v : Word) : (rsvField v).toNat = v.toNat / 256 % 256 := by
  simp [rsvField, Nat.shiftRight_eq_div_pow]

@[simp] theorem len16Field_toNat (v : Word) : (len16Field v).toNat = v.toNat / 65536 := by
  have hlt := v.isLt
  simp only [len16Field, BitVec.extractLsb'_toNat, Nat.shiftRight_eq_div_pow]
  omega

/-- R80: the assigned values of OPC. -/
def opcodes : List Nat := [0x00, 0x01, 0x02, 0x03, 0x10, 0x11, 0x12, 0x20, 0x21, 0x30, 0x40, 0x41, 0x7F]

/-- R79: the values of OPC whose commands take a length. -/
def lengthOpcodes : List Nat := [0x02, 0x10, 0x30, 0x41]

theorem opcode_mem_opcodes (i : Instr) : i.opcode.toNat ∈ opcodes := by
  cases i <;> simp [Instr.opcode, opcodes]

/-- R79: a command that takes no length has LEN16 = 0. -/
theorem len16_eq_zero {i : Instr} (h : i.opcode.toNat ∉ lengthOpcodes) : i.len16 = 0 := by
  cases i with
  | shaUpdate len | mgf1 len | cmp len | verify len => exact absurd h (by simp [Instr.opcode, lengthOpcodes])
  | nop | shaInit | shaFinal | pssEncode | pssVerify | keyLoad | modexp | sign | zeroize => rfl

/-- R79: a command has an encoding exactly when its length fits LEN16. -/
theorem wf_iff_len16_lt (i : Instr) : i.wf = true ↔ i.len16 < 65536 := by
  cases i with
  | shaUpdate len | mgf1 len | cmp len | verify len => exact decide_eq_true_iff
  | nop | shaInit | shaFinal | pssEncode | pssVerify | keyLoad | modexp | sign | zeroize => decide

/-- R78: the word has the fields of the command: RSV = 0, its OPC and its LEN16. -/
def HasFields (v : Word) (i : Instr) : Prop :=
  v.toNat / 256 % 256 = 0 ∧ v.toNat % 256 = i.opcode.toNat ∧ v.toNat / 65536 = i.len16

/-- R81: the words that the rule's `decode` accepts. -/
def LegalWord (v : Word) : Prop :=
  v.toNat / 256 % 256 = 0 ∧ v.toNat % 256 ∈ opcodes ∧ (v.toNat % 256 ∉ lengthOpcodes → v.toNat / 65536 = 0)

theorem HasFields.wf {v : Word} {i : Instr} (h : HasFields v i) : i.wf = true := by
  obtain ⟨-, -, hlen⟩ := h
  have hlt := v.isLt
  rw [wf_iff_len16_lt]
  omega

/-- R78: the three fields are the whole word. -/
theorem HasFields.encode_eq {v : Word} {i : Instr} (h : HasFields v i) : encode i = v := by
  have hlt := (wf_iff_len16_lt i).mp h.wf
  obtain ⟨hrsv, hopc, hlen⟩ := h
  apply BitVec.eq_of_toNat_eq
  rw [encode, Laws.Encoding.cmdWord_toNat _ _ hlt]
  omega

theorem HasFields.legalWord {v : Word} {i : Instr} (h : HasFields v i) : LegalWord v := by
  obtain ⟨hrsv, hopc, hlen⟩ := h
  rw [LegalWord, hopc, hlen]
  exact ⟨hrsv, opcode_mem_opcodes i, len16_eq_zero⟩

/-! ### What decode answers (R81, R82) -/

/-- What decode can answer for a word: a command with the word's fields, or an error for an illegal word. -/
inductive Decoded (v : Word) : Except DecodeError Instr → Prop where
  | command {i : Instr} (h : HasFields v i) : Decoded v (.ok i)
  | illegal {x : DecodeError} (h : ¬LegalWord v) : Decoded v (.error x)

theorem decodePlain_decoded {v : Word} {i : Instr} (hrsv : v.toNat / 256 % 256 = 0)
    (hopc : v.toNat % 256 = i.opcode.toNat) (hi : i.opcode.toNat ∉ lengthOpcodes) :
    Decoded v (decodePlain v i) := by
  have hzero : len16Field v = 0#16 ↔ v.toNat / 65536 = 0 := by simp [← BitVec.toNat_inj]
  rw [decodePlain]
  split
  · next h => exact .command ⟨hrsv, hopc, (hzero.mp h).trans (len16_eq_zero hi).symm⟩
  · next h => exact .illegal fun ⟨_, _, hlen⟩ => h (hzero.mpr (hlen (hopc ▸ hi)))

theorem decode_decoded (v : Word) : Decoded v (decode v) := by
  have hzero : rsvField v = 0#8 ↔ v.toNat / 256 % 256 = 0 := by simp [← BitVec.toNat_inj]
  rw [decode]
  split
  · next h => exact .illegal fun ⟨hrsv, _, _⟩ => h (hzero.mpr hrsv)
  · next h =>
    have hrsv := hzero.mp (not_not.mp h)
    rw [opcField_toNat, len16Field_toNat]
    split
    -- the four commands with a length, the unassigned values of OPC, then the commands without a length
    case h_3 | h_5 | h_10 | h_12 => exact .command ⟨hrsv, ‹_›, rfl⟩
    case h_14 => exact .illegal fun ⟨_, hopc, _⟩ => by simp_all [opcodes]
    all_goals exact decodePlain_decoded hrsv ‹_› (by decide)

theorem hasFields_of_decode {v : Word} {i : Instr} (h : decode v = .ok i) : HasFields v i := by
  have hd := decode_decoded v
  rw [h] at hd
  cases hd with
  | command hf => exact hf

theorem not_legalWord_of_decode_error {v : Word} {x : DecodeError} (h : decode v = .error x) : ¬LegalWord v := by
  have hd := decode_decoded v
  rw [h] at hd
  cases hd with
  | illegal hv => exact hv

/-- R81: decode accepts the legal words. -/
theorem exists_decode_iff (v : Word) : (∃ i, decode v = .ok i) ↔ LegalWord v := by
  constructor
  · rintro ⟨i, h⟩
    exact (hasFields_of_decode h).legalWord
  · intro hv
    cases h : decode v with
    | ok i => exact ⟨i, rfl⟩
    | error x => exact absurd hv (not_legalWord_of_decode_error h)

/-- Settles O1: the fields of a command's word select the command's branch of decode. -/
theorem decodeOfEncode : Obligations.DecodeOfEncode := decode_encode

/-- Settles O2: a word that decodes has its command's fields. -/
theorem encodeOfDecode : Obligations.EncodeOfDecode := fun _ _ h =>
  ⟨(hasFields_of_decode h).wf, (hasFields_of_decode h).encode_eq⟩

/-- Settles O4: each word is the word of its command. -/
theorem writtenOutWordsDecode : Obligations.WrittenOutWordsDecode :=
  ⟨decode_encode .nop rfl, decode_encode .shaInit rfl, decode_encode (.shaUpdate 3) rfl, decode_encode .shaFinal rfl,
    decode_encode (.mgf1 40) rfl, decode_encode .pssEncode rfl, decode_encode .pssVerify rfl,
    decode_encode .keyLoad rfl, decode_encode .modexp rfl, decode_encode (.cmp 4) rfl, decode_encode .sign rfl,
    decode_encode (.verify 36) rfl, decode_encode .zeroize rfl⟩

/-! ### The opcode table (R81) -/

theorem opcodeTable_patterns : (opcodeTable.map fun r => r.pattern.toNat) = opcodes := by decide

theorem opcodeTable_mask : ∀ r ∈ opcodeTable, r.mask =
    if r.pattern ∈ [0x02#32, 0x10#32, 0x30#32, 0x41#32] then 0x0000FFFF#32 else 0xFFFFFFFF#32 := by decide

theorem pattern_mem_opcodes {r : OpcodeRow} (hr : r ∈ opcodeTable) : r.pattern.toNat ∈ opcodes :=
  opcodeTable_patterns ▸ List.mem_map_of_mem hr

theorem row_eq_of_pattern : ∀ r ∈ opcodeTable, ∀ r' ∈ opcodeTable, r.pattern.toNat = r'.pattern.toNat → r = r' := by
  decide

theorem lt_256_of_mem_opcodes : ∀ n ∈ opcodes, n < 256 := by decide

/-- R81: a row selects the words with its OPC and RSV = 0, and LEN16 = 0 where its command takes no length. -/
theorem selects_iff {r : OpcodeRow} (hr : r ∈ opcodeTable) (v : Word) : r.selects v = true ↔
    v.toNat % 65536 = r.pattern.toNat ∧ (r.pattern.toNat ∉ lengthOpcodes → v.toNat / 65536 = 0) := by
  have hp := lt_256_of_mem_opcodes _ (pattern_mem_opcodes hr)
  have hmem : r.pattern ∈ [0x02#32, 0x10#32, 0x30#32, 0x41#32] ↔ r.pattern.toNat ∈ lengthOpcodes := by
    simp [lengthOpcodes, ← BitVec.toNat_inj]
  rw [OpcodeRow.selects, beq_iff_eq, opcodeTable_mask r hr, ← BitVec.toNat_inj]
  split
  · next hmask =>
    have hlen := hmem.mp hmask
    have hand : (v &&& 0x0000FFFF#32).toNat = v.toNat % 65536 := Nat.and_two_pow_sub_one_eq_mod _ 16
    simp [hand, hlen]
  · next hmask =>
    have hlen := mt hmem.mpr hmask
    have hand : v &&& 0xFFFFFFFF#32 = v := BitVec.and_allOnes
    simp only [hand, hlen, not_false_eq_true, forall_const]
    omega

/-- R81: at most one row matches any word, because the row's pattern is the low half of the word. -/
theorem row_eq_of_selects {v : Word} {r r' : OpcodeRow} (hr : r ∈ opcodeTable) (hr' : r' ∈ opcodeTable)
    (h : r.selects v = true) (h' : r'.selects v = true) : r = r' :=
  row_eq_of_pattern r hr r' hr' (((selects_iff hr v).mp h).1.symm.trans ((selects_iff hr' v).mp h').1)

/-- R81: some row selects the legal words. -/
theorem exists_selects_iff (v : Word) : (∃ r ∈ opcodeTable, r.selects v = true) ↔ LegalWord v := by
  constructor
  · rintro ⟨r, hr, hsel⟩
    obtain ⟨hlow, hlen⟩ := (selects_iff hr v).mp hsel
    have hp := lt_256_of_mem_opcodes _ (pattern_mem_opcodes hr)
    have hopc : v.toNat % 256 = r.pattern.toNat := by omega
    rw [LegalWord, hopc]
    exact ⟨by omega, pattern_mem_opcodes hr, hlen⟩
  · rintro ⟨hrsv, hopc, hlen⟩
    rw [← opcodeTable_patterns, List.mem_map] at hopc
    obtain ⟨r, hr, hp⟩ := hopc
    exact ⟨r, hr, (selects_iff hr v).mpr ⟨by omega, hp ▸ hlen⟩⟩

/-- R80: the row with a command's OPC has the command's mnemonic. -/
theorem mnemonic_of_pattern {r : OpcodeRow} (hr : r ∈ opcodeTable) {i : Instr}
    (h : r.pattern.toNat = i.opcode.toNat) : r.mnemonic = i.mnemonic := by
  revert r
  cases i <;> simp [opcodeTable, Instr.opcode, Instr.mnemonic]

/-- R81: a decoded command is the command of a row that selects its word. -/
theorem exists_row_of_decode {v : Word} {i : Instr} (h : decode v = .ok i) :
    ∃ r ∈ opcodeTable, r.selects v = true ∧ r.mnemonic = i.mnemonic := by
  obtain ⟨r, hr, hsel⟩ := (exists_selects_iff v).mpr ((exists_decode_iff v).mp ⟨i, h⟩)
  obtain ⟨hrsv, hopc, -⟩ := hasFields_of_decode h
  have hlow := ((selects_iff hr v).mp hsel).1
  exact ⟨r, hr, hsel, mnemonic_of_pattern hr (by omega)⟩

/-- Settles O3: the words that decode accepts and those that some row selects are both the legal words. -/
theorem decodeSelectsOneTableRow : Obligations.DecodeSelectsOneTableRow := by
  refine ⟨opcodeTable_mask, opcodeTable_patterns, fun v => ⟨fun r hr r' hr' => row_eq_of_selects hr hr',
    exists_decode_iff v, (exists_decode_iff v).trans (exists_selects_iff v).symm, fun i h => ?_⟩⟩
  obtain ⟨-, hopc, hlen⟩ := hasFields_of_decode h
  exact ⟨hopc.symm, hlen.symm, exists_row_of_decode h⟩

/-! ### Illegal words (R82) -/

/-- R82: decode rejects a word that is not legal. -/
theorem decode_error_of_illegal {v : Word} (hv : ¬LegalWord v) : ∃ x, decode v = .error x := by
  cases h : decode v with
  | ok i => exact absurd (hasFields_of_decode h).legalWord hv
  | error x => exact ⟨x, rfl⟩

/-- R82, R130: while BUSY = 1 the engine's turn ends a word that does not decode with BAD_CMD. -/
theorem engineTurn_of_undecodable {s : State} {x : DecodeError} (hb : s.busy = true)
    (hd : decode s.cmdPend = .error x) : engineTurn s = .next (complete .badCmd s) := by
  simp [engineTurn, hb, completionStep, hd, finish]

/-- Settles O11: the CMD write is `accept`, and the engine's turn then does the completion updates alone. -/
theorem undecodableWordIsBadCmd : Obligations.UndecodableWordIsBadCmd := by
  intro s v rest hv hb ha
  have hillegal : ¬LegalWord v := by
    rintro ⟨hrsv, hopc, hlen⟩
    rcases hv with h | h | ⟨hnot, h⟩
    · exact h hrsv
    · exact h hopc
    · exact h (hlen hnot)
  obtain ⟨x, hx⟩ := decode_error_of_illegal hillegal
  refine ⟨{ s with cmdPend := v, busy := true, agenda := .engine :: rest, resp := .ack }, _,
    step_of_writeReg ha (by decide) (r := .cmd) rfl (.inl hb), rfl,
    (step_of_engine rfl).trans (engineTurn_of_undecodable rfl hx), complete_endsWith _ _ _ rfl, ?_⟩
  simp [SameConfig, SameKey, SameContext, SameMemory]

end Sys2Proof.Machine
end

section
/-! PROOFS. The family of 40_sha256.md: the SHA-256 function is the one the rules spell out (O30). -/

namespace Sys2Proof.Machine

/-! ### The constants (R87, R88) -/

/-- The condition of RootBits on the root's integer part `c`. -/
abbrev RootBitsAbove (c e p : Nat) (w : Word) : Prop :=
  (c * 2 ^ 32 + w.toNat) ^ e ≤ p * 2 ^ (32 * e) ∧ p * 2 ^ (32 * e) < (c * 2 ^ 32 + w.toNat + 1) ^ e

theorem rootBits_of_lt {e p n : Nat} {w : Word} (h : ∃ c < n, RootBitsAbove c e p w) : RootBits e p w :=
  h.imp fun _ hc => hc.2

/-- R87: the square root of 19, the largest of the 8 primes, is below 5. -/
theorem hashInit_rootBits :
    ∀ i < 8, ∃ c < 5, RootBitsAbove c 2 (firstPrimes.getD i 0) (hashInit.toList.getD i 0#32) := by decide +kernel

/-- R88: the cube root of 311, the largest of the 64 primes, is below 7. -/
theorem roundConstants_rootBits :
    ∀ t < 64, ∃ c < 7, RootBitsAbove c 3 (firstPrimes.getD t 0) (roundConstants.getD t 0#32) := by decide +kernel

theorem roundConstants_length : roundConstants.length = 64 := rfl

/-! ### Padding (R90) -/

/-- R90: padding fills whole blocks. -/
theorem pad_length_mod (m : List Byte) : (pad m).length % 64 = 0 := by
  rw [pad, List.length_append, padTail_length]
  omega

/-- R90: pad(M) in the rule's words, the length in bits fitting 8 bytes. -/
theorem pad_spec {m : List Byte} (h : m.length ≤ Config.shaMaxBytes) :
    ∃ z tail, pad m = m ++ 0x80#8 :: (List.replicate z 0#8 ++ tail) ∧ tail.length = 8 ∧
      os2ip tail = 8 * m.length ∧ (m.length + 1 + z) % 64 = 56 ∧
      (∀ y, (m.length + 1 + y) % 64 = 56 → z ≤ y) ∧ (pad m).length % 64 = 0 := by
  rw [Config.shaMaxBytes] at h
  exact ⟨(119 - m.length % 64) % 64, i2osp (8 * m.length) 8, rfl, i2osp_length _ _, os2ip_i2osp (by omega),
    by omega, fun y hy => by omega, pad_length_mod m⟩

/-! ### The round (R89, R91) -/

theorem bigSigma0_eq (x : Word) : bigSigma0 x = x.rotateRight 2 ^^^ x.rotateRight 13 ^^^ x.rotateRight 22 := by
  simp only [bigSigma0, rotr_eq_rotateRight, Nat.reduceLT]

theorem bigSigma1_eq (x : Word) : bigSigma1 x = x.rotateRight 6 ^^^ x.rotateRight 11 ^^^ x.rotateRight 25 := by
  simp only [bigSigma1, rotr_eq_rotateRight, Nat.reduceLT]

theorem smallSigma0_eq (x : Word) : smallSigma0 x = x.rotateRight 7 ^^^ x.rotateRight 18 ^^^ x >>> 3 := by
  simp only [smallSigma0, rotr_eq_rotateRight, Nat.reduceLT]

theorem smallSigma1_eq (x : Word) : smallSigma1 x = x.rotateRight 17 ^^^ x.rotateRight 19 ^^^ x >>> 10 := by
  simp only [smallSigma1, rotr_eq_rotateRight, Nat.reduceLT]

/-! ### The schedule (R91) -/

theorem schedule_length (b : List Byte) : (schedule b).length = 64 := by
  have hwords : (blockWords 16 b).reverse.length = 16 := by simp [blockWords_length]
  rw [schedule, List.length_reverse, (extendSchedule_spec 48 hwords.ge).1, hwords]

/-- W[t]: the schedule is built newest word first, so W[t] is its entry 63 - t. -/
theorem schedule_getD (b : List Byte) {t : Nat} (h : t < 64) :
    (schedule b).getD t 0#32 = (extendSchedule 48 (blockWords 16 b).reverse).getD (63 - t) 0#32 := by
  have hlen := schedule_length b
  rw [schedule, List.length_reverse] at hlen
  rw [schedule, List.getD_reverse _ (by omega), hlen]

/-- R91: W[0..16) is the block, word by word. -/
theorem schedule_getD_of_lt (b : List Byte) {t : Nat} (h : t < 16) :
    (schedule b).getD t 0#32 = bytesWord ((b.drop (4 * t)).take 4) := by
  have hwords : (blockWords 16 b).length = 16 := blockWords_length 16 b
  obtain ⟨-, hold, -⟩ := extendSchedule_spec 48 (ws := (blockWords 16 b).reverse) (by simp [hwords])
  rw [schedule_getD b (by omega), show 63 - t = 48 + (15 - t) by omega, hold,
    List.getD_reverse _ (by omega), hwords, show 16 - 1 - (15 - t) = t by omega, blockWords_getD b h]

/-- R91: the recurrence of W[16..64). -/
theorem schedule_getD_of_ge (b : List Byte) {t : Nat} (h1 : 16 ≤ t) (h2 : t < 64) :
    (schedule b).getD t 0#32 =
      smallSigma1 ((schedule b).getD (t - 2) 0#32) + (schedule b).getD (t - 7) 0#32 +
        smallSigma0 ((schedule b).getD (t - 15) 0#32) + (schedule b).getD (t - 16) 0#32 := by
  obtain ⟨-, -, hnew⟩ := extendSchedule_spec 48 (ws := (blockWords 16 b).reverse) (by simp [blockWords_length])
  have hrec := hnew (63 - t) (by omega)
  have hback (k : Nat) (hk : k ≤ 16) : (schedule b).getD (t - k) 0#32 =
      (extendSchedule 48 (blockWords 16 b).reverse).getD (63 - t + k) 0#32 := by
    rw [schedule_getD b (by omega), show 63 - (t - k) = 63 - t + k by omega]
  rw [hback 2 (by decide), hback 7 (by decide), hback 15 (by decide), hback 16 (by decide), schedule_getD b h2, hrec]

/-- R91: four bytes fit a word. -/
theorem bytesWord_toNat {bs : List Byte} (h : bs.length ≤ 4) : (bytesWord bs).toNat = os2ip bs := by
  have hfits : 256 ^ bs.length ≤ 256 ^ 4 := Nat.pow_le_pow_right (by decide) h
  exact Nat.mod_eq_of_lt ((os2ip_lt bs).trans_le hfits)

/-! ### The compression (R91) -/

/-- The words a to h after the first `t` rounds on a block. -/
def afterRounds (h : HashWords) (b : List Byte) (t : Nat) : HashWords :=
  ((roundConstants.zip (schedule b)).take t).foldl shaRound h

theorem afterRounds_succ (h : HashWords) (b : List Byte) {t : Nat} (ht : t < 64) :
    afterRounds h b (t + 1) =
      shaRound (afterRounds h b t) (roundConstants.getD t 0#32, (schedule b).getD t 0#32) := by
  have hk : t < roundConstants.length := ht
  have hw : t < (schedule b).length := by rwa [schedule_length]
  have hzip : t < (roundConstants.zip (schedule b)).length := by rw [List.length_zip]; omega
  rw [afterRounds, List.take_add_one, List.getElem?_eq_getElem hzip, List.getElem_zip, List.getD_eq_getElem _ _ hk,
    List.getD_eq_getElem _ _ hw, Option.toList_some, List.foldl_append]
  rfl

/-- R91: `compress` is 64 rounds and the word-wise sum with the input. -/
theorem compress_eq (h : HashWords) (b : List Byte) : compress h b = addHash h (afterRounds h b 64) := by
  rw [compress, afterRounds, List.take_of_length_le]
  rw [List.length_zip, schedule_length, roundConstants_length, Nat.min_self]

/-! ### The digest (R92) -/

/-- The chaining words after the first `j` blocks of a string. -/
def afterBlocks (bs : List Byte) (j : Nat) : HashWords := (absorb hashInit (bs.take (64 * j))).1

theorem afterBlocks_zero (bs : List Byte) : afterBlocks bs 0 = hashInit := by
  rw [afterBlocks, Nat.mul_zero, List.take_zero, absorb_short (by decide)]

theorem afterBlocks_succ {bs : List Byte} {j : Nat} (h : j < bs.length / 64) :
    afterBlocks bs (j + 1) = compress (afterBlocks bs j) ((bs.drop (64 * j)).take 64) := by
  have hdone : (absorb hashInit (bs.take (64 * j))).2 = [] := by
    rw [← List.length_eq_zero_iff, absorb_rest_length, List.length_take]
    omega
  have hblock : ((bs.drop (64 * j)).take 64).length = 64 := by
    rw [List.length_take, List.length_drop]
    omega
  rw [afterBlocks, afterBlocks, Nat.mul_succ, List.take_add, absorb_append, hdone, List.nil_append,
    absorb_long hblock.ge, List.take_of_length_le hblock.le, absorb_short (by rw [List.length_drop]; omega)]

/-- A word's four bytes are its big-endian integer string (R92). -/
theorem wordBytes_eq_i2osp (v : Word) : wordBytes v = i2osp v.toNat 4 := by
  have hval : (bytesWord (wordBytes v)).toNat = os2ip (wordBytes v) := bytesWord_toNat (by simp)
  rw [bytesWord_wordBytes] at hval
  rw [hval]
  exact (i2osp_os2ip (wordBytes v)).symm

theorem hashBytes_eq (h : HashWords) : hashBytes h = h.toList.flatMap fun x => i2osp x.toNat 4 := by
  simp [hashBytes, HashWords.toList, wordBytes_eq_i2osp]

/-- R92: the digest is what compressing every block of pad(M) leaves. -/
theorem sha256_eq (m : List Byte) :
    sha256 m = (afterBlocks (pad m) ((pad m).length / 64)).toList.flatMap fun x => i2osp x.toNat 4 := by
  have hpad := pad_length_mod m
  rw [sha256, hashBytes_eq, afterBlocks, List.take_of_length_le (by omega)]

/-- Settles O30: the constants by their roots, then each clause by the lemma above for its part of the hash. -/
theorem sha256FollowsItsRules : Obligations.Sha256FollowsItsRules := by
  refine ⟨⟨rfl, fun i hi => rootBits_of_lt (hashInit_rootBits i hi)⟩,
    ⟨roundConstants_length, fun t ht => rootBits_of_lt (roundConstants_rootBits t ht)⟩, fun m hm => pad_spec hm,
    fun v k w => ?_, fun h b _ => ?_, fun m => ?_⟩
  · rw [← bigSigma1_eq, ← bigSigma0_eq]
    rfl
  · refine ⟨fun t => (schedule b).getD t 0#32, afterRounds h b, fun t ht => ?_, fun t h1 h2 => ?_, rfl,
      fun t ht => afterRounds_succ h b ht, compress_eq h b⟩
    · exact (congrArg BitVec.toNat (schedule_getD_of_lt b ht)).trans (bytesWord_toNat (List.length_take_le _ _))
    · rw [← smallSigma1_eq, ← smallSigma0_eq]
      exact schedule_getD_of_ge b h1 h2
  · exact ⟨afterBlocks (pad m), afterBlocks_zero _, fun j hj => afterBlocks_succ hj, sha256_eq m⟩

end Sys2Proof.Machine
end

section
/-! PROOFS. The family of 40_sha256.md: the SHA commands absorb a message and write its digest (O31 to O34). -/

namespace Sys2Proof.Machine

/-! ### The message a context stands for (R94 to R97) -/

/-- R95: a context just started stands for the empty message. -/
theorem absorbed_startContext (s : State) : Absorbed [] (startContext s) := ⟨rfl, absorb_short (by decide), rfl⟩

/-- R96: absorbing more bytes puts them at the end of the message, within the length limit. -/
theorem absorbed_absorbMessage {m bs : List Byte} {s : State} (h : Absorbed m s)
    (hl : s.total.toNat + bs.length ≤ Config.shaMaxBytes) : Absorbed (m ++ bs) (absorbMessage bs s) := by
  obtain ⟨hactive, habsorb, htotal⟩ := h
  refine ⟨hactive, ?_, ?_⟩
  · rw [absorb_append, habsorb]
    rfl
  · rw [Config.shaMaxBytes] at hl
    rw [absorbMessage_total, BitVec.toNat_add, BitVec.toNat_ofNat, List.length_append]
    omega

/-- R92, R97: what SHA_FINAL computes from the context is the digest of the whole message. -/
theorem Absorbed.finalDigest_eq {m : List Byte} {s : State} (h : Absorbed m s) : finalDigest s = sha256 m := by
  obtain ⟨-, habsorb, htotal⟩ := h
  rw [finalDigest, finalBlocks, sha256, pad, absorb_append hashInit, habsorb, htotal]

theorem finalDigest_length (s : State) : (finalDigest s).length = 32 := hashBytes_length _

/-! ### The commands where their checks pass (R96, R97) -/

/-- The state in which SHA_UPDATE with L bytes completes without error. -/
def afterUpdate (len : Nat) (s : State) : State := complete .none (absorbMessage (bufBytes s .msg len) s)

/-- The state in which SHA_FINAL completes without error, with the digest `d`. -/
def afterFinal (d : List Byte) (s : State) : State := complete .none (closeContext (putBuf .digest d s))

theorem exec_shaUpdate_of_active {s : State} {len : Nat} (hl : len ≤ Config.msgBufBytes) (ha : s.shaState = .active)
    (ht : s.total.toNat + len ≤ Config.shaMaxBytes) : exec (.shaUpdate len) s = .next (afterUpdate len s) := by
  simp [exec, execShaUpdate, Nat.not_lt.mpr hl, Nat.not_lt.mpr ht, ha, finish, afterUpdate]

theorem exec_shaFinal_of_active {s : State} (ha : s.shaState = .active) :
    exec .shaFinal s = .next (afterFinal (finalDigest s) s) := by
  simp [exec, execShaFinal, ha, finish, afterFinal]

/-- R96: the context after SHA_UPDATE stands for the message with MSG_BUF[0..L) at its end. -/
theorem absorbed_afterUpdate {m : List Byte} {s : State} {len : Nat} (h : Absorbed m s)
    (ht : s.total.toNat + len ≤ Config.shaMaxBytes) : Absorbed (m ++ bufBytes s .msg len) (afterUpdate len s) :=
  absorbed_absorbMessage h (by rwa [bufBytes, Memory.readBytes_length])

theorem bufBytes_afterFinal {s : State} (hm : Memory.wf s.mem) (d : List Byte) :
    bufBytes (afterFinal d s) .digest d.length = d := bufBytes_putBuf_same hm .digest d

/-- R97: SHA_FINAL writes no byte but those of the digest. -/
theorem afterFinal_frame (d : List Byte) (s : State) :
    EndsWith .none s (afterFinal d s) ∧ (afterFinal d s).shaState = .final ∧ (afterFinal d s).total = s.total ∧
      SameOutside s (afterFinal d s) 0x200 d.length ∧ SameConfig s (afterFinal d s) ∧ SameKey s (afterFinal d s) ∧
      SameHost s (afterFinal d s) ∧ (afterFinal d s).result = s.result :=
  ⟨complete_endsWith _ _ _ rfl, rfl, rfl, putBuf_sameOutside .digest d s, ⟨rfl, rfl, rfl, rfl⟩, ⟨rfl, rfl⟩,
    ⟨rfl, rfl⟩, rfl⟩

/-- R97: after SHA_FINAL, DIGEST_BUF holds the digest of the message absorbed. -/
theorem Absorbed.digest_afterFinal {m : List Byte} {s : State} (h : Absorbed m s) (hm : Memory.wf s.mem) :
    bufBytes (afterFinal (finalDigest s) s) .digest 32 = sha256 m := by
  have hback := bufBytes_afterFinal hm (finalDigest s)
  rw [finalDigest_length] at hback
  exact hback.trans h.finalDigest_eq

/-! ### SHA_INIT, SHA_UPDATE and SHA_FINAL (R95 to R97) -/

/-- Settles O31: SHA_INIT has no check; what it does is `startContext` and the completion without error. -/
theorem shaInitStartsContext : Obligations.ShaInitStartsContext := by
  intro s
  refine ⟨complete .none (startContext s), rfl, complete_endsWith _ _ _ rfl, absorbed_startContext s, ?_⟩
  simp [hashInit, SameConfig, SameKey, SameHost, SameMemory]

/-- Settles O32: SHA_UPDATE passes its checks, and `absorbMessage` is the rule's loop on BLK and MSG_BUF[0..L). -/
theorem shaUpdateAbsorbs : Obligations.ShaUpdateAbsorbs := by
  intro s len hl ha ht
  obtain ⟨htotal, hblk⟩ := absorbMessage_counts (s := s) hl ht
  refine ⟨afterUpdate len s, exec_shaUpdate_of_active hl ha ht, complete_endsWith _ _ _ rfl, rfl, ?_, htotal, ha,
    fun m hm => absorbed_afterUpdate hm ht, ?_⟩
  · exact hblk.trans_lt (Nat.mod_lt _ (by decide))
  · simp [afterUpdate, SameConfig, SameKey, SameHost, SameMemory]

/-- Settles O33: SHA_FINAL passes its check, writes 32 bytes of DIGEST_BUF and closes the context. -/
theorem shaFinalWritesDigest : Obligations.ShaFinalWritesDigest := by
  intro s hm ha
  obtain ⟨hends, hstate, htotal, hout, hrest⟩ := afterFinal_frame (finalDigest s) s
  rw [finalDigest_length] at hout
  exact ⟨_, exec_shaFinal_of_active ha, hends, hstate, htotal, fun m h => h.digest_afterFinal hm, hout, hrest⟩

/-! ### A message in parts (R94) -/

/-- Feeding parts that fit MSG_BUF, within the length limit, absorbs them all in order. -/
theorem feedParts_absorbs {parts : List (List Byte)} {m : List Byte} {s : State} (hm : Memory.wf s.mem)
    (hs : Absorbed m s) (hp : ∀ p ∈ parts, p.length ≤ Config.msgBufBytes)
    (hl : m.length + parts.flatten.length ≤ Config.shaMaxBytes) :
    ∃ t, feedParts parts s = .next t ∧ Absorbed (m ++ parts.flatten) t ∧ Memory.wf t.mem := by
  induction parts generalizing m s with
  | nil => exact ⟨s, rfl, by simpa using hs, hm⟩
  | cons p rest ih =>
    obtain ⟨hpart, hrest⟩ := List.forall_mem_cons.mp hp
    obtain ⟨hactive, -, htotal⟩ := id hs
    rw [List.flatten_cons, List.length_append] at hl
    have hput : Absorbed m (putBuf .msg p s) := hs
    have hfits : (putBuf .msg p s).total.toNat + p.length ≤ Config.shaMaxBytes := by
      rw [putBuf_total, htotal]
      omega
    have hnext := absorbed_afterUpdate hput hfits
    rw [bufBytes_putBuf_same hm] at hnext
    obtain ⟨t, hfeed, habsorbed, hwf⟩ := ih (Memory.wf_writeBytes _ p hm) hnext hrest
      (by rw [List.length_append]; omega)
    refine ⟨t, ?_, by rwa [List.flatten_cons, ← List.append_assoc], hwf⟩
    rw [feedParts, exec_shaUpdate_of_active (s := putBuf .msg p s) hpart hactive hfits]
    exact hfeed

/-- Settles O34: the context started by SHA_INIT stands for the empty message, each part is absorbed at its end, and
SHA_FINAL writes the digest of the whole. -/
theorem incrementalDigest : Obligations.IncrementalDigest := by
  intro s parts hm hp hl
  have hstart : Absorbed [] (complete .none (startContext s)) := absorbed_startContext s
  obtain ⟨s2, hfeed, habsorbed, hwf⟩ := feedParts_absorbs (s := complete .none (startContext s)) hm hstart hp
    (by rwa [List.length_nil, Nat.zero_add])
  obtain ⟨hactive, -, -⟩ := id habsorbed
  exact ⟨_, s2, _, rfl, hfeed, exec_shaFinal_of_active hactive, rfl, habsorbed.digest_afterFinal hwf⟩

end Sys2Proof.Machine
end

section
/-! PROOFS. The family of 40_sha256.md: outside ACTIVE no step reads Hc and BLK (O58). -/

namespace Sys2Proof.Machine

/-! ### A closed context (R97, I14) -/

/-- The state with other values of Hc and BLK. -/
def withChain (hc : HashWords) (blk : List Byte) (s : State) : State := { s with hc := hc, blk := blk }

/-- `t'` is `t` but for Hc and BLK, and `t` itself in ACTIVE: what other values of a closed context may lead to. -/
def SameButClosedContext (t t' : State) : Prop :=
  ∃ hc blk, t' = withChain hc blk t ∧ (t.shaState = .active → hc = t.hc ∧ blk = t.blk)

/-- Outside ACTIVE, Hc and BLK may be anything. -/
theorem SameButClosedContext.of_closed {t : State} (hc : HashWords) (blk : List Byte) (h : t.shaState ≠ .active) :
    SameButClosedContext t (withChain hc blk t) := ⟨hc, blk, rfl, fun ha => absurd ha h⟩

theorem SameButClosedContext.refl (t : State) : SameButClosedContext t t := ⟨t.hc, t.blk, rfl, fun _ => ⟨rfl, rfl⟩⟩

/-- The host's answer has no part in it. -/
theorem SameButClosedContext.setResp {t t' : State} (h : SameButClosedContext t t') (r : Response) :
    SameButClosedContext { t with resp := r } { t' with resp := r } := by
  obtain ⟨hc, blk, rfl, hactive⟩ := h
  exact ⟨hc, blk, rfl, hactive⟩

/-! ### The commands outside ACTIVE (R95 to R97) -/

/-- R96: outside ACTIVE, SHA_UPDATE ends with an error and absorbs nothing. -/
theorem exec_shaUpdate_of_closed (len : Nat) {s : State} (hx : s.shaState ≠ .active) :
    exec (.shaUpdate len) s = if len > Config.msgBufBytes then finish .len s else finish .misuse s := by
  simp [exec, execShaUpdate, hx]

/-- R97: outside ACTIVE, SHA_FINAL is MISUSE. -/
theorem exec_shaFinal_of_closed {s : State} (hx : s.shaState ≠ .active) : exec .shaFinal s = finish .misuse s :=
  if_pos hx

/-- R95: only SHA_INIT opens a context. -/
theorem exec_not_active {i : Instr} {s t : State} (hi : i ≠ .shaInit) (hx : s.shaState ≠ .active)
    (h : exec i s = .next t) : t.shaState ≠ .active := by
  obtain ⟨e, u, rfl, he⟩ := exec_effect h
  rcases he.shaState_writers with hsame | rfl | rfl | rfl
  · rwa [complete_shaState, hsame]
  · exact absurd rfl hi
  · cases he with
    | finalError => exact hx
    | final ha => exact absurd ha hx
  · cases he
    rw [complete_shaState, eraseAll_shaState]
    decide

/-! ### The host's transactions -/

section
variable (hc : HashWords) (blk : List Byte)

theorem readValue_withChain (s : State) (off : Nat) : readValue (withChain hc blk s) off = readValue s off := by
  unfold readValue
  split
  · next r _ => cases r <;> rfl
  · rfl

/-- R21: the reset sets Hc and BLK; no other write reads or sets them. -/
theorem writeEffect_withChain (off : Nat) (x : Word) {s : State} (hx : s.shaState ≠ .active) :
    SameButClosedContext (writeEffect off x s) (writeEffect off x (withChain hc blk s)) := by
  have closed {t : State} (h : t.shaState = s.shaState) : SameButClosedContext t (withChain hc blk t) :=
    .of_closed hc blk (h ▸ hx)
  have hbusy : (withChain hc blk s).busy = s.busy := rfl
  simp only [writeEffect, hbusy]
  split
  · exact closed (dropWrite_shaState s)
  · split
    · next r _ =>
      cases r with
      | ctrl =>
        simp only [writeReg]
        split
        · exact .refl (resetEngine s)
        · exact closed rfl
      | id | version | cmd | status | intStatus | intEn | slen | nLen | expLen | modBits | emLen | shaLenLo | shaLenHi
      | params => exact closed rfl
    · unfold writeBufWord
      split <;> exact closed rfl

theorem busAccess_withChain (acc : Access) {s : State} (hx : s.shaState ≠ .active) :
    SameButClosedContext (busAccess acc s) (busAccess acc (withChain hc blk s)) := by
  have answered (r : Response) : SameButClosedContext { s with resp := r } { withChain hc blk s with resp := r } :=
    (SameButClosedContext.of_closed hc blk hx).setResp r
  cases acc with
  | read tgt width =>
    unfold busAccess
    dsimp only
    split
    · rw [busRead, busRead, readValue_withChain]
      exact answered _
    · exact answered _
  | write tgt width strobes x =>
    unfold busAccess
    dsimp only
    split
    · unfold busWrite
      split
      · exact answered _
      · exact (writeEffect_withChain hc blk _ x hx).setResp _
    · exact answered _

/-! ### The commands -/

/-- R54, R95 to R97, R126: a command outside ACTIVE does not read Hc and BLK, and one that sets them sets both. -/
theorem exec_withChain (i : Instr) {s t : State} (hx : s.shaState ≠ .active) (h : exec i s = .next t) :
    ∃ t', exec i (withChain hc blk s) = .next t' ∧ SameButClosedContext t t' := by
  have kept (hi : i ≠ .shaInit) (hrun : SameRun (withChain hc blk) (exec i s) (exec i (withChain hc blk s))) :
      ∃ t', exec i (withChain hc blk s) = .next t' ∧ SameButClosedContext t t' := by
    obtain ⟨e, u, hs, hrun⟩ := hrun
    obtain rfl := finish_next (hs.symm.trans h)
    exact ⟨_, hrun, .of_closed hc blk (exec_not_active hi hx h)⟩
  have internal (hi : (∃ len, i = .mgf1 len ∨ i = .verify len) ∨ i = .pssEncode ∨ i = .pssVerify ∨ i = .sign) :
      ∃ t', exec i (withChain hc blk s) = .next t' ∧ SameButClosedContext t t' := by
    obtain ⟨⟨hstate, -, -, htotal⟩, hrun⟩ :=
      internalHashingLeavesHostContext s t i hc blk s.total s.shaState hi h
    have hchain : withContext hc blk s.total s.shaState t = withChain hc blk t := by
      rw [← htotal, ← hstate]
      rfl
    exact ⟨_, hrun.trans (congrArg _ hchain), .of_closed hc blk (hstate ▸ hx)⟩
  cases i with
  | mgf1 len => exact internal (.inl ⟨len, .inl rfl⟩)
  | verify len => exact internal (.inl ⟨len, .inr rfl⟩)
  | pssEncode => exact internal (.inr (.inl rfl))
  | pssVerify => exact internal (.inr (.inr (.inl rfl)))
  | sign => exact internal (.inr (.inr (.inr rfl)))
  | shaInit | zeroize => exact ⟨t, h, .refl t⟩
  | nop => exact kept (by decide) (.finish _ s)
  | shaUpdate len =>
    refine kept (by simp) ?_
    rw [exec_shaUpdate_of_closed len hx, exec_shaUpdate_of_closed (s := withChain hc blk s) len hx]
    exact .ite (.finish _ s) (.finish _ s)
  | shaFinal =>
    refine kept (by decide) ?_
    rw [exec_shaFinal_of_closed hx, exec_shaFinal_of_closed (s := withChain hc blk s) hx]
    exact .finish _ s
  | keyLoad =>
    exact kept (by decide) (.ite (.finish _ (dropKey s)) (.ite (.finish _ (dropKey s)) (.ite (.finish _ (dropKey s))
      (.finish _ (latchKey s)))))
  | modexp =>
    have hexp : exponentError (withChain hc blk s) = exponentError s := rfl
    refine kept (by decide) ?_
    simp only [exec, execModexp, hexp]
    split
    · exact .finish _ s
    · exact .ite (.finish _ s) (.finish _ (putPower s))
  | cmp len =>
    exact kept (by simp) (.ite (.finish _ (setResult false s))
      (.finish _ (setResult (ctEq (bufBytes s .a len) (bufBytes s .r len) len) s)))

/-! ### The step -/

theorem runEvent_withChain (ev : Event) {s t : State} (hx : s.shaState ≠ .active) (h : runEvent ev s = .next t) :
    ∃ t', runEvent ev (withChain hc blk s) = .next t' ∧ SameButClosedContext t t' := by
  cases ev with
  | bus acc =>
    cases h
    exact ⟨_, rfl, busAccess_withChain hc blk acc hx⟩
  | hwReset => exact ⟨t, h, .refl t⟩
  | engine =>
    cases hb : s.busy with
    | false =>
      rw [runEvent, engineTurn_of_idle hb] at h
      cases h
      exact ⟨_, engineTurn_of_idle hb, .of_closed hc blk hx⟩
    | true =>
      cases hd : decode s.cmdPend with
      | ok i =>
        rw [runEvent, engineTurn_of_pending hb hd] at h
        obtain ⟨t', hrun, hsame⟩ := exec_withChain hc blk i hx h
        exact ⟨t', (engineTurn_of_pending (s := withChain hc blk s) hb hd).trans hrun, hsame⟩
      | error x =>
        rw [runEvent, engineTurn_of_undecodable hb hd] at h
        cases h
        exact ⟨_, engineTurn_of_undecodable (s := withChain hc blk s) hb hd, .of_closed hc blk hx⟩

end

/-- Settles O58: both steps are one event, from states that are the same but for a closed Hc and BLK. -/
theorem closedContextIsNotRead : Obligations.ClosedContextIsNotRead := by
  intro s t hc blk hx h
  rw [step_eq_headEvent] at h
  obtain ⟨t', hstep, hc', blk', rfl, hactive⟩ :=
    runEvent_withChain hc blk _ (s := { s with agenda := s.agenda.tail }) hx h
  exact ⟨hc', blk', (step_eq_headEvent _).trans hstep, hactive⟩

end Sys2Proof.Machine
end

section
/-! PROOFS. The family of 41_pss.md: the mask byte by byte (O35), and PSS_CHECK accepts exactly the encodings (O39). -/

namespace Sys2Proof.Machine

/-! ### MGF1 byte by byte (R100) -/

/-- Blocks of `L` bytes joined: byte `j` is byte `j mod L` of block `j / L`. -/
theorem getElem?_flatMap_range {f : Nat → List Byte} {L n j : Nat} (hf : ∀ c, (f c).length = L) (h : j < n * L) :
    ((List.range n).flatMap f)[j]? = (f (j / L))[j % L]? := by
  induction n with
  | zero => omega
  | succ n ih =>
    have hblocks : ((List.range n).flatMap f).length = n * L := by simp [List.length_flatMap, hf]
    rw [List.range_succ, List.flatMap_append, List.flatMap_singleton]
    by_cases hj : j < n * L
    · rw [List.getElem?_append_left (by rwa [hblocks]), ih hj]
    · rw [Nat.succ_mul] at h
      have hdiv : j / L = n := Nat.div_eq_of_lt_le (by omega) (by rw [Nat.succ_mul]; omega)
      have hmod : j % L = j - n * L := by rw [Nat.mod_eq_sub_div_mul, hdiv]
      rw [List.getElem?_append_right (by omega), hblocks, hdiv, hmod]

/-- Settles O35: a mask is digests of 32 bytes joined and cut to L bytes. -/
theorem maskIsHashOfCounter : Obligations.MaskIsHashOfCounter := by
  intro seed len _
  refine ⟨mgf1_length seed len, fun j hj => ?_⟩
  rw [mgf1, List.getElem?_take_of_lt hj, getElem?_flatMap_range (fun _ => sha256_length _) (by omega)]

/-! ### The length check (R103) -/

theorem saltTooLong_eq_false_iff {modBits saltLen : Nat} :
    saltTooLong modBits saltLen = false ↔ 34 + saltLen ≤ emLen modBits := by
  rw [saltTooLong, decide_eq_false_iff_not, Config.hLen]
  omega

theorem saltTooLong_eq_true_iff {modBits saltLen : Nat} :
    saltTooLong modBits saltLen = true ↔ emLen modBits < 34 + saltLen := by
  rw [← Bool.not_eq_false, saltTooLong_eq_false_iff, Nat.not_le]

/-! ### Strings byte by byte -/

theorem xorBytes_getD {x y : List Byte} (h : x.length = y.length) (j : Nat) :
    (xorBytes x y).getD j 0#8 = x.getD j 0#8 ^^^ y.getD j 0#8 := by
  by_cases hj : j < x.length
  · simp [xorBytes, hj, h ▸ hj]
  · have hx : x.length ≤ j := by omega
    simp [xorBytes, hx, h ▸ hx]

theorem clearTop_getD (zb : Nat) (bs : List Byte) (j : Nat) :
    (clearTop zb bs).getD j 0#8 = bs.getD j 0#8 &&& (if j = 0 then topMask zb else 0xFF#8) := by
  have hones (b : Byte) : b &&& 0xFF#8 = b := BitVec.and_allOnes
  cases bs with
  | nil => simp [clearTop]
  | cons b bs => cases j <;> simp [clearTop, hones]

/-! ### PSS_ENC (R102, R104) -/

/-- R104 steps 5 and 6: `db` masked with MGF1(h, emLen - 33), the top bits cleared. It unmasks too (R106). -/
def maskDb (modBits : Nat) (h db : List Byte) : List Byte :=
  clearTop (zeroBits modBits) (xorBytes db (mgf1 h (emLen modBits - 33)))

/-- R104: PSS_ENC in its three parts. -/
theorem pssEnc_eq (mHash : List Byte) (modBits : Nat) (salt : List Byte) :
    pssEnc mHash modBits salt =
      maskDb modBits (sha256 (mPrime mHash salt)) (pssDb modBits salt) ++ sha256 (mPrime mHash salt) ++ [0xBC#8] := by
  simp only [pssEnc, maskDb, Config.hLen, Nat.sub_sub, Nat.reduceAdd]

theorem maskDb_length {modBits : Nat} {db : List Byte} (h : List Byte) (hdb : db.length = emLen modBits - 33) :
    (maskDb modBits h db).length = emLen modBits - 33 := by
  rw [maskDb, clearTop_length, xorBytes_length, mgf1_length, hdb, Nat.min_self]

theorem maskDb_getD {modBits : Nat} {db : List Byte} (h : List Byte) (hdb : db.length = emLen modBits - 33) (j : Nat) :
    (maskDb modBits h db).getD j 0#8 = (db.getD j 0#8 ^^^ (mgf1 h (emLen modBits - 33)).getD j 0#8) &&&
      (if j = 0 then topMask (zeroBits modBits) else 0xFF#8) := by
  rw [maskDb, clearTop_getD, xorBytes_getD (by rw [hdb, mgf1_length])]

/-- R104, R106: unmasking undoes masking. A string with its top bits clear unmasks to a DB exactly when it is that DB
masked. -/
theorem maskDb_eq_pssDb_iff {modBits : Nat} {m salt : List Byte} (h : List Byte) (hm : m.length = emLen modBits - 33)
    (hs : 34 + salt.length ≤ emLen modBits) :
    (m.getD 0 0#8 &&& ~~~(topMask (zeroBits modBits)) = 0#8 ∧ maskDb modBits h m = pssDb modBits salt) ↔
      m = maskDb modBits h (pssDb modBits salt) := by
  constructor
  · rintro ⟨hclear, hdb⟩
    rw [← hdb, maskDb, maskDb, clearTop_xor_clearTop _ (by rw [hm, mgf1_length]), clearTop_of_clear hclear]
  · rintro rfl
    have hlen := pssDb_length (saltTooLong_eq_false_iff.mpr hs)
    refine ⟨clearTop_clear _ _, ?_⟩
    rw [maskDb, maskDb, clearTop_xor_clearTop _ (by rw [hlen, mgf1_length]), clearTop_pssDb]

/-! ### PSS_CHECK (R106) -/

/-- R116: CT_EQ compares the first L bytes. -/
theorem ctEq_iff {x y : List Byte} {len : Nat} (hx : len ≤ x.length) (hy : len ≤ y.length) :
    ctEq x y len = true ↔ x.take len = y.take len := by
  have hlen : (x.take len).length = (y.take len).length := by simp [hx, hy]
  rw [ctEq, beq_iff_eq, or_foldl_eq_zero, xorBytes_eq_zero hlen]
  simp

/-- R106: the tests on a string say that it is R104's DB of the salt behind its separator; psLen is the length of PS. -/
theorem eq_pssDb_iff {modBits psLen : Nat} {db salt : List Byte} (hps : psLen + 34 + salt.length = emLen modBits)
    (hdb : psLen < db.length) :
    db = pssDb modBits salt ↔
      allZero (db.take psLen) = true ∧ db.getD psLen 0#8 = 0x01#8 ∧ db.drop (psLen + 1) = salt := by
  have hform : pssDb modBits salt = zeroBytes psLen ++ 0x01#8 :: salt := by
    rw [pssDb, Config.hLen, show emLen modBits - salt.length - 32 - 2 = psLen by omega]
  rw [hform, allZero_iff, List.length_take_of_le hdb.le]
  constructor
  · rintro rfl
    have hdrop : (zeroBytes psLen ++ 0x01#8 :: salt).drop (psLen + 1) = salt := by
      rw [← List.drop_drop, List.drop_left' (zeroBytes_length _), List.drop_one, List.tail_cons]
    exact ⟨List.take_left' (zeroBytes_length _), by simp [zeroBytes], hdrop⟩
  · rintro ⟨hzero, hone, hsalt⟩
    rw [List.getD_eq_getElem _ _ hdb] at hone
    rw [← hzero, ← hone, ← hsalt, List.getElem_cons_drop, List.take_append_drop]

/-- R106: the parts of X. -/
def emString (lead m h : List Byte) (b : Byte) : List Byte := lead ++ (m ++ h ++ [b])

theorem exists_append_of_le_length {x : List Byte} {n : Nat} (h : n ≤ x.length) :
    ∃ front rest, x = front ++ rest ∧ front.length = n :=
  ⟨x.take n, x.drop n, (List.take_append_drop n x).symm, List.length_take_of_le h⟩

/-- R106: any string of at least emLen bytes has such parts. -/
theorem exists_emString {x : List Byte} {eml : Nat} (h33 : 33 ≤ eml) (hx : eml ≤ x.length) :
    ∃ lead m h b, x = emString lead m h b ∧ lead.length = x.length - eml ∧ m.length = eml - 33 ∧ h.length = 32 := by
  obtain ⟨lead, em, hlead, hleadlen⟩ := exists_append_of_le_length (Nat.sub_le x.length eml)
  have hem : em.length = eml := by
    have hlen := congrArg List.length hlead
    rw [List.length_append] at hlen
    omega
  obtain ⟨m, tail, rfl, hm⟩ := exists_append_of_le_length (x := em) (n := eml - 33) (by omega)
  rw [List.length_append] at hem
  obtain ⟨h, last, rfl, hh⟩ := exists_append_of_le_length (x := tail) (n := 32) (by omega)
  rw [List.length_append] at hem
  obtain ⟨b, rfl⟩ := List.length_eq_one_iff.mp (show last.length = 1 by omega)
  exact ⟨lead, m, h, b, by rw [emString, List.append_assoc, hlead], hleadlen, hm, hh⟩

theorem emString_inj {lead lead' m m' h h' : List Byte} {b b' : Byte} (hl : lead.length = lead'.length)
    (hm : m.length = m'.length) :
    emString lead m h b = emString lead' m' h' b' ↔ lead = lead' ∧ m = m' ∧ h = h' ∧ b = b' := by
  constructor
  · intro heq
    obtain ⟨hlead, hem⟩ := List.append_inj heq hl
    obtain ⟨hmh, hb⟩ := List.append_inj' hem rfl
    obtain ⟨hm, hh⟩ := List.append_inj hmh hm
    exact ⟨hlead, hm, hh, List.singleton_inj.mp hb⟩
  · rintro ⟨rfl, rfl, rfl, rfl⟩
    rfl

/-- R106: PSS_CHECK tests the parts of X; psLen is the length of PS. -/
theorem pssCheck_emString (mHash lead : List Byte) {m h : List Byte} (b : Byte) {modBits saltLen psLen : Nat}
    (hps : psLen + 34 + saltLen = emLen modBits) (hm : m.length = emLen modBits - 33) (hh : h.length = 32) :
    pssCheck mHash modBits saltLen (emString lead m h b) =
      (allZero lead && b == 0xBC#8 && m.getD 0 0#8 &&& ~~~(topMask (zeroBits modBits)) == 0#8 &&
        allZero ((maskDb modBits h m).take psLen) && (maskDb modBits h m).getD psLen 0#8 == 0x01#8 &&
        ctEq h (sha256 (mPrime mHash ((maskDb modBits h m).drop (psLen + 1)))) 32) := by
  have hfits : saltTooLong modBits saltLen = false := saltTooLong_eq_false_iff.mpr (by omega)
  have hlead : (emString lead m h b).length - emLen modBits = lead.length := by
    simp only [emString, List.length_append, List.length_singleton]
    omega
  have htake : (emString lead m h b).take lead.length = lead := List.take_left
  have hdrop : (emString lead m h b).drop lead.length = m ++ (h ++ [b]) := by
    rw [emString, List.drop_left, List.append_assoc]
  have hb : (m ++ (h ++ [b])).getD (emLen modBits - 1) 0#8 = b := by
    rw [show emLen modBits - 1 = m.length + h.length by omega]
    simp
  have hmask : clearTop (zeroBits modBits) (xorBytes m (mgf1 h (emLen modBits - 33))) = maskDb modBits h m := rfl
  have hsalt : ((maskDb modBits h m).drop (psLen + 1)).take saltLen = (maskDb modBits h m).drop (psLen + 1) :=
    List.take_of_length_le (by rw [List.length_drop, maskDb_length h hm]; omega)
  simp only [pssCheck, hfits, Bool.false_eq_true, if_false, Config.hLen, hlead, htake, hdrop, hb, Nat.sub_sub _ 32 1,
    Nat.reduceAdd, List.take_left' hm, List.drop_left' hm, List.take_left' hh, hmask,
    show emLen modBits - 32 - saltLen - 2 = psLen by omega, hsalt]

/-- R104, R106: a string is a padded encoding exactly when its parts are those of the encoding. -/
theorem emString_eq_encoding_iff {mHash lead m h salt : List Byte} {b : Byte} {modBits : Nat}
    (hs : 34 + salt.length ≤ emLen modBits) (hm : m.length = emLen modBits - 33) :
    emString lead m h b = zeroBytes lead.length ++ pssEnc mHash modBits salt ↔
      lead = zeroBytes lead.length ∧ m = maskDb modBits h (pssDb modBits salt) ∧ h = sha256 (mPrime mHash salt) ∧
        b = 0xBC#8 := by
  have hmask := maskDb_length (sha256 (mPrime mHash salt)) (pssDb_length (saltTooLong_eq_false_iff.mpr hs))
  have hparts := emString_inj (lead := lead) (h := h) (b := b) (h' := sha256 (mPrime mHash salt)) (b' := 0xBC#8)
    (zeroBytes_length lead.length).symm (hm.trans hmask.symm)
  rw [pssEnc_eq, ← emString, hparts]
  constructor
  · rintro ⟨hlead, hm', rfl, hb⟩
    exact ⟨hlead, hm', rfl, hb⟩
  · rintro ⟨hlead, hm', rfl, hb⟩
    exact ⟨hlead, hm', rfl, hb⟩

/-- R106: PSS_CHECK accepts a string exactly when it is the padded encoding of a salt of the right length. The salt is
what stands behind the separator of the unmasked DB. -/
theorem pssCheck_emString_iff {mHash lead m h : List Byte} {b : Byte} {modBits saltLen : Nat}
    (hs : 34 + saltLen ≤ emLen modBits) (hm : m.length = emLen modBits - 33) (hh : h.length = 32) :
    pssCheck mHash modBits saltLen (emString lead m h b) = true ↔
      ∃ salt : List Byte, salt.length = saltLen ∧
        emString lead m h b = zeroBytes lead.length ++ pssEnc mHash modBits salt := by
  obtain ⟨psLen, hps⟩ : ∃ psLen, psLen + 34 + saltLen = emLen modBits := ⟨emLen modBits - 34 - saltLen, by omega⟩
  have hdb : (maskDb modBits h m).length = emLen modBits - 33 := maskDb_length h hm
  have hct (salt : List Byte) : ctEq h (sha256 (mPrime mHash salt)) 32 = true ↔ h = sha256 (mPrime mHash salt) := by
    rw [ctEq_iff hh.ge (sha256_length _).ge, List.take_of_length_le hh.le, List.take_of_length_le (sha256_length _).le]
  simp only [pssCheck_emString mHash lead b hps hm hh, Bool.and_eq_true, beq_iff_eq, allZero_iff lead, hct]
  constructor
  · rintro ⟨⟨⟨⟨⟨hlead, hb⟩, hclear⟩, hzero⟩, hone⟩, hhash⟩
    generalize hsalt : (maskDb modBits h m).drop (psLen + 1) = salt at hhash
    obtain rfl : salt.length = saltLen := by rw [← hsalt, List.length_drop]; omega
    have hunmask := (eq_pssDb_iff hps (by omega)).mpr ⟨hzero, hone, hsalt⟩
    have hmask := (maskDb_eq_pssDb_iff h hm hs).mp ⟨hclear, hunmask⟩
    exact ⟨salt, rfl, (emString_eq_encoding_iff hs hm).mpr ⟨hlead, hmask, hhash, hb⟩⟩
  · rintro ⟨salt, rfl, hx⟩
    obtain ⟨hlead, hmask, hhash, hb⟩ := (emString_eq_encoding_iff hs hm).mp hx
    obtain ⟨hclear, hunmask⟩ := (maskDb_eq_pssDb_iff h hm hs).mpr hmask
    obtain ⟨hzero, hone, hsalt⟩ := (eq_pssDb_iff hps (by omega)).mp hunmask
    exact ⟨⟨⟨⟨⟨hlead, hb⟩, hclear⟩, hzero⟩, hone⟩, hsalt ▸ hhash⟩

/-- Settles O39: PSS_ENC is its three parts, and PSS_CHECK of a string in parts accepts exactly the encodings. -/
theorem pssCheckAcceptsExactlyEncodings : Obligations.PssCheckAcceptsExactlyEncodings := by
  refine ⟨fun modBits => ?_, fun mHash salt modBits hs => ?_, fun mHash x modBits saltLen hs hx => ?_⟩
  · rw [emLen, emBits]
    omega
  · have hdb := pssDb_length (saltTooLong_eq_false_iff.mpr hs)
    have hform : pssDb modBits salt =
        List.replicate (emLen modBits - salt.length - 34) 0#8 ++ 0x01#8 :: salt := by
      rw [pssDb, Config.hLen, Nat.sub_sub _ 32 2, zeroBytes]
    refine ⟨_, _, pssEnc_eq mHash modBits salt, rfl, maskDb_length _ hdb, ?_⟩
    rw [← hform]
    exact ⟨hdb, fun j _ => maskDb_getD _ hdb j⟩
  · obtain ⟨lead, m, h, b, rfl, hlead, hm, hh⟩ := exists_emString (by omega) hx
    rw [← hlead]
    exact pssCheck_emString_iff hs hm hh

end Sys2Proof.Machine
end

section
/-! PROOFS. The family of 41_pss.md: MGF1, PSS_ENCODE and PSS_VERIFY (O36, O37, O38, O40). -/

namespace Sys2Proof.Machine

/-! ### A buffer apart from the one written (R50, R52) -/

theorem bufBytes_putBuf_apart {b c : Buf} {len : Nat} (bs : List Byte) (s : State)
    (h : c.base + len ≤ b.base ∨ b.base + bs.length ≤ c.base) : bufBytes (putBuf b bs s) c len = bufBytes s c len :=
  Memory.readBytes_writeBytes_apart bs h

theorem bufBytes_length (s : State) (b : Buf) (len : Nat) : (bufBytes s b len).length = len :=
  Memory.readBytes_length _ _ _

/-! ### EM as an integer (R102, R105) -/

theorem topMask_toNat {zb : Nat} (h : zb ≤ 8) : (topMask zb).toNat < 2 ^ (8 - zb) := by
  interval_cases zb <;> decide

/-- A string whose `zb` top bits are cleared is an integer with `zb` bits less. -/
theorem os2ip_clearTop_append_lt {zb : Nat} {bs tail : List Byte} (hz : zb ≤ 8) (hbs : bs ≠ []) :
    os2ip (clearTop zb bs ++ tail) < 2 ^ (8 * (bs.length + tail.length) - zb) := by
  obtain ⟨b, rest, rfl⟩ := List.exists_cons_of_ne_nil hbs
  have hfirst : (b &&& topMask zb).toNat + 1 ≤ 2 ^ (8 - zb) := by
    rw [BitVec.toNat_and]
    exact Nat.lt_of_le_of_lt Nat.and_le_right (topMask_toNat hz)
  calc os2ip (clearTop zb (b :: rest) ++ tail)
      = (b &&& topMask zb).toNat * 256 ^ (rest ++ tail).length + os2ip (rest ++ tail) := os2ip_cons _ _
    _ < ((b &&& topMask zb).toNat + 1) * 256 ^ (rest ++ tail).length := by
      rw [Nat.succ_mul]
      exact Nat.add_lt_add_left (os2ip_lt _) _
    _ ≤ 2 ^ (8 - zb) * 256 ^ (rest ++ tail).length := Nat.mul_le_mul_right _ hfirst
    _ = 2 ^ (8 * ((b :: rest).length + tail.length) - zb) := by
      rw [show (256 : Nat) = 2 ^ 8 from rfl, ← pow_mul, ← pow_add, List.length_append, List.length_cons]
      congr 1
      omega

/-- R102, R104: EM has at most emBits = modBits - 1 bits. -/
theorem os2ip_pssEnc_lt {modBits : Nat} {salt : List Byte} (mHash : List Byte) (hs : 34 + salt.length ≤ emLen modBits) :
    os2ip (pssEnc mHash modBits salt) < 2 ^ (modBits - 1) := by
  obtain ⟨masked, hmasked⟩ : ∃ masked, masked = xorBytes (pssDb modBits salt)
    (mgf1 (sha256 (mPrime mHash salt)) (emLen modBits - 33)) := ⟨_, rfl⟩
  have hlen : masked.length = emLen modBits - 33 := by
    rw [hmasked, xorBytes_length, mgf1_length, pssDb_length (saltTooLong_eq_false_iff.mpr hs), Nat.min_self]
  have hlt := os2ip_clearTop_append_lt (zb := zeroBits modBits) (tail := sha256 (mPrime mHash salt) ++ [0xBC#8])
    ((zeroBits_le modBits).trans (by decide)) (List.ne_nil_of_length_pos (l := masked) (by omega))
  have hbits : 8 * (emLen modBits - 33 + (32 + 1)) - zeroBits modBits = modBits - 1 := by
    rw [zeroBits, emBits]
    have : modBits - 1 ≤ 8 * emLen modBits := by rw [emLen, emBits]; omega
    omega
  rw [hlen, List.length_append, sha256_length, List.length_singleton, hbits] at hlt
  rwa [pssEnc_eq, maskDb, ← hmasked, List.append_assoc]

/-- R40, R110: the modulus of a legal valid key has modBits bits. -/
theorem two_pow_le_modulus {s : State} (hk : KeyOk s) (hv : s.keyValid = true) : 2 ^ (keyBits s - 1) ≤ modulus s := by
  obtain ⟨-, -, -, hodd, -, hbits⟩ := hk.2 hv
  rw [hbits]
  exact two_pow_le_of_bitLength (by omega)

/-! ### EM in A_BUF (R105) -/

theorem saltBytes_length (s : State) : (saltBytes s).length = sLen s := bufBytes_length _ _ _

section
variable {s : State} (hm : Memory.wf s.mem) (hk : KeyOk s) (hv : s.keyValid = true)
  (hs : saltTooLong (keyBits s) (sLen s) = false)

include hk hv hs

theorem encoded_length : (pssBlock (mHash s) (keyBits s) (saltBytes s) (keyLen s)).length = keyLen s :=
  pssBlock_length (by rwa [saltBytes_length]) (emLen_le_keyLen hk hv)

/-- R105: no byte but A_BUF[0..k) is written. -/
theorem putEncoded_sameOutside : SameOutside s (putEncoded s) 0xC00 (keyLen s) := by
  have hout := putBuf_sameOutside .a (pssBlock (mHash s) (keyBits s) (saltBytes s) (keyLen s)) s
  rwa [encoded_length hk hv hs] at hout

/-- R102, R105: EM as an integer is below n. -/
theorem os2ip_encoded_lt : os2ip (pssBlock (mHash s) (keyBits s) (saltBytes s) (keyLen s)) < modulus s := by
  have hfits : 34 + (saltBytes s).length ≤ emLen (keyBits s) := by
    rw [saltBytes_length]
    exact saltTooLong_eq_false_iff.mp hs
  rw [pssBlock, os2ip_zeroBytes_append]
  exact (os2ip_pssEnc_lt _ hfits).trans_le (two_pow_le_modulus hk hv)

include hm

theorem bufBytes_putEncoded :
    bufBytes (putEncoded s) .a (keyLen s) = pssBlock (mHash s) (keyBits s) (saltBytes s) (keyLen s) := by
  have hback := bufBytes_putBuf_same hm .a (pssBlock (mHash s) (keyBits s) (saltBytes s) (keyLen s))
  rwa [encoded_length hk hv hs] at hback

end

/-! ### The commands where their checks pass (R101, R105, R108) -/

theorem exec_mgf1_of_le {s : State} {len : Nat} (h : len ≤ Config.kMax) :
    exec (.mgf1 len) s = .next (complete .none (putBuf .r (mgf1 (mHash s) len) s)) := by
  simp [exec, execMgf1, Nat.not_lt.mpr h, finish]

theorem exec_pssEncode_of_valid {s : State} (hv : s.keyValid = true) (hs : saltTooLong (keyBits s) (sLen s) = false) :
    exec .pssEncode s = .next (complete .none (putEncoded s)) := by
  simp [exec, execPssEncode, hv, hs, finish]

theorem exec_pssVerify_of_valid {s : State} (hv : s.keyValid = true) :
    exec .pssVerify s = .next (complete .none (setResult (checkRecovered s) s)) := by
  simp [exec, execPssVerify, hv, finish]

/-- R103: PSS_CHECK rejects every string where the key is too small for the salt length. -/
theorem pssCheck_of_saltTooLong {modBits saltLen : Nat} (mHash x : List Byte) (h : saltTooLong modBits saltLen = true) :
    pssCheck mHash modBits saltLen x = false := by
  rw [pssCheck, if_pos h]

/-! ### MGF1, PSS_ENCODE and PSS_VERIFY (R101, R105, R108) -/

/-- Settles O36: MGF1 passes its check and puts the L bytes of the mask into R_BUF. -/
theorem mgf1WritesMask : Obligations.Mgf1WritesMask := by
  intro s len hm hl
  have hback := bufBytes_putBuf_same hm .r (mgf1 (mHash s) len)
  have hout := putBuf_sameOutside .r (mgf1 (mHash s) len) s
  rw [mgf1_length] at hback hout
  refine ⟨_, exec_mgf1_of_le hl, complete_endsWith _ _ _ rfl, hback, hout, ?_⟩
  simp [SameConfig, SameKey, SameContext, SameHost]

/-- Settles O37: PSS_ENCODE passes its checks and puts the padded EM into A_BUF; EM has fewer bits than n. -/
theorem pssEncodeWritesEm : Obligations.PssEncodeWritesEm := by
  intro s hm hk hv hfits
  have hs : saltTooLong (keyBits s) (sLen s) = false := saltTooLong_eq_false_iff.mpr hfits
  have hem := bufBytes_putEncoded hm hk hv hs
  have hlt := os2ip_encoded_lt hk hv hs
  rw [← hem] at hlt
  refine ⟨_, exec_pssEncode_of_valid hv hs, complete_endsWith _ _ _ rfl, hem,
    pssEnc_length (salt := saltBytes s) (by rwa [saltBytes_length]), hlt, putEncoded_sameOutside hk hv hs, ?_⟩
  simp [SameConfig, SameKey, SameContext, SameHost]

/-- Settles O38: PSS_VERIFY with a valid key has no further check of its own; the length check is PSS_CHECK's. -/
theorem pssVerifyGivesResult : Obligations.PssVerifyGivesResult := by
  intro s hv
  refine ⟨_, exec_pssVerify_of_valid hv, complete_endsWith _ _ _ rfl, rfl, fun hshort => ?_, ?_⟩
  · exact pssCheck_of_saltTooLong _ _ (saltTooLong_eq_true_iff.mpr hshort)
  · simp [SameMemory, SameConfig, SameKey, SameContext, SameHost]

/-! ### PSS_ENCODE, then PSS_VERIFY (R109) -/

/-- R109: PSS_CHECK accepts every padded encoding. -/
theorem pssCheck_pssBlock {mHash salt : List Byte} {modBits k : Nat} (hs : 34 + salt.length ≤ emLen modBits)
    (hk : emLen modBits ≤ k) : pssCheck mHash modBits salt.length (pssBlock mHash modBits salt k) = true := by
  obtain ⟨-, -, haccepts⟩ := pssCheckAcceptsExactlyEncodings
  have hlen := pssBlock_length (mHash := mHash) (saltTooLong_eq_false_iff.mpr hs) hk
  refine (haccepts mHash _ modBits salt.length hs (by rwa [hlen])).mpr ⟨salt, rfl, ?_⟩
  rw [hlen]
  rfl

/-- R109: the state after PSS_ENCODE and the host's copy of A_BUF[0..k) to R_BUF. -/
def afterCopy (s : State) : State :=
  putBuf .r (bufBytes (putEncoded s) .a (keyLen s)) (complete .none (putEncoded s))

/-- The encoding and the copy write A_BUF and R_BUF, so PSS_VERIFY reads the digest that PSS_ENCODE read. -/
theorem mHash_afterCopy (s : State) : mHash (afterCopy s) = mHash s := by
  rw [mHash, afterCopy, bufBytes_putBuf_apart _ _ (.inl (by decide)), bufBytes_complete, putEncoded,
    bufBytes_putBuf_apart _ _ (.inl (by decide)), mHash]

theorem bufBytes_afterCopy {s : State} (hm : Memory.wf s.mem) :
    bufBytes (afterCopy s) .r (keyLen s) = bufBytes (putEncoded s) .a (keyLen s) := by
  have hback := bufBytes_putBuf_same (s := complete .none (putEncoded s)) (Memory.wf_writeBytes _ _ hm) .r
    (bufBytes (putEncoded s) .a (keyLen s))
  rwa [bufBytes_length] at hback

theorem checkRecovered_afterCopy {s : State} (hm : Memory.wf s.mem) (hk : KeyOk s) (hv : s.keyValid = true)
    (hs : saltTooLong (keyBits s) (sLen s) = false) : checkRecovered (afterCopy s) = true := by
  rw [← saltBytes_length s] at hs
  have haccepted := pssCheck_pssBlock (mHash := mHash s) (saltTooLong_eq_false_iff.mp hs) (emLen_le_keyLen hk hv)
  rw [saltBytes_length] at hs haccepted
  rwa [← bufBytes_putEncoded hm hk hv hs, ← bufBytes_afterCopy hm, ← mHash_afterCopy] at haccepted

/-- Settles O40: after the copy R_BUF[0..k) holds the padded encoding, which PSS_CHECK accepts. -/
theorem pssEncodeThenVerify : Obligations.PssEncodeThenVerify := by
  intro s hm hk hv hfits
  have hs : saltTooLong (keyBits s) (sLen s) = false := saltTooLong_eq_false_iff.mpr hfits
  exact ⟨_, _, exec_pssEncode_of_valid hv hs, exec_pssVerify_of_valid (s := afterCopy s) hv, rfl,
    checkRecovered_afterCopy hm hk hv hs⟩

end Sys2Proof.Machine
end

section
/-! PROOFS. The family of 42_modexp.md: KEY_LOAD latches the bit length of a valid modulus (O41). -/

namespace Sys2Proof.Machine

/-! ### The bit length of a modulus (R40, R110) -/

/-- A number above 1 needs at least two bits. -/
theorem two_le_bitLength {n : Nat} (h : 2 ≤ n) : 2 ≤ bitLength n := by
  have hpow : 2 ^ 1 < 2 ^ bitLength n := h.trans_lt (lt_two_pow_bitLength n)
  exact (Nat.pow_lt_pow_iff_right (by decide)).mp hpow

theorem bitLength_modulus_le (s : State) : bitLength (modulus s) ≤ 8 * keyLen s :=
  bitLength_le_of_lt (by rw [pow_mul]; exact modulus_lt s)

/-! ### KEY_LOAD's checks (R110) -/

theorem exec_keyLoad_of_valid {s : State} (h1 : keyLen s ≠ 0) (h2 : keyLen s ≤ Config.kMax)
    (h3 : Memory.read s.mem (Buf.base .n) ≠ 0#8) (h4 : modulus s % 2 = 1) (h5 : modulus s ≠ 1) :
    exec .keyLoad s = .next (complete .none (latchKey s)) := by
  simp [exec, execKeyLoad, h1, Nat.not_lt.mpr h2, h3, h4, h5, finish]

/-- Settles O41: KEY_LOAD passes its checks, and what it does is `latchKey`, whose MOD_BITS holds the bit length. -/
theorem keyLoadLatchesModulus : Obligations.KeyLoadLatchesModulus := by
  refine ⟨fun s => ⟨rfl, rfl⟩, ?_⟩
  intro s hpos hmax hlead hodd hne
  have hnz : keyLen s ≠ 0 := Nat.one_le_iff_ne_zero.mp hpos
  have hbits : (complete .none (latchKey s)).modBits.toNat = bitLength (modulus s) := keyBits_latchKey hmax
  have hle := bitLength_modulus_le s
  refine ⟨_, exec_keyLoad_of_valid hnz hmax hlead hodd hne, complete_endsWith _ _ _ rfl, rfl, ?_⟩
  rw [hbits]
  refine ⟨lt_two_pow_bitLength _, fun _ => bitLength_le_of_lt, two_le_bitLength (by omega), by omega,
    keyOk_latchKey hnz hmax hlead hodd hne, ?_⟩
  simp [SameMemory, SameConfig, SameContext, SameHost]

end Sys2Proof.Machine
end

section
/-! PROOFS. The family of 43_compare.md: CT_EQ is equality of prefixes (O43), and CMP compares A_BUF and R_BUF (O44). -/

namespace Sys2Proof.Machine

/-! ### CT_EQ (R116, R118) -/

theorem ctEq_eq_false_iff {x y : List Byte} {len : Nat} (hx : len ≤ x.length) (hy : len ≤ y.length) :
    ctEq x y len = false ↔ x.take len ≠ y.take len := by
  rw [← Bool.not_eq_true, ctEq_iff hx hy]

theorem ctEq_comm {x y : List Byte} {len : Nat} (hx : len ≤ x.length) (hy : len ≤ y.length) :
    ctEq x y len = ctEq y x len := by
  rw [Bool.eq_iff_iff, ctEq_iff hx hy, ctEq_iff hy hx, eq_comm]

/-- Strings with equal prefixes have equal shorter prefixes. -/
theorem take_eq_take_of_le {x y : List Byte} {len longer : Nat} (h : len ≤ longer)
    (heq : x.take longer = y.take longer) : x.take len = y.take len := by
  have hshorter := congrArg (List.take len) heq
  rwa [List.take_take, List.take_take, Nat.min_eq_left h] at hshorter

/-- Settles O43: CT_EQ is equality of prefixes, and prefixes that differ stay different in longer prefixes. -/
theorem ctEqIsEquality : Obligations.CtEqIsEquality := by
  intro x y len hx hy
  refine ⟨ctEq_iff hx hy, ctEq_comm hx hy, fun hfalse longer hle hx' hy' => ?_⟩
  rw [ctEq_eq_false_iff hx hy] at hfalse
  rw [ctEq_eq_false_iff hx' hy']
  exact fun heq => hfalse (take_eq_take_of_le hle heq)

/-! ### CMP (R117) -/

theorem exec_cmp_of_le {s : State} {len : Nat} (h : len ≤ Config.kMax) :
    exec (.cmp len) s =
      .next (complete .none (setResult (ctEq (bufBytes s .a len) (bufBytes s .r len) len) s)) := by
  simp [exec, execCmp, Nat.not_lt.mpr h, finish]

theorem bufBytes_eq_iff {s : State} {b c : Buf} {len : Nat} :
    bufBytes s b len = bufBytes s c len ↔
      ∀ j, j < len → Memory.read s.mem (b.base + j) = Memory.read s.mem (c.base + j) := by
  simp only [bufBytes, Memory.readBytes, List.map_inj_left, List.mem_range]

theorem ctEq_bufBytes_iff {s : State} {b c : Buf} {len : Nat} :
    ctEq (bufBytes s b len) (bufBytes s c len) len = true ↔
      ∀ j, j < len → Memory.read s.mem (b.base + j) = Memory.read s.mem (c.base + j) := by
  have hb := bufBytes_length s b len
  have hc := bufBytes_length s c len
  rw [ctEq_iff hb.ge hc.ge, List.take_of_length_le hb.le, List.take_of_length_le hc.le, bufBytes_eq_iff]

/-- Settles O44: CMP passes its check, and RESULT is CT_EQ of the two buffers, each of exactly L bytes. -/
theorem cmpComparesBuffers : Obligations.CmpComparesBuffers := by
  intro s len hl
  refine ⟨_, exec_cmp_of_le hl, complete_endsWith _ _ _ rfl, ctEq_bufBytes_iff, ?_⟩
  simp [SameMemory, SameConfig, SameKey, SameContext, SameHost]

end Sys2Proof.Machine
end

section
/-! PROOFS. The family of 44_sequenced.md: SIGN and VERIFY (O45, O46, O47, O48). -/

namespace Sys2Proof.Machine

/-! ### Operands that a write to another buffer leaves (R50, R52) -/

/-- DIGEST_BUF lies below the buffers of the exponentiation unit. -/
theorem mHash_putBuf {b : Buf} (hb : 0xA00 ≤ b.base) (bs : List Byte) (s : State) :
    mHash (putBuf b bs s) = mHash s :=
  bufBytes_putBuf_apart _ _ (.inl (hb.trans' (by decide)))

/-- A modulus of at most K_MAX bytes ends below EXP_BUF, A_BUF and R_BUF. -/
theorem modulus_putBuf {b : Buf} {s : State} (hk : keyLen s ≤ Config.kMax) (hb : 0xA00 ≤ b.base) (bs : List Byte) :
    modulus (putBuf b bs s) = modulus s :=
  congrArg os2ip (bufBytes_putBuf_apart _ _ (.inl (hb.trans' (Nat.add_le_add_left hk 0x800))))

/-- An exponent of at most K_MAX bytes ends below A_BUF and R_BUF. -/
theorem exponent_putBuf {b : Buf} {s : State} (he : s.expLen.toNat ≤ Config.kMax) (hb : 0xC00 ≤ b.base)
    (bs : List Byte) : exponent (putBuf b bs s) = exponent s :=
  congrArg os2ip (bufBytes_putBuf_apart _ _ (.inl (hb.trans' (Nat.add_le_add_left he 0xA00))))

/-! ### The recovered string (R112, R120) -/

theorem bufBytes_putPower {s : State} (hm : Memory.wf s.mem) :
    bufBytes (putPower s) .r (keyLen s) = i2osp (baseOperand s ^ exponent s % modulus s) (keyLen s) := by
  have hback := bufBytes_putBuf_same hm .r
    (i2osp (modexpF (baseOperand s) (exponent s) (modulus s)) (keyLen s))
  rw [i2osp_length] at hback
  rw [putPower, hback, modexpF_eq]

theorem checkRecovered_putPower {s : State} (hm : Memory.wf s.mem) :
    checkRecovered (putPower s) = pssCheck (mHash s) (keyBits s) (sLen s)
      (i2osp (baseOperand s ^ exponent s % modulus s) (keyLen s)) := by
  have hdigest : mHash (putPower s) = mHash s := mHash_putBuf (by decide) _ s
  rw [← bufBytes_putPower hm, ← hdigest]
  rfl

/-! ### SIGN where its checks pass (R119) -/

theorem exec_sign_of_valid {s : State} (he : exponentError s = none) (hs : saltTooLong (keyBits s) (sLen s) = false) :
    exec .sign s = .next (complete .none (putPower (putEncoded s))) := by
  simp [exec, execSign, he, hs, finish]

section
variable {s : State} (hm : Memory.wf s.mem) (hk : KeyOk s) (hv : s.keyValid = true)
  (hs : saltTooLong (keyBits s) (sLen s) = false)

include hk hv

theorem modulus_putEncoded : modulus (putEncoded s) = modulus s :=
  modulus_putBuf (keyLen_le_kMax hk hv) (by decide) _

/-- The power goes to R_BUF, so A_BUF[0..k) still holds EM. -/
theorem bufBytes_putPower_putEncoded :
    bufBytes (putPower (putEncoded s)) .a (keyLen s) = bufBytes (putEncoded s) .a (keyLen s) :=
  bufBytes_putBuf_apart _ _ (.inl (Nat.add_le_add_left (keyLen_le_kMax hk hv) 0xC00))

include hm hs

theorem baseOperand_putEncoded :
    baseOperand (putEncoded s) = os2ip (pssBlock (mHash s) (keyBits s) (saltBytes s) (keyLen s)) :=
  congrArg os2ip (bufBytes_putEncoded hm hk hv hs)

/-- R119: EM is a base that MODEXP accepts. -/
theorem baseOperand_putEncoded_lt : baseOperand (putEncoded s) < modulus (putEncoded s) := by
  rw [baseOperand_putEncoded hm hk hv hs, modulus_putEncoded hk hv]
  exact os2ip_encoded_lt hk hv hs

/-- R119: the signature is EM to the power of the exponent, modulo n. -/
theorem os2ip_signature (he : s.expLen.toNat ≤ Config.kMax) :
    os2ip (bufBytes (putPower (putEncoded s)) .r (keyLen s)) =
      os2ip (pssBlock (mHash s) (keyBits s) (saltBytes s) (keyLen s)) ^ exponent s % modulus s := by
  have hexp : exponent (putEncoded s) = exponent s := exponent_putBuf he (by decide) _
  have hpower := os2ip_putPower (s := putEncoded s) (Memory.wf_writeBytes _ _ hm)
    (Nat.zero_lt_of_lt (baseOperand_putEncoded_lt hm hk hv hs))
  rwa [baseOperand_putEncoded hm hk hv hs, hexp, modulus_putEncoded hk hv] at hpower

end

/-- Settles O45: SIGN passes its checks and is `putEncoded`, then `putPower`, which writes nothing that the first wrote
or read. -/
theorem signWritesSignature : Obligations.SignWritesSignature := by
  intro s hm hk hv h1 h2 hfits
  have hs : saltTooLong (keyBits s) (sLen s) = false := saltTooLong_eq_false_iff.mpr hfits
  have hem := bufBytes_putPower_putEncoded hk hv
  rw [bufBytes_putEncoded hm hk hv hs] at hem
  have hsig := os2ip_signature hm hk hv hs h2
  rw [← hem] at hsig
  refine ⟨_, exec_sign_of_valid (exponentError_eq_none hv h1 h2) hs, complete_endsWith _ _ _ rfl, hem, hsig,
    fun a ha hr => ?_, ?_⟩
  · exact (putPower_sameOutside (putEncoded s) a hr).trans (putEncoded_sameOutside hk hv hs a ha)
  · simp [SameConfig, SameKey, SameContext, SameHost]

/-! ### SIGN in two commands (R119) -/

/-- The completion updates of a first command are repeated by the second, and the power does not read them (R130). -/
theorem complete_putPower_complete (e : ErrCode) (s : State) :
    complete e (putPower (complete e s)) = complete e (putPower s) := by
  have hbits : s.intStatus ||| completionBits e ||| completionBits e = s.intStatus ||| completionBits e := by
    rw [BitVec.or_assoc, BitVec.or_self]
  exact congrArg (fun st => { complete e (putPower s) with intStatus := st }) hbits

/-- Settles O46: MODEXP after PSS_ENCODE finds EM below n, and its completion repeats the one of PSS_ENCODE. -/
theorem signIsEncodeThenModexp : Obligations.SignIsEncodeThenModexp := by
  intro s hm hk hv h1 h2 hfits
  have hs : saltTooLong (keyBits s) (sLen s) = false := saltTooLong_eq_false_iff.mpr hfits
  have he := exponentError_eq_none hv h1 h2
  have hmodexp := exec_modexp_of_valid (s := complete .none (putEncoded s)) he
    (baseOperand_putEncoded_lt hm hk hv hs)
  rw [complete_putPower_complete] at hmodexp
  exact ⟨_, _, exec_pssEncode_of_valid hv hs, hmodexp, exec_sign_of_valid he hs⟩

/-! ### VERIFY past its error checks (R120) -/

/-- The exponentiation of VERIFY runs: none of R120's early false outcomes. -/
theorem verifyEarlyFalse_eq_false_iff {len : Nat} {s : State} : verifyEarlyFalse len s = false ↔
    len = keyLen s ∧ emLen (keyBits s) ≥ 34 + sLen s ∧ baseOperand s < modulus s := by
  simp only [verifyEarlyFalse, Bool.or_eq_false_iff, saltTooLong_eq_false_iff, decide_eq_false_iff_not, not_not,
    Nat.not_le, and_assoc]

theorem exec_verify_of_runs {len : Nat} {s : State} (he : exponentError s = none) (hl : len ≠ 0)
    (hr : verifyEarlyFalse len s = false) : exec (.verify len) s = .next (complete .none (recoverAndCheck s)) := by
  simp [exec, execVerify, he, hl, hr, finish]

theorem exec_verify_of_earlyFalse {len : Nat} {s : State} (he : exponentError s = none) (hl : len ≠ 0)
    (hr : verifyEarlyFalse len s = true) : exec (.verify len) s = .next (complete .none (setResult false s)) := by
  simp [exec, execVerify, he, hl, hr, finish]

/-- Settles O47: past its error checks VERIFY either ends early with RESULT = 0 or recovers and checks. -/
theorem verifyGivesResult : Obligations.VerifyGivesResult := by
  intro s len hm hv h1 h2 hl sig runs power
  have he := exponentError_eq_none hv h1 h2
  have hruns : verifyEarlyFalse len s = false ↔ runs := verifyEarlyFalse_eq_false_iff
  cases hearly : verifyEarlyFalse len s with
  | false =>
    refine ⟨_, exec_verify_of_runs he hl hearly, complete_endsWith _ _ _ rfl, fun _ => ?_,
      fun hnot => absurd (hruns.mp hearly) hnot, ?_⟩
    · exact ⟨bufBytes_putPower hm, putPower_sameOutside s, checkRecovered_putPower hm⟩
    · simp [recoverAndCheck, SameConfig, SameKey, SameContext, SameHost]
  | true =>
    refine ⟨_, exec_verify_of_earlyFalse he hl hearly, complete_endsWith _ _ _ rfl, fun hrun => ?_,
      fun _ => ⟨rfl, fun _ => rfl⟩, ?_⟩
    · exact absurd (hruns.mpr hrun) (by simp [hearly])
    · simp [SameConfig, SameKey, SameContext, SameHost]

/-! ### What the host loads between SIGN and VERIFY (R121) -/

/-- R121: the host copies the signature in R_BUF[0..k) to A_BUF and loads the exponent `e`. -/
def loadVerify (e : List Byte) (k : Nat) (s : State) : State :=
  { putBuf .exp e (putBuf .a (bufBytes s .r k) s) with expLen := BitVec.ofNat 16 e.length }

@[simp] theorem loadVerify_keyValid (e : List Byte) (k : Nat) (s : State) :
    (loadVerify e k s).keyValid = s.keyValid := rfl

@[simp] theorem keyLen_loadVerify (e : List Byte) (k : Nat) (s : State) : keyLen (loadVerify e k s) = keyLen s := rfl

@[simp] theorem keyBits_loadVerify (e : List Byte) (k : Nat) (s : State) :
    keyBits (loadVerify e k s) = keyBits s := rfl

@[simp] theorem sLen_loadVerify (e : List Byte) (k : Nat) (s : State) : sLen (loadVerify e k s) = sLen s := rfl

@[simp] theorem mHash_loadVerify (e : List Byte) (k : Nat) (s : State) : mHash (loadVerify e k s) = mHash s :=
  (mHash_putBuf (by decide) e _).trans (mHash_putBuf (by decide) _ s)

section
variable {s : State} {e : List Byte} {k : Nat}

theorem wf_loadVerify (hm : Memory.wf s.mem) : Memory.wf (loadVerify e k s).mem :=
  Memory.wf_writeBytes _ _ (Memory.wf_writeBytes _ _ hm)

theorem modulus_loadVerify (hk : keyLen s ≤ Config.kMax) : modulus (loadVerify e k s) = modulus s :=
  (modulus_putBuf (b := .exp) (s := putBuf .a (bufBytes s .r k) s) hk (by decide) e).trans
    (modulus_putBuf hk (by decide) _)

variable (he : e.length ≤ Config.kMax)
include he

theorem expLen_loadVerify : (loadVerify e k s).expLen.toNat = e.length :=
  (BitVec.toNat_ofNat _ _).trans (Nat.mod_eq_of_lt (Nat.lt_of_le_of_lt he (by decide)))

variable (hm : Memory.wf s.mem)
include hm

theorem exponent_loadVerify : exponent (loadVerify e k s) = os2ip e := by
  rw [exponent, expLen_loadVerify he]
  exact congrArg os2ip (bufBytes_putBuf_same (Memory.wf_writeBytes _ _ hm) .exp e)

/-- EXP_BUF ends where A_BUF begins, so the copied string is the base of VERIFY. -/
theorem baseOperand_loadVerify (hk : keyLen s = k) : baseOperand (loadVerify e k s) = os2ip (bufBytes s .r k) := by
  have hback := bufBytes_putBuf_same hm .a (bufBytes s .r k)
  rw [bufBytes_length] at hback
  have hapart := bufBytes_putBuf_apart (b := .exp) (c := .a) (len := k) e (putBuf .a (bufBytes s .r k) s)
    (.inr (Nat.add_le_add_left he 0xA00))
  rw [baseOperand, keyLen_loadVerify, hk]
  exact congrArg os2ip (hapart.trans hback)

end

/-! ### SIGN, then VERIFY (R121) -/

/-- R119: the state that SIGN leaves. -/
def afterSign (s : State) : State := complete .none (putPower (putEncoded s))

@[simp] theorem afterSign_keyValid (s : State) : (afterSign s).keyValid = s.keyValid := by simp [afterSign]

@[simp] theorem keyLen_afterSign (s : State) : keyLen (afterSign s) = keyLen s := by simp [afterSign, keyLen]

@[simp] theorem keyBits_afterSign (s : State) : keyBits (afterSign s) = keyBits s := by simp [afterSign, keyBits]

@[simp] theorem sLen_afterSign (s : State) : sLen (afterSign s) = sLen s := by simp [afterSign, sLen]

@[simp] theorem mHash_afterSign (s : State) : mHash (afterSign s) = mHash s :=
  (mHash_putBuf (b := .r) (by decide) _ (putEncoded s)).trans (mHash_putBuf (by decide) _ s)

section
variable {s : State} {e : List Byte} (hm : Memory.wf s.mem) (hk : KeyOk s) (hv : s.keyValid = true)
  (hs : saltTooLong (keyBits s) (sLen s) = false)

theorem wf_afterSign (hm : Memory.wf s.mem) : Memory.wf (afterSign s).mem :=
  Memory.wf_writeBytes _ _ (Memory.wf_writeBytes _ _ hm)

include hk hv

theorem modulus_loadVerify_afterSign : modulus (loadVerify e (keyLen s) (afterSign s)) = modulus s := by
  have hlen := keyLen_le_kMax hk hv
  calc modulus (loadVerify e (keyLen s) (afterSign s))
      = modulus (afterSign s) := modulus_loadVerify (by rwa [keyLen_afterSign])
    _ = modulus (putEncoded s) := modulus_putBuf (b := .r) (s := putEncoded s) hlen (by decide) _
    _ = modulus s := modulus_putEncoded hk hv

include hs

/-- R109, R121: the integer of the padded encoding, written as k bytes, is the encoding, which PSS_CHECK accepts. -/
theorem pssCheck_i2osp_encoded :
    pssCheck (mHash s) (keyBits s) (sLen s)
      (i2osp (os2ip (pssBlock (mHash s) (keyBits s) (saltBytes s) (keyLen s))) (keyLen s)) = true := by
  have hback := i2osp_os2ip (pssBlock (mHash s) (keyBits s) (saltBytes s) (keyLen s))
  rw [encoded_length hk hv hs] at hback
  rw [hback, ← saltBytes_length s]
  exact pssCheck_pssBlock (by rwa [saltBytes_length, ← saltTooLong_eq_false_iff]) (emLen_le_keyLen hk hv)

variable (hd : s.expLen.toNat ≤ Config.kMax) (he : e.length ≤ Config.kMax)
include hm hd he

/-- R121: VERIFY finds in A_BUF the signature that SIGN put into R_BUF. -/
theorem baseOperand_loadVerify_afterSign : baseOperand (loadVerify e (keyLen s) (afterSign s)) =
    os2ip (pssBlock (mHash s) (keyBits s) (saltBytes s) (keyLen s)) ^ exponent s % modulus s :=
  (baseOperand_loadVerify he (wf_afterSign hm) (keyLen_afterSign s)).trans (os2ip_signature hm hk hv hs hd)

/-- R120, R121: a signature of SIGN meets none of VERIFY's early false outcomes. -/
theorem verifyEarlyFalse_loadVerify_afterSign :
    verifyEarlyFalse (keyLen s) (loadVerify e (keyLen s) (afterSign s)) = false := by
  rw [verifyEarlyFalse_eq_false_iff, baseOperand_loadVerify_afterSign hm hk hv hs hd he,
    modulus_loadVerify_afterSign hk hv]
  have hlt := Nat.mod_lt (os2ip (pssBlock (mHash s) (keyBits s) (saltBytes s) (keyLen s)) ^ exponent s)
    (Nat.zero_lt_of_lt (os2ip_encoded_lt hk hv hs))
  simpa using ⟨saltTooLong_eq_false_iff.mp hs, hlt⟩

variable (hundo : ∀ m, m < modulus s → (m ^ exponent s) ^ os2ip e % modulus s = m)
include hundo

/-- R121: where `e` undoes the exponent of SIGN, the power of the signature is EM again. -/
theorem power_loadVerify_afterSign :
    baseOperand (loadVerify e (keyLen s) (afterSign s)) ^ exponent (loadVerify e (keyLen s) (afterSign s)) %
        modulus (loadVerify e (keyLen s) (afterSign s)) =
      os2ip (pssBlock (mHash s) (keyBits s) (saltBytes s) (keyLen s)) := by
  rw [baseOperand_loadVerify_afterSign hm hk hv hs hd he, modulus_loadVerify_afterSign hk hv,
    exponent_loadVerify he (wf_afterSign hm), ← Nat.pow_mod]
  exact hundo _ (os2ip_encoded_lt hk hv hs)

theorem checkRecovered_loadVerify_afterSign :
    checkRecovered (putPower (loadVerify e (keyLen s) (afterSign s))) = true := by
  rw [checkRecovered_putPower (wf_loadVerify (wf_afterSign hm)),
    power_loadVerify_afterSign hm hk hv hs hd he hundo]
  simpa using pssCheck_i2osp_encoded hk hv hs

end

/-- Settles O48: the signature passes VERIFY's early tests, and its power is the padded encoding again. -/
theorem signThenVerify : Obligations.SignThenVerify := by
  intro s e hm hk hv hd1 hd he1 he hfits hundo
  have hs : saltTooLong (keyBits s) (sLen s) = false := saltTooLong_eq_false_iff.mpr hfits
  have hloaded := expLen_loadVerify (s := afterSign s) (k := keyLen s) he
  have herr : exponentError (loadVerify e (keyLen s) (afterSign s)) = none :=
    exponentError_eq_none (by simpa using hv) (by rwa [hloaded]) (by rwa [hloaded])
  have hpos : keyLen s ≠ 0 := Nat.one_le_iff_ne_zero.mp (hk.2 hv).1
  exact ⟨afterSign s, _, exec_sign_of_valid (exponentError_eq_none hv hd1 hd) hs,
    exec_verify_of_runs herr hpos (verifyEarlyFalse_loadVerify_afterSign hm hk hv hs hd he), rfl,
    checkRecovered_loadVerify_afterSign hm hk hv hs hd he hundo⟩

end Sys2Proof.Machine
end

section
/-! PROOFS. The family of 45_control.md: NOP only completes (O50), and ZEROIZE erases the buffers, the context, the key
and RESULT (O51). -/

namespace Sys2Proof.Machine

/-! ### NOP (R125) -/

/-- Settles O50: NOP has no check, and what it does is the completion without error. -/
theorem nopOnlyCompletes : Obligations.NopOnlyCompletes := by
  intro s
  refine ⟨complete .none s, rfl, complete_endsWith _ _ _ rfl, ?_⟩
  simp [SameConfig, SameKey, SameContext, SameHost, SameMemory]

/-! ### Erasing the buffers (R126) -/

theorem mem_allBufs (b : Buf) : b ∈ allBufs := by cases b <;> decide

/-- Erasing buffer after buffer keeps exactly the cells that lie in none of them. -/
theorem mem_foldl_zero {c : Host.Cell} (bufs : List Buf) (m : Memory) :
    c ∈ bufs.foldl (fun acc b => Memory.zero acc b.base b.size) m ↔
      c ∈ m ∧ ∀ b ∈ bufs, ¬(b.base ≤ c.1 ∧ c.1 < b.base + b.size) := by
  induction bufs generalizing m with
  | nil => simp
  | cons b bufs ih => rw [List.foldl_cons, ih, Memory.mem_zero, List.forall_mem_cons, and_assoc]

theorem mem_zeroBuffers {c : Host.Cell} {m : Memory} :
    c ∈ zeroBuffers m ↔ c ∈ m ∧ ∀ b : Buf, ¬(b.base ≤ c.1 ∧ c.1 < b.base + b.size) := by
  simp only [zeroBuffers, mem_foldl_zero, mem_allBufs, forall_const]

/-- No cell of any buffer is left, so each of its bytes reads as an unlisted one. -/
theorem read_zeroBuffers {m : Memory} {b : Buf} {i : Nat} (h : i < b.size) :
    Memory.read (zeroBuffers m) (b.base + i) = unlistedByte := by
  refine Memory.read_of_absent fun c hc haddr => ?_
  obtain ⟨-, houtside⟩ := mem_zeroBuffers.mp hc
  exact houtside b (by omega)

/-! ### ZEROIZE (R126, R152) -/

/-- Settles O51: ZEROIZE has no check, and what it does is `eraseAll` and the completion without error. -/
theorem zeroizeErases : Obligations.ZeroizeErases := by
  intro s
  refine ⟨complete .none (eraseAll s), rfl, complete_endsWith _ _ _ rfl, fun _ _ hi => read_zeroBuffers hi, ?_⟩
  simp [State.reset, SameConfig, SameHost]

end Sys2Proof.Machine
end

section
/-! PROOFS. The family of 60_exceptions.md: a command is accepted (O6), runs (O5) and completes (O8, O9), reports its
first failing check (O52), and where that is an error leaves the rest as it was (O49, O53). -/

namespace Sys2Proof.Machine

/-! ### Acceptance (R129) -/

/-- Settles O6: CMD is a register that raises no BusError and that the busy rule does not spare. -/
theorem commandWriteIsAcceptedOrDropped : Obligations.CommandWriteIsAcceptedOrDropped := by
  intro s v rest h
  exact ⟨fun hidle => step_of_writeReg h (by decide) (r := .cmd) rfl (.inl hidle),
    fun hbusy => step_of_droppedWrite hbusy h (by decide) (by decide)⟩

/-! ### The engine's turn (R130, R131) -/

/-- R31, R72: no command touches the interrupt registers, the length registers, the events to come or the host's last
answer; its completion updates come after. -/
theorem Effect.keeps_host {s u : State} {i : Instr} {e : ErrCode} (he : Effect s i e u) :
    u.intStatus = s.intStatus ∧ SameConfig s u ∧ SameHost s u := by
  cases he with
  | final => simp [SameConfig, SameHost]
  | nop | shaInit | updateError | update | finalError | mgf1Error | mgf1 | encodeError | encode | pssVerifyError
  | pssVerify | keyError | keyLoad | modexpError | modexp | cmpError | cmp | signError | sign | verifyFalse | verify
  | zeroize => exact ⟨rfl, ⟨rfl, rfl, rfl, rfl⟩, rfl, rfl⟩

/-- R130: the engine's turn while BUSY = 1 ends in the completion updates, whether or not the pending word decodes. -/
theorem engineTurn_completes {s : State} (hb : s.busy = true) :
    ∃ e u, engineTurn s = .next (complete e u) ∧ u.intStatus = s.intStatus ∧ SameConfig s u ∧ SameHost s u := by
  cases hd : decode s.cmdPend with
  | error x => exact ⟨_, _, engineTurn_of_undecodable hb hd, rfl, ⟨rfl, rfl, rfl, rfl⟩, rfl, rfl⟩
  | ok i =>
    obtain ⟨t, ht⟩ := exec_next i s
    obtain ⟨e, u, rfl, he⟩ := exec_effect ht
    exact ⟨e, u, (engineTurn_of_pending hb hd).trans ht, he.keeps_host⟩

theorem runEvent_next (ev : Event) (s : State) : ∃ t, runEvent ev s = .next t := by
  cases ev with
  | bus acc => exact ⟨_, rfl⟩
  | hwReset => exact ⟨_, rfl⟩
  | engine =>
    cases hb : s.busy with
    | false => exact ⟨_, engineTurn_of_idle hb⟩
    | true =>
      obtain ⟨e, u, hturn, -⟩ := engineTurn_completes hb
      exact ⟨_, hturn⟩

/-- Settles O5: either form of the engine's turn is `engineTurn`, which runs the pending command. -/
theorem stepRunsPendingCommand : Obligations.StepRunsPendingCommand := by
  intro s i hb hd
  exact ⟨fun hempty => (step_of_empty hempty).trans (engineTurn_of_pending hb hd),
    fun rest hengine => (step_of_engine hengine).trans (engineTurn_of_pending hb hd)⟩

/-- Settles O8: a step is one event, and every event answers a next state. -/
theorem everyStepAnswersNext : Obligations.EveryStepAnswersNext := by
  intro s
  rw [step_eq_headEvent]
  exact runEvent_next _ _

/-- Settles O9: either form of the engine's turn is the engine event of `step_eq_headEvent`, which completes. -/
theorem pendingCommandCompletes : Obligations.PendingCommandCompletes := by
  intro s hb hturn
  have hhead : s.agenda.headD .engine = .engine := by
    rcases hturn with h | ⟨rest, h⟩ <;> rw [h] <;> rfl
  obtain ⟨e, u, hend, hints, hconfig, hagenda, hresp⟩ :=
    engineTurn_completes (s := { s with agenda := s.agenda.tail }) hb
  refine ⟨complete e u, ?_, complete_endsWith e s u hints, hconfig, hresp, hagenda⟩
  rw [step_eq_headEvent, hhead]
  exact hend

/-! ### The first failing check (R132, R136) -/

/-- The command answers a next state whose ERR_CODE is `c`. -/
def Reports (o : Host.Outcome State Fault Refusal) (c : ErrCode) : Prop := ∃ t, o = .next t ∧ t.errCode = c

theorem Reports.finish {e : ErrCode} {s : State} : Reports (finish e s) e := ⟨complete e s, rfl, rfl⟩

/-- One check: what is reported follows the same condition as what is run. -/
theorem Reports.ite {p q : Prop} [Decidable p] [Decidable q] {x y : Host.Outcome State Fault Refusal} {c d : ErrCode}
    (hpq : p ↔ q) (hx : Reports x c) (hy : Reports y d) : Reports (if p then x else y) (if q then c else d) := by
  by_cases h : p
  · rwa [if_pos h, if_pos (hpq.mp h)]
  · rwa [if_neg h, if_neg fun hq => h (hpq.mpr hq)]

theorem exponentError_getD (s : State) (c : ErrCode) : (exponentError s).getD c =
    if s.expLen.toNat > 512 then .len else if s.keyValid = false ∨ s.expLen.toNat = 0 then .invalidKey else c := by
  have hzero : s.expLen = 0#16 ↔ s.expLen.toNat = 0 := BitVec.toNat_inj.symm
  simp only [exponentError, hzero, Config.kMax]
  split
  · rfl
  · split <;> rfl

/-- R111: the exponent checks that MODEXP, SIGN and VERIFY make before their own. -/
theorem Reports.exponentChecks {s : State} {o : Host.Outcome State Fault Refusal} {c : ErrCode}
    (hfail : ∀ e, exponentError s = some e → Reports o e) (hpass : exponentError s = none → Reports o c) :
    Reports o
      (if s.expLen.toNat > 512 then .len else if s.keyValid = false ∨ s.expLen.toNat = 0 then .invalidKey else c) := by
  rw [← exponentError_getD]
  cases h : exponentError s with
  | none => exact hpass h
  | some e => exact hfail e h

/-- Settles O52: each command makes the checks of its row in the row's order. -/
theorem firstFailingCheckIsReported : Obligations.FirstFailingCheckIsReported := by
  intro s i
  show Reports (exec i s) _
  cases i with
  | nop | shaInit | zeroize => exact .finish
  | shaUpdate len => exact .ite .rfl .finish (.ite .rfl .finish (.ite .rfl .finish .finish))
  | shaFinal => exact .ite .rfl .finish .finish
  | mgf1 len => exact .ite .rfl .finish .finish
  | cmp len => exact .ite .rfl .finish .finish
  | pssEncode => exact .ite .rfl .finish (.ite saltTooLong_eq_true_iff .finish .finish)
  | pssVerify => exact .ite .rfl .finish .finish
  | keyLoad => exact .ite .rfl .finish (.ite .rfl .finish (.ite .rfl .finish .finish))
  | modexp =>
    refine .exponentChecks (fun e he => ?_) (fun he => ?_) <;> simp only [exec, execModexp, he]
    · exact .finish
    · exact .ite .rfl .finish .finish
  | sign =>
    refine .exponentChecks (fun e he => ?_) (fun he => ?_) <;> simp only [exec, execSign, he]
    · exact .finish
    · exact .ite saltTooLong_eq_true_iff .finish .finish
  | verify len =>
    refine .exponentChecks (fun e he => ?_) (fun he => ?_) <;> simp only [exec, execVerify, he]
    · exact .finish
    · exact .ite .rfl .finish (by split <;> exact .finish)

/-! ### What an error leaves (R134, R135) -/

/-- R135: what the rule of a command sets before its first check. -/
def beforeChecks (i : Instr) (s : State) : State :=
  match i with
  | .cmp _ | .verify _ | .pssVerify => setResult false s
  | .keyLoad => dropKey s
  | .nop | .shaInit | .shaUpdate _ | .shaFinal | .mgf1 _ | .pssEncode | .modexp | .sign | .zeroize => s

/-- R135: an error does nothing but what comes before the checks. -/
theorem Effect.eq_beforeChecks {s u : State} {i : Instr} {e : ErrCode} (he : Effect s i e u) (hne : e ≠ .none) :
    u = beforeChecks i s := by
  cases he with
  | updateError | finalError | mgf1Error | encodeError | pssVerifyError | keyError | modexpError | cmpError | signError
  | verifyFalse => rfl
  | nop | shaInit | update | final | mgf1 | encode | pssVerify | keyLoad | modexp | cmp | sign | verify | zeroize =>
    exact absurd rfl hne

/-- Settles O49: with an error code RESULT is what VERIFY and PSS_VERIFY set before their checks, which is 0. -/
theorem verifyOutcomesAreDistinct : Obligations.VerifyOutcomesAreDistinct := by
  intro s t i hi h
  obtain ⟨e, u, rfl, he⟩ := exec_effect h
  by_cases hne : e = .none
  · cases hresult : u.result with
    | true => exact .inl ⟨hne, hresult⟩
    | false => exact .inr (.inl ⟨hne, hresult⟩)
  · obtain rfl := he.eq_beforeChecks hne
    refine .inr (.inr ⟨hne, ?_⟩)
    rcases hi with rfl | ⟨len, rfl⟩ <;> rfl

/-- R135: before the checks no byte, no SHA context field, no length register and no interrupt bit changes. -/
theorem beforeChecks_frame (i : Instr) (s : State) :
    (beforeChecks i s).intStatus = s.intStatus ∧ SameMemory s (beforeChecks i s) ∧ SameContext s (beforeChecks i s) ∧
      SameConfig s (beforeChecks i s) ∧ SameHost s (beforeChecks i s) := by
  cases i <;> simp [beforeChecks, SameMemory, SameContext, SameConfig, SameHost]

/-- R135: before the checks CMP, PSS_VERIFY and VERIFY clear RESULT, and KEY_LOAD alone drops the key. -/
theorem beforeChecks_flags (i : Instr) (s : State) :
    (((∃ len, i = .cmp len ∨ i = .verify len) ∨ i = .pssVerify) → (beforeChecks i s).result = false) ∧
      (¬((∃ len, i = .cmp len ∨ i = .verify len) ∨ i = .pssVerify) → (beforeChecks i s).result = s.result) ∧
      (i = .keyLoad → (beforeChecks i s).keyValid = false ∧ (beforeChecks i s).modBits = 0#13) ∧
      (i ≠ .keyLoad → SameKey s (beforeChecks i s)) := by
  cases i <;> simp [beforeChecks, SameKey]

/-- Settles O53: an error is `beforeChecks` and the completion updates; a word that does not decode is the completion
updates alone. -/
theorem errorsLeaveTheRest : Obligations.ErrorsLeaveTheRest := by
  constructor
  · intro s t i h hne
    obtain ⟨e, u, rfl, he⟩ := exec_effect h
    obtain rfl := he.eq_beforeChecks hne
    obtain ⟨hints, hmem, hcontext, hconfig, hhost⟩ := beforeChecks_frame i s
    exact ⟨complete_endsWith e s _ hints, hmem, hcontext, hconfig, hhost, beforeChecks_flags i s⟩
  · intro s x rest hb ha hd
    refine ⟨_, (step_of_engine ha).trans (engineTurn_of_undecodable hb hd), complete_endsWith _ _ _ rfl, ?_⟩
    simp [SameMemory, SameContext, SameConfig, SameKey]

end Sys2Proof.Machine
end

section
/-! PROOFS. The family of 70_reset_and_hazards.md: the values after reset (O13), and that they make a legal state (O59). -/

namespace Sys2Proof.Machine

/-! ### The reset table (R149) -/

/-- The rows of R149's table for the registers: what each reads after reset. -/
def resetWord (r : Reg) : Word :=
  match r with
  | .id => 0x52505353#32
  | .version => 0x00010000#32
  | .slen => 0x20#32
  | .params => 0x01000200#32
  | .ctrl | .status | .cmd | .intStatus | .intEn | .nLen | .expLen | .modBits | .emLen | .shaLenLo | .shaLenHi => 0#32

/-- Without a valid key EM_LEN is 0, whatever MOD_BITS holds (R42). -/
theorem emLenReg_of_invalid {s : State} (h : s.keyValid = false) : emLenReg s = 0 := by simp [emLenReg, h]

theorem readReg_reset (r : Reg) : readReg State.reset r = resetWord r := by
  cases r with
  | emLen => exact congrArg (BitVec.ofNat 32) (emLenReg_of_invalid (s := State.reset) rfl)
  | status => decide
  | id | version | ctrl | cmd | intStatus | intEn | slen | nLen | expLen | modBits | shaLenLo | shaLenHi | params => rfl

/-- A read at a register's offset is a read of the register, whatever BUSY is (R68). -/
theorem readValue_of_reg {s : State} {off : Nat} {r : Reg} (h : regAt off = some r) :
    readValue s off = readReg s r := by simp [readValue, h]

/-- R30: with no source pending the interrupt output is low, whatever is enabled. -/
theorem irq_of_none_pending {s : State} (h : s.intStatus = 0#3) : irq s = false := by simp [irq, h]

/-- Settles O13: each register offset reads its row of the reset table; the rest are fields of State.reset. -/
theorem resetValues : Obligations.ResetValues := by
  have reads {off : Nat} {r : Reg} (h : regAt off = some r) : readValue State.reset off = resetWord r :=
    (readValue_of_reg h).trans (readReg_reset r)
  exact ⟨reads (r := .id) rfl, reads (r := .version) rfl, reads (r := .ctrl) rfl, reads (r := .status) rfl,
    reads (r := .cmd) rfl, reads (r := .intStatus) rfl, reads (r := .intEn) rfl, reads (r := .slen) rfl,
    reads (r := .nLen) rfl, reads (r := .expLen) rfl, reads (r := .modBits) rfl, reads (r := .emLen) rfl,
    reads (r := .shaLenLo) rfl, reads (r := .shaLenHi) rfl, reads (r := .params) rfl, Memory.read_nil,
    rfl, rfl, rfl, rfl, rfl, irq_of_none_pending rfl⟩

/-! ### The reset state is legal (R49, R53, R110) -/

/-- R150: a reset of the state after reset changes nothing. -/
theorem resetEngine_reset : resetEngine State.reset = State.reset := rfl

/-- Settles O59: a reset leaves a legal state from any state, so also from the reset state, which it does not change. -/
theorem resetIsLegal : Obligations.ResetIsLegal := by
  have h : Inv (resetEngine State.reset) := inv_resetEngine State.reset
  rwa [resetEngine_reset] at h

end Sys2Proof.Machine
end
